-- ==== Sys2Proof/Word.lean ====
section
/-! DEFINITION. The words of the block: 32-bit bus words, 16-bit and 8-bit values, and colours
(00_scope.md R6 to R9). Every value is unsigned; wrapping arithmetic is that of `BitVec`. -/

namespace Sys2Proof

/-- A bus word, 32 bits (00_scope.md R6). -/
abbrev Word := BitVec 32

/-- A 16-bit value: a pixel position, a segment length, an interval in milliseconds. -/
abbrev Half := BitVec 16

/-- An 8-bit value: a colour channel, a brightness, a step, a byte of a frame. -/
abbrev Byte := BitVec 8

/-- A colour, `rgb(r, g, b)` (00_scope.md R9, 41_pipeline.md R160): the channel invariant "values
always in [0,255]" holds by the width of the fields. -/
structure RGB where
  r : Byte
  g : Byte
  b : Byte
  deriving DecidableEq, Repr

/-- `BLACK = rgb(0, 0, 0)` (00_scope.md R9). -/
def black : RGB := ⟨0#8, 0#8, 0#8⟩

/-- `rgb(255, 0, 0)`, the start of the hue cycle (42_animation.md R222). -/
def red : RGB := ⟨255#8, 0#8, 0#8⟩

end Sys2Proof
end

