-- ==== Sys2Proof/Syntax.lean ====
section
/-! DEFINITION. The command set: one constructor per row of spec/opcode_table.json
(30_encoding.md R93). Every row is one whole 32-bit word, so no constructor carries an operand: the
operands of a command stand in ARG0..ARG3 and in the buffers when it is accepted (R95). -/

namespace Sys2Proof

/-- The commands (30_encoding.md R93). An animation `x` has three rows: `x` (TRIG = TIME), `xEdge`
(TRIG = EDGE) and `xEither` (TRIG = TIME_OR_EDGE), see R92. -/
inductive Instr where
  | nop
  | scale
  | renderUniform
  | renderSegments
  | renderSparse
  | segBuildEven
  | spbClear
  | spbPut
  | spbDecay
  | spbPurge
  | animReset
  | animFade
  | animFadeEdge
  | animFadeEither
  | animBreathe
  | animBreatheEdge
  | animBreatheEither
  | animRainbow
  | animRainbowEdge
  | animRainbowEither
  | animSwap
  | animSwapEdge
  | animSwapEither
  | animRain
  | animRainEdge
  | animRainEither
  | animWipe
  | animWipeEdge
  | animWipeEither
  deriving DecidableEq, Repr

end Sys2Proof
end

