-- ==== Sys2Proof/Machine/Names.lean ====
section
/-! DEFINITION. The names the spec gives to things that are not numbers: triggers, animations, phases,
error codes, bus registers and windows, and the events a run is made of. -/

namespace Sys2Proof.Machine

/-- TRIG, the trigger mode of an animation command (30_encoding.md R92); the value 3 is illegal. -/
inductive Trig where
  /-- TIME, code 0. -/
  | time
  /-- EDGE, code 1. -/
  | edge
  /-- TIME_OR_EDGE, code 2. -/
  | either
  deriving DecidableEq, Repr

/-- The six animations (42_animation.md R220). -/
inductive Anim where
  | fade | breathe | rainbow | swap | rain | wipe
  deriving DecidableEq, Repr

/-- The key of an animation command, (OPC, TRIG) (42_animation.md R221). -/
structure Key where
  anim : Anim
  trig : Trig
  deriving DecidableEq, Repr

/-- The phases of a hue state (42_animation.md R228): the losing and the gaining channel. -/
inductive HuePhase where
  /-- 0: red loses, green gains. -/
  | redGreen
  /-- 1: green loses, blue gains. -/
  | greenBlue
  /-- 2: blue loses, red gains. -/
  | blueRed
  deriving DecidableEq, Repr

/-- BRE.phase (10_state.md R37). -/
inductive BrePhase where
  | hold | up | down
  deriving DecidableEq, Repr

/-- `est`, the encoder's state (10_state.md R38). -/
inductive EncPhase where
  | idle | high | low | latch
  deriving DecidableEq, Repr

/-- The runtime errors (60_exceptions.md R300), codes 1 to 6. -/
inductive ErrCode where
  | busy | opcode | palette | range | segsum | full
  deriving DecidableEq, Repr

/-- The outcome of an insertion into a sparse buffer (41_pipeline.md R173). -/
inductive PutOutcome where
  | updated | inserted | dropped
  deriving DecidableEq, Repr

/-- An entry of a sparse buffer: a position and a colour (10_state.md R36, R37). -/
structure Entry where
  pos : Half
  color : RGB
  deriving DecidableEq, Repr

/-- The registers of the address map (20_memory.md R64). -/
inductive Reg where
  | cmd | status | result | active | arg0 | arg1 | arg2 | arg3
  | segCount | palLen | spbCount | rainCount | frameCount | param0 | param1 | param2
  | fadeColor | fadePhase | breLevel | brePhase | breMark | rbwColor | rbwPhase | rbwMark
  | swpRot | swpMark | rainDmark | rainSmark | rainGap | wipeK | wipeBg | wipeMark | gatePrev
  deriving DecidableEq, Repr

/-- What an aligned bus address names: a register (20_memory.md R64), an entry of a window (R65) or
nothing (R66). -/
inductive Target where
  | reg (r : Reg)
  | segLen (k : Nat)
  | segColor (k : Nat)
  | pal (k : Nat)
  | spbPos (k : Nat)
  | spbColor (k : Nat)
  | rainPos (k : Nat)
  | rainColor (k : Nat)
  | unmapped
  deriving DecidableEq, Repr

/-- What the world outside the block does next (70_reset_and_hazards.md R348, 30_encoding.md R99, R100).
A run is a finite list of these after a reset (R349). -/
inductive Event where
  /-- The host reads `width` bytes at `addr`. -/
  | read (width : Nat) (addr : Half)
  /-- The host writes `value`, `width` bytes wide, at `addr`. -/
  | write (width : Nat) (addr : Half) (value : Word)
  /-- One cycle of the encoder clock passes (40_encoder.md R127). -/
  | cycle
  /-- The host polls STATUS until BUSY = 0 (30_encoding.md R100). -/
  | wait
  /-- TICK_I is driven to a value (`@tick`). -/
  | driveTick (v : Word)
  /-- GATE_I is driven to a value (`@gate`). -/
  | driveGate (b : Bool)
  /-- The random oracle's next answers (`@rand`). -/
  | giveRand (vs : List Word)
  /-- The reset input (70_reset_and_hazards.md R340). -/
  | reset
  deriving DecidableEq, Repr

end Sys2Proof.Machine
end

