-- ==== Sys2Proof/Decode.lean ====
section
/-! DEFINITION. Decoding and encoding of command words (30_encoding.md R90 to R98). -/

namespace Sys2Proof

open Machine (Trig Anim)

/-- Why a word is illegal (30_encoding.md R94), in the order R98 checks. All of them report error 2. -/
inductive DecodeError where
  /-- A 1 in bits 31:10. -/
  | reservedBits
  /-- OPC in 0x0A..0x0E or 0x16..0xFF. -/
  | unknownOpcode
  /-- TRIG = 3. -/
  | illegalTrig
  /-- TRIG is not 0 with OPC < 0x10. -/
  | trigOnPipeline
  deriving DecidableEq, Repr

/-- The rows of 30_encoding.md R93 with OPC < 0x10. -/
def plainRows : List (Byte × Instr) :=
  [(0x00, .nop), (0x01, .scale), (0x02, .renderUniform), (0x03, .renderSegments), (0x04, .renderSparse),
   (0x05, .segBuildEven), (0x06, .spbClear), (0x07, .spbPut), (0x08, .spbDecay), (0x09, .spbPurge),
   (0x0F, .animReset)]

/-- The animation opcodes of 30_encoding.md R93. -/
def animCode : Anim → Byte
  | .fade => 0x10
  | .breathe => 0x11
  | .rainbow => 0x12
  | .swap => 0x13
  | .rain => 0x14
  | .wipe => 0x15

/-- The rows of 30_encoding.md R93 with OPC 0x10..0x15. -/
def animRows : List (Byte × Anim) :=
  [.fade, .breathe, .rainbow, .swap, .rain, .wipe].map fun a => (animCode a, a)

/-- The TRIG values (30_encoding.md R92). -/
def trigCode : Trig → BitVec 2
  | .time => 0
  | .edge => 1
  | .either => 2

/-- The trigger mode a TRIG field names; 3 names none (30_encoding.md R92). -/
def trigOf (t : BitVec 2) : Option Trig :=
  if t = 0#2 then some .time else if t = 1#2 then some .edge else if t = 2#2 then some .either else none

/-- The command of an animation and a trigger mode (30_encoding.md R93). -/
def animInstr : Anim → Trig → Instr
  | .fade, .time => .animFade
  | .fade, .edge => .animFadeEdge
  | .fade, .either => .animFadeEither
  | .breathe, .time => .animBreathe
  | .breathe, .edge => .animBreatheEdge
  | .breathe, .either => .animBreatheEither
  | .rainbow, .time => .animRainbow
  | .rainbow, .edge => .animRainbowEdge
  | .rainbow, .either => .animRainbowEither
  | .swap, .time => .animSwap
  | .swap, .edge => .animSwapEdge
  | .swap, .either => .animSwapEither
  | .rain, .time => .animRain
  | .rain, .edge => .animRainEdge
  | .rain, .either => .animRainEither
  | .wipe, .time => .animWipe
  | .wipe, .edge => .animWipeEdge
  | .wipe, .either => .animWipeEither

/-- Decode the fields of a command word: reserved bits 31:10, TRIG 9:8, OPC 7:0 (30_encoding.md R90), with the checks of
R98 in their order. -/
def decodeFields (reserved : BitVec 22) (trig : BitVec 2) (opc : Byte) : Except DecodeError Instr :=
  if reserved ≠ 0#22 then .error .reservedBits
  else
    match animRows.lookup opc with
    | some a =>
      match trigOf trig with
      | some t => .ok (animInstr a t)
      | none => .error .illegalTrig
    | none =>
      match plainRows.lookup opc with
      | none => .error .unknownOpcode
      | some i =>
        match trigOf trig with
        | none => .error .illegalTrig
        | some .time => .ok i
        | some .edge => .error .trigOnPipeline
        | some .either => .error .trigOnPipeline

/-- Decode a command word: total (30_encoding.md R98). -/
def decode (w : Word) : Except DecodeError Instr :=
  decodeFields (w.extractLsb' 10 22) (w.extractLsb' 8 2) (w.extractLsb' 0 8)

/-- The instruction the decoder reads from a word of `nbits` bits numbered as spec/opcode_table.json numbers
them; the bits above `nbits` are 0. A command is one 32-bit bus word (30_encoding.md R91), so no byte
order enters. -/
def decodeTableWord (nbits w : Nat) : Option Instr :=
  match decode (BitVec.ofNat 32 (w % 2 ^ nbits)) with
  | .ok i => some i
  | .error _ => none

/-- A command word from its fields (30_encoding.md R90). -/
def commandWord (opc : Byte) (trig : BitVec 2) : Word := 0#22 ++ trig ++ opc

/-- The word of a command (30_encoding.md R90, R93). -/
def encode : Instr → Word
  | .nop => commandWord 0x00 0
  | .scale => commandWord 0x01 0
  | .renderUniform => commandWord 0x02 0
  | .renderSegments => commandWord 0x03 0
  | .renderSparse => commandWord 0x04 0
  | .segBuildEven => commandWord 0x05 0
  | .spbClear => commandWord 0x06 0
  | .spbPut => commandWord 0x07 0
  | .spbDecay => commandWord 0x08 0
  | .spbPurge => commandWord 0x09 0
  | .animReset => commandWord 0x0F 0
  | .animFade => commandWord 0x10 0
  | .animFadeEdge => commandWord 0x10 1
  | .animFadeEither => commandWord 0x10 2
  | .animBreathe => commandWord 0x11 0
  | .animBreatheEdge => commandWord 0x11 1
  | .animBreatheEither => commandWord 0x11 2
  | .animRainbow => commandWord 0x12 0
  | .animRainbowEdge => commandWord 0x12 1
  | .animRainbowEither => commandWord 0x12 2
  | .animSwap => commandWord 0x13 0
  | .animSwapEdge => commandWord 0x13 1
  | .animSwapEither => commandWord 0x13 2
  | .animRain => commandWord 0x14 0
  | .animRainEdge => commandWord 0x14 1
  | .animRainEither => commandWord 0x14 2
  | .animWipe => commandWord 0x15 0
  | .animWipeEdge => commandWord 0x15 1
  | .animWipeEither => commandWord 0x15 2

end Sys2Proof
end

