-- ==== Sys2Proof/Config.lean ====
section
/-! DEFINITION. What an integration fixes at build time (00_scope.md R5) and the free values of the
environment (10_state.md R22). -/

namespace Sys2Proof

/-- The build-time parameters of 00_scope.md R5. All of them are OPEN in the spec ("the model takes the
value as an argument"): the model holds them in `State.cfg`, no step changes them (10_state.md R21),
and a configuration outside the bounds is refused (`Config.Valid`, 60_exceptions.md R313). -/
structure Config where
  /-- P, the pixel count of the strip, legal 1..65535. -/
  pixels : Nat
  /-- WIRING, the wiring-order code, legal 0..5 (41_pipeline.md R166). -/
  wiring : Nat
  /-- RGBA_INPUT, the optional RGBA variant (41_pipeline.md R161). -/
  rgbaInput : Bool
  /-- SEG_CAP, segment buffer entries, legal 1..255. -/
  segCap : Nat
  /-- PAL_CAP, palette entries, legal 1..255. -/
  palCap : Nat
  /-- SPB_CAP, sparse pixel buffer entries, legal 1..2560. -/
  spbCap : Nat
  /-- RAIN_CAP, rain droplet buffer entries, legal 1..255. -/
  rainCap : Nat
  /-- PORT_HI, the port while the line is high. -/
  portHi : Byte
  /-- PORT_LO, the port while the line is low. -/
  portLo : Byte
  /-- F_CLK_HZ, the encoder clock frequency, legal > 0. -/
  fClkHz : Nat
  /-- T0H_NS, the target high time of a 0 bit, legal > 0. -/
  t0hNs : Nat
  /-- T0H_MAX_NS, the largest high time of a 0 bit, legal > 0. -/
  t0hMaxNs : Nat
  /-- T1H_NS, the target high time of a 1 bit, legal > 0. -/
  t1hNs : Nat
  /-- TBIT_NS, the target period of a bit, legal > 0. -/
  tbitNs : Nat
  /-- TRESET_NS, the target latch interval, legal > 0. -/
  tresetNs : Nat
  deriving DecidableEq, Repr

/-- The example configuration of 95_test_vectors.md (its timing and capacities; P and WIRING of its
program P1; PORT_HI and PORT_LO are the model's). DESIGN CHOICE (log 1), unsafe only for a claim about
`State.reset` itself: every other statement holds for every configuration. -/
def Config.example60 : Config where
  pixels := 60
  wiring := 2
  rgbaInput := false
  segCap := 8
  palCap := 8
  spbCap := 16
  rainCap := 8
  portHi := 0x01
  portLo := 0x00
  fClkHz := 20000000
  t0hNs := 400
  t0hMaxNs := 550
  t1hNs := 800
  tbitNs := 1250
  tresetNs := 50000

/-- FREE VALUE. TICK_I at the `n`-th accepted command while nothing drives the pin: any value
(93_implementation_defined.md I5, log 4). -/
opaque Config.freeTick : Nat → Word

/-- FREE VALUE. GATE_I at the `n`-th accepted command while nothing drives the pin: any value
(93_implementation_defined.md I6, log 4). -/
opaque Config.freeGate : Nat → Bool

/-- FREE VALUE. The `n`-th draw of `Rand()` when the environment has given no answer for it: any value
(93_implementation_defined.md I7, log 5). -/
opaque Config.freeRand : Nat → Word

end Sys2Proof
end

