-- ==== Sys2Proof/Machine/Timing.lean ====
section
/-! DEFINITION. The build-time arithmetic: cycle counts (40_encoder.md R137) and the checks that refuse a
configuration (R138, 60_exceptions.md R313, 00_scope.md R5). -/

namespace Sys2Proof.Machine

/-- `Ncyc(t_ns) = ceil(t_ns * F_CLK_HZ / 10^9)` (40_encoder.md R137). -/
def ncyc (c : Config) (t : Nat) : Nat := (t * c.fClkHz + (1000000000 - 1)) / 1000000000

/-- N0H, the high cycles of a 0 bit (R137). -/
def n0h (c : Config) : Nat := ncyc c c.t0hNs

/-- N1H, the high cycles of a 1 bit (R137). -/
def n1h (c : Config) : Nat := ncyc c c.t1hNs

/-- NBIT, the cycles of a bit (R137). -/
def nbit (c : Config) : Nat := ncyc c c.tbitNs

/-- NRESET, the cycles of the latch interval (R137). -/
def nreset (c : Config) : Nat := ncyc c c.tresetNs

/-- `NH(b)`, the high cycles of a bit of value `b` (40_encoder.md R123). -/
def nh (c : Config) (b : Bool) : Nat := if b then n1h c else n0h c

/-- The legal values of the clock and the targets: all > 0 (00_scope.md R5). -/
def targetsOk (c : Config) : Bool :=
  0 < c.fClkHz && 0 < c.t0hNs && 0 < c.t0hMaxNs && 0 < c.t1hNs && 0 < c.tbitNs && 0 < c.tresetNs

/-- The timing checks V1..V5 (40_encoder.md R138). -/
def timingOk (c : Config) : Bool :=
  1 ≤ n0h c && n0h c * 1000000000 ≤ c.t0hMaxNs * c.fClkHz && n0h c < n1h c && n1h c < nbit c
    && 1 ≤ nreset c

/-- The wiring check: WIRING in 0..5 (60_exceptions.md R313). -/
def wiringOk (c : Config) : Bool := c.wiring ≤ 5

/-- The port check: PORT_HI and PORT_LO differ in exactly one bit, which is 1 in PORT_HI (R313). -/
def portOk (c : Config) : Bool :=
  (List.range 8).any fun i => c.portHi ^^^ c.portLo == 1#8 <<< i && c.portHi.getLsbD i

/-- The size check: P and the capacities in the ranges of 00_scope.md R5 (60_exceptions.md R313). -/
def sizeOk (c : Config) : Bool :=
  1 ≤ c.pixels && c.pixels ≤ 65535 && 1 ≤ c.segCap && c.segCap ≤ 255 && 1 ≤ c.palCap && c.palCap ≤ 255
    && 1 ≤ c.spbCap && c.spbCap ≤ 2560 && 1 ≤ c.rainCap && c.rainCap ≤ 255

/-- An access the bus defines: 32 bits wide at an address that is a multiple of 4 (20_memory.md R62). -/
def accessOk (width : Nat) (addr : Half) : Bool := width == 4 && addr.toNat % 4 == 0

end Sys2Proof.Machine
end

