-- ==== Sys2Proof/Machine/Encoder.lean ====
section
/-! DEFINITION. The protocol encoder: its state (10_state.md R38), outputs (R39), one step per clock cycle
(40_encoder.md R127 to R133) and the waveform of a frame (R123, R124). -/

namespace Sys2Proof.Machine

/-- The encoder's state (10_state.md R38). -/
structure Encoder where
  /-- `est`. -/
  est : EncPhase
  /-- `cnt`, the cycles left in this state. -/
  cnt : Nat
  /-- `F`, the frame being sent. -/
  frame : List Byte
  /-- `bi`, the index of the current byte. -/
  bi : Nat
  /-- `bt`, the index of the current bit, 7 down to 0. -/
  bt : Fin 8
  deriving DecidableEq, Repr

/-- The encoder at reset: in LATCH for NRESET cycles (10_state.md R38, 70_reset_and_hazards.md R340). -/
def encReset (c : Config) : Encoder := ⟨.latch, nreset c, [], 0, 7⟩

/-- The encoder when a latch has ended (40_encoder.md R133). -/
def encIdle : Encoder := ⟨.idle, 0, [], 0, 7⟩

/-- `F_reg[bi][bt]`, the bit being sent. Outside the frame, which no run reaches, it reads 0 (log 9). -/
def currentBit (e : Encoder) : Bool := (e.frame.getD e.bi 0).getLsbD e.bt

/-- Enter HIGH for the current bit (40_encoder.md R128, R131). -/
def enterHigh (c : Config) (e : Encoder) : Encoder := { e with est := .high, cnt := nh c (currentBit e) }

/-- The encoder part of `Emit(F)` (40_encoder.md R128). -/
def startFrame (c : Config) (F : List Byte) : Encoder := enterHigh c ⟨.high, 0, F, 0, 7⟩

/-- What follows the last low cycle of a bit (40_encoder.md R131): the next bit, the next byte, or LATCH. -/
def afterBit (c : Config) (e : Encoder) : Encoder :=
  if e.bt.val ≠ 0 then enterHigh c { e with bt := ⟨e.bt.val - 1, by omega⟩ }
  else if e.bi + 1 < e.frame.length then enterHigh c { e with bi := e.bi + 1, bt := 7 }
  else { e with est := .latch, cnt := nreset c }

/-- One encoder step (40_encoder.md R127): IDLE R129, HIGH R130, LOW R131, LATCH R133. -/
def encStep (c : Config) (e : Encoder) : Encoder :=
  match e.est with
  | .idle => e
  | .high =>
    if e.cnt - 1 = 0 then { e with est := .low, cnt := nbit c - nh c (currentBit e) }
    else { e with cnt := e.cnt - 1 }
  | .low => if e.cnt - 1 = 0 then afterBit c { e with cnt := 0 } else { e with cnt := e.cnt - 1 }
  | .latch => if e.cnt - 1 = 0 then encIdle else { e with cnt := e.cnt - 1 }

/-- DOUT (10_state.md R39). -/
def dout (e : Encoder) : Bool := e.est == .high

/-- PORT_O (10_state.md R39, 40_encoder.md R125). -/
def portOut (c : Config) (e : Encoder) : Byte := if dout e then c.portHi else c.portLo

/-- IRQ_MASK_O, equal to STATUS.TX (10_state.md R26, R39; 40_encoder.md R135). -/
def irqMask (e : Encoder) : Bool := e.est == .high || e.est == .low

/-- STATUS.LATCH (10_state.md R26). -/
def latching (e : Encoder) : Bool := e.est == .latch

/-- BUSY (10_state.md R39). -/
def busy (e : Encoder) : Bool := e.est != .idle

/-- `Sym(b)`, the symbol of a bit (40_encoder.md R123, R124). -/
def symbol (c : Config) (b : Bool) : List Bool :=
  List.replicate (nh c b) true ++ List.replicate (nbit c - nh c b) false

/-- The bits of a byte in the order they go out, bit 7 first (40_encoder.md R122). -/
def bitsOut (x : Byte) : List Bool := [7, 6, 5, 4, 3, 2, 1, 0].map fun i => x.getLsbD i

/-- `Wave(F)`: DOUT, one value per encoder cycle, of a frame and its latch interval (40_encoder.md R124). -/
def wave (c : Config) (F : List Byte) : List Bool :=
  (F.flatMap fun x => (bitsOut x).flatMap (symbol c)) ++ List.replicate (nreset c) false

/-- The encoder after `n` steps. -/
def encRun (c : Config) : Nat → Encoder → Encoder
  | 0, e => e
  | n + 1, e => encRun c n (encStep c e)

/-- DOUT in each of the next `n` encoder steps: the outputs are driven from the state as it stands, then the state
is updated (40_encoder.md R127). -/
def encTrace (c : Config) : Nat → Encoder → List Bool
  | 0, _ => []
  | n + 1, e => dout e :: encTrace c n (encStep c e)

end Sys2Proof.Machine
end

