-- ==== Sys2Proof/Machine/Memory.lean ====
section
/-! DEFINITION. The block's memory: the read-write windows SEG and PAL of 20_memory.md R65, byte by byte under
their bus addresses. Only whole words are reachable on the bus (R62), so the order of the bytes in a word, least
significant first here, is never observable (R68; DESIGN CHOICE, log 8, safe). -/

namespace Sys2Proof.Machine

/-- Bytes by address, in one canonical form (`Memory.wf`). -/
abbrev Memory := List Host.Cell

/-- What an unlisted address reads as: 0, the reset value of every SEG and PAL entry (10_state.md R34, R35). -/
def Memory.unlisted : Byte := 0#8

/-- The canonical form: addresses strictly rise and no entry holds what an unlisted address reads as. -/
abbrev Memory.wf (m : Memory) : Prop :=
  m.Pairwise (fun x y => x.1 < y.1) ∧ ∀ x ∈ m, x.2 ≠ Memory.unlisted

/-- Read one byte. -/
def Memory.readByte : Memory → Nat → Byte
  | [], _ => Memory.unlisted
  | x :: rest, a => if a = x.1 then x.2 else if a < x.1 then Memory.unlisted else Memory.readByte rest a

/-- Put a cell in front, unless it holds what an unlisted address reads as. -/
def Memory.cons (a : Nat) (v : Byte) (m : Memory) : Memory := if v = Memory.unlisted then m else (a, v) :: m

/-- Write one byte, keeping the canonical form. -/
def Memory.writeByte : Memory → Nat → Byte → Memory
  | [], a, v => Memory.cons a v []
  | x :: rest, a, v =>
    if a < x.1 then Memory.cons a v (x :: rest)
    else if a = x.1 then Memory.cons a v rest
    else x :: Memory.writeByte rest a v

/-- Read `n` bytes from `a` on as one number. -/
def Memory.read (m : Memory) (a : Nat) : Nat → Nat
  | 0 => 0
  | n + 1 => (m.readByte a).toNat + 256 * m.read (a + 1) n

/-- Write the low `n` bytes of `v` from `a` on. -/
def Memory.write (m : Memory) (a : Nat) : Nat → Nat → Memory
  | 0, _ => m
  | n + 1, v => (m.writeByte a (BitVec.ofNat 8 v)).write (a + 1) n (v / 256)

end Sys2Proof.Machine
end

