-- ==== Sys2Proof/WellFormed.lean ====
section
/-! DEFINITION. What is admitted: configurations (60_exceptions.md R313) and events (20_memory.md R63).
A constructor of `Instr` carries no field, so every command is well formed; what a command checks of its
operands at run time is part of its meaning (60_exceptions.md R300). -/

namespace Sys2Proof

/-- A configuration that is not refused at build time (60_exceptions.md R313, 00_scope.md R5). -/
def Config.wellFormed (c : Config) : Bool :=
  Machine.targetsOk c && Machine.timingOk c && Machine.wiringOk c && Machine.portOk c && Machine.sizeOk c

/-- `Config.wellFormed` as a proposition. -/
abbrev Config.Valid (c : Config) : Prop := c.wellFormed = true

/-- An event inside the interface: a read or a write is 32 bits wide and aligned (20_memory.md R62, R63);
every other event is admitted. -/
def Machine.Event.wellFormed : Machine.Event → Bool
  | .read n a => Machine.accessOk n a
  | .write n a _ => Machine.accessOk n a
  | .cycle => true
  | .wait => true
  | .driveTick _ => true
  | .driveGate _ => true
  | .giveRand _ => true
  | .reset => true

/-- Every command is well formed: its word has no operand field (30_encoding.md R93). -/
def Instr.wellFormed : Instr → Bool := fun _ => true

end Sys2Proof
end

