-- ==== Sys2Proof/Machine/State.lean ====
section
/-! DEFINITION. The state of the block (10_state.md), of its environment, and its reset
(70_reset_and_hazards.md R340). -/

namespace Sys2Proof.Machine

/-- FADE (10_state.md R37). -/
structure Fade where
  color : RGB
  phase : HuePhase
  deriving DecidableEq, Repr

/-- BRE (10_state.md R37). -/
structure Breathe where
  level : Byte
  phase : BrePhase
  mark : Word
  deriving DecidableEq, Repr

/-- RBW (10_state.md R37). -/
structure Rainbow where
  color : RGB
  phase : HuePhase
  mark : Word
  deriving DecidableEq, Repr

/-- SWP (10_state.md R37). -/
structure Swap where
  rot : Byte
  mark : Word
  deriving DecidableEq, Repr

/-- RAIN (10_state.md R37). -/
structure Rain where
  drops : List Entry
  dmark : Word
  smark : Word
  gap : Half
  deriving DecidableEq, Repr

/-- WIPE (10_state.md R37). -/
structure Wipe where
  k : Half
  bg : RGB
  mark : Word
  deriving DecidableEq, Repr

/-- The world around the block, as far as the block meets it: the model's own fields, not the spec's state
(logs 3 to 6). -/
structure Env where
  /-- What the host, the environment and the clock do next, first first (70_reset_and_hazards.md R349). -/
  pending : List Event
  /-- The level driven on TICK_I, if any (10_state.md R22). -/
  tick : Option Word
  /-- The level driven on GATE_I, if any (10_state.md R22). -/
  gate : Option Bool
  /-- The oracle's answers not yet drawn (10_state.md R22). -/
  rands : List Word
  /-- How many commands have sampled TICK_I and GATE_I: the argument of the free values. -/
  samples : Nat
  /-- How many draws of `Rand()` have been made: the argument of the free value. -/
  draws : Nat
  /-- The 32 bits the last read returned to the host (20_memory.md R60). -/
  rdata : Word
  deriving DecidableEq, Repr

/-- The whole machine. -/
structure State where
  /-- The build-time configuration: constant (10_state.md R21, log 1). -/
  cfg : Config
  env : Env
  /-- ARG0..ARG3 (10_state.md R23). -/
  arg0 : Word
  arg1 : Word
  arg2 : Word
  arg3 : Word
  /-- CMD_LAST (10_state.md R25). -/
  cmdLast : Word
  /-- STATUS bits 13:8, E_BUSY in bit 0 to E_FULL in bit 5 (10_state.md R26). -/
  sticky : BitVec 6
  /-- STATUS bits 23:16, LAST_ERR (10_state.md R26). -/
  lastErr : Byte
  /-- RESULT (10_state.md R27). -/
  result : Word
  /-- ACTIVE: no pattern, or the key of the last animation command that ran (10_state.md R28, log 10). -/
  active : Option Key
  /-- SEG_COUNT (10_state.md R29). -/
  segCount : Half
  /-- PAL_LEN (10_state.md R30). -/
  palLen : Byte
  /-- FRAME_COUNT (10_state.md R32). -/
  frameCount : Word
  /-- The segment buffer and the palette (10_state.md R34, R35), under their bus addresses. -/
  mem : Memory
  /-- SPB (10_state.md R36). -/
  spb : List Entry
  fade : Fade
  breathe : Breathe
  rainbow : Rainbow
  swap : Swap
  rain : Rain
  wipe : Wipe
  /-- GATE_PREV, bit 0 fade to bit 5 wipe (10_state.md R37). -/
  gatePrev : BitVec 6
  /-- The encoder (10_state.md R38). -/
  enc : Encoder
  deriving DecidableEq, Repr

/-- Why the block stops: it never does. "The block has no fault state and no stuck state" (60_exceptions.md R314),
so there is no constructor, and a step that faults does not exist (safe). -/
inductive Fault where
  deriving DecidableEq, Repr

/-- Why a run is refused. -/
inductive Refusal where
  /-- A command with no meaning yet, raised by an arm of `exec`: no arm raises it (safe). -/
  | notModelled (mnemonic : String)
  /-- An access that is not 32 bits wide or not aligned, raised by `hostEvent`: it is outside the interface and the
  run is refused (20_memory.md R63, 60_exceptions.md R314) (safe). -/
  | accessOutsideInterface
  /-- A configuration that is refused at build time, raised by `advance`: it has no model (60_exceptions.md R313)
  (safe). -/
  | configurationRefused
  deriving DecidableEq, Repr

/-- The reset value of FADE (10_state.md R37). -/
def Fade.reset : Fade := ⟨red, .redGreen⟩

/-- The reset value of BRE (10_state.md R37). -/
def Breathe.reset : Breathe := ⟨0, .hold, 0⟩

/-- The reset value of RBW (10_state.md R37). -/
def Rainbow.reset : Rainbow := ⟨red, .redGreen, 0⟩

/-- The reset value of SWP (10_state.md R37). -/
def Swap.reset : Swap := ⟨0, 0⟩

/-- The reset value of RAIN (10_state.md R37). -/
def Rain.reset : Rain := ⟨[], 0, 0, 0⟩

/-- The reset value of WIPE (10_state.md R37). -/
def Wipe.reset : Wipe := ⟨0, black, 0⟩

/-- An environment that does nothing and drives nothing (DESIGN CHOICE, logs 3 to 6: safe, since the inputs it
leaves undriven are free values). -/
def Env.quiet : Env := ⟨[], none, none, [], 0, 0, 0⟩

/-- The block of configuration `c` right after reset in the environment `env` (70_reset_and_hazards.md R340). -/
def State.resetIn (c : Config) (env : Env) : State where
  cfg := c
  env := env
  arg0 := 0
  arg1 := 0
  arg2 := 0
  arg3 := 0
  cmdLast := 0
  sticky := 0
  lastErr := 0
  result := 0
  active := none
  segCount := 0
  palLen := 0
  frameCount := 0
  mem := []
  spb := []
  fade := Fade.reset
  breathe := Breathe.reset
  rainbow := Rainbow.reset
  swap := Swap.reset
  rain := Rain.reset
  wipe := Wipe.reset
  gatePrev := 0
  enc := encReset c

/-- The block of configuration `c` right after reset, with nothing pending. -/
def State.resetOf (c : Config) : State := State.resetIn c Env.quiet

/-- The machine right after reset, in the example configuration of 95_test_vectors.md (log 1). -/
def State.reset : State := State.resetOf Config.example60

end Sys2Proof.Machine
end

