-- ==== Sys2Proof/Machine/Flags.lean ====
section
/-! DEFINITION. The words software sees that are put together from fields (STATUS, ACTIVE, PARAM0..2), the bits of
RESULT and GATE_PREV, the error codes, and the trigger conditions of the animations. -/

namespace Sys2Proof.Machine

/-- The code of an error (60_exceptions.md R300). -/
def errCode : ErrCode → Nat
  | .busy => 1
  | .opcode => 2
  | .palette => 3
  | .range => 4
  | .segsum => 5
  | .full => 6

/-- The sticky bit of an error, STATUS bit 7 + code, as a bit of `State.sticky` (60_exceptions.md R301). -/
def errBit (e : ErrCode) : BitVec 6 := 1#6 <<< (errCode e - 1)

/-- A Boolean as one bit. -/
def bit (b : Bool) : BitVec 1 := BitVec.ofBool b

/-- STATUS (10_state.md R26): LAST_ERR 23:16, sticky bits 13:8, TX 2, LATCH 1, BUSY 0, the rest 0. -/
def statusWord (s : State) : Word :=
  0#8 ++ s.lastErr ++ 0#2 ++ s.sticky ++ 0#5 ++ bit (irqMask s.enc) ++ bit (latching s.enc) ++ bit (busy s.enc)

/-- ACTIVE (10_state.md R28, 42_animation.md R221): 0, or `0x80000000 | (t << 8) | a`. -/
def activeWord (s : State) : Word :=
  match s.active with
  | none => 0#32
  | some k => 1#1 ++ 0#21 ++ trigCode k.trig ++ animCode k.anim

/-- PARAM0 (10_state.md R33): P 15:0, WIRING 18:16, RGBA_INPUT 19. -/
def param0 (c : Config) : Word := 0#12 ++ bit c.rgbaInput ++ BitVec.ofNat 3 c.wiring ++ BitVec.ofNat 16 c.pixels

/-- PARAM1 (10_state.md R33): SEG_CAP 7:0, PAL_CAP 15:8, RAIN_CAP 23:16. -/
def param1 (c : Config) : Word := 0#8 ++ BitVec.ofNat 8 c.rainCap ++ BitVec.ofNat 8 c.palCap ++ BitVec.ofNat 8 c.segCap

/-- PARAM2 (10_state.md R33): SPB_CAP 15:0. -/
def param2 (c : Config) : Word := 0#16 ++ BitVec.ofNat 16 c.spbCap

/-- The number of a breathe phase (10_state.md R37). -/
def brePhaseCode : BrePhase → Nat
  | .hold => 0
  | .up => 1
  | .down => 2

/-- i(a), the bit of an animation in GATE_PREV (42_animation.md R220). -/
def animIndex : Anim → Nat
  | .fade => 0
  | .breathe => 1
  | .rainbow => 2
  | .swap => 3
  | .rain => 4
  | .wipe => 5

/-- A word of GATE_PREV with bit `i` set to `b`. -/
def setGateBit (g : BitVec 6) (i : Nat) (b : Bool) : BitVec 6 := if b then g ||| 1#6 <<< i else g &&& ~~~(1#6 <<< i)

/-- `RESULT[i] <- 1`. -/
def setBitWord (w : Word) (i : Nat) : Word := w ||| 1#32 <<< i

/-- `Event(timecond)` (42_animation.md R225). -/
def triggered (t : Trig) (timecond edge : Bool) : Bool :=
  match t with
  | .time => timecond
  | .edge => edge
  | .either => timecond || edge

/-- The palette check of SEG_BUILD_EVEN and ANIM_SWAP (41_pipeline.md R181, 42_animation.md R234):
`PAL_LEN > PAL_CAP or N = 0 or N > PAL_LEN or N > SEG_CAP`. -/
def paletteBad (s : State) (n : Nat) : Bool :=
  s.cfg.palCap < s.palLen.toNat || n == 0 || s.palLen.toNat < n || s.cfg.segCap < n

end Sys2Proof.Machine
end

