-- ==== Sys2Proof/Machine/Colour.lean ====
section
/-! DEFINITION. The colour model: colour words, brightness and wiring order (00_scope.md R9,
41_pipeline.md R160 to R167). -/

namespace Sys2Proof.Machine

/-- `Col(w)`, the colour of a colour word; bits 31:24 are not read (00_scope.md R9, 41_pipeline.md R162). -/
def col (w : Word) : RGB := ⟨w.extractLsb' 16 8, w.extractLsb' 8 8, w.extractLsb' 0 8⟩

/-- `Word(c)`, the colour word of a colour (00_scope.md R9). -/
def colourWord (c : RGB) : Word := 0#8 ++ c.r ++ c.g ++ c.b

/-- `Scale(x, b)`: `x * b / 255` rounded to the nearest integer (41_pipeline.md R163), in the integer form of
R164. -/
def scale (x b : Byte) : Byte := BitVec.ofNat 8 ((x.toNat * b.toNat + 127) / 255)

/-- `ApplyBrightness(c, b)`: every channel scaled on its own (41_pipeline.md R163). -/
def applyBrightness (c : RGB) (b : Byte) : RGB := ⟨scale c.r b, scale c.g b, scale c.b b⟩

/-- `c.ch(i)`: 0 = red, 1 = green, 2 = blue (00_scope.md R9). -/
def channel (c : RGB) : Fin 3 → Byte
  | 0 => c.r
  | 1 => c.g
  | 2 => c.b

/-- `perm` of a WIRING code: the logical channel sent in each position (41_pipeline.md R166). The codes above
5 are refused at build time (60_exceptions.md R313); what stands here for them is never used. -/
def perm : Nat → List (Fin 3)
  | 0 => [0, 1, 2]
  | 1 => [0, 2, 1]
  | 2 => [1, 0, 2]
  | 3 => [1, 2, 0]
  | 4 => [2, 0, 1]
  | 5 => [2, 1, 0]
  | _ => [0, 1, 2]

/-- `PixelBytes(c)`: the channels in wiring order (41_pipeline.md R167). -/
def pixelBytes (wiring : Nat) (c : RGB) : List Byte := (perm wiring).map (channel c)

/-- `Frame(px)`: pixel 0's bytes, then pixel 1's, and so on (41_pipeline.md R167, 40_encoder.md R121). -/
def frameOf (c : Config) (px : List RGB) : List Byte := px.flatMap (pixelBytes c.wiring)

/-- What a host write of the colour word `v` stores (41_pipeline.md R161). -/
def storedColour (c : Config) (v : Word) : Word :=
  if c.rgbaInput then colourWord (applyBrightness (col v) (v.extractLsb' 24 8)) else v

end Sys2Proof.Machine
end

