-- ==== Sys2Proof/Machine/Hue.lean ====
section
/-! DEFINITION. Coercion, ramps and hue steps (42_animation.md R224, R227, R228). -/

namespace Sys2Proof.Machine

/-- `Co(x) = max(x, 1)` (42_animation.md R224). -/
def co (x : Nat) : Nat := max x 1

/-- `Co` of an 8-bit step (R224). -/
def coStep (s : Byte) : Byte := BitVec.ofNat 8 (co s.toNat)

/-- `RampDown(x, s)`: the wrapped difference, 0 where it wrapped (42_animation.md R227). -/
def rampDown (x s : Byte) : Byte := if x < x - s then 0#8 else x - s

/-- `RampUp(x, s)`: the wrapped sum, 255 where it wrapped (42_animation.md R227). -/
def rampUp (x s : Byte) : Byte := if x + s < x then 255#8 else x + s

/-- `(ph + 1) mod 3` (42_animation.md R228). -/
def nextHuePhase : HuePhase → HuePhase
  | .redGreen => .greenBlue
  | .greenBlue => .blueRed
  | .blueRed => .redGreen

/-- The number of a hue phase (10_state.md R37). -/
def huePhaseCode : HuePhase → Nat
  | .redGreen => 0
  | .greenBlue => 1
  | .blueRed => 2

/-- The phase after a step that left the losing channel at `l` (42_animation.md R228). -/
def phaseAfter (ph : HuePhase) (l : Byte) : HuePhase := if l = 0#8 then nextHuePhase ph else ph

/-- `HueStep((c, ph), s)` (42_animation.md R228): the losing channel falls, the gaining channel rises, the third
stays; the phase advances when the losing channel reaches 0. -/
def hueStep (c : RGB) (ph : HuePhase) (s : Byte) : RGB × HuePhase :=
  match ph with
  | .redGreen => (⟨rampDown c.r s, rampUp c.g s, c.b⟩, phaseAfter .redGreen (rampDown c.r s))
  | .greenBlue => (⟨c.r, rampDown c.g s, rampUp c.b s⟩, phaseAfter .greenBlue (rampDown c.g s))
  | .blueRed => (⟨rampUp c.r s, c.g, rampDown c.b s⟩, phaseAfter .blueRed (rampDown c.b s))

/-- The rainbow's walk along the strip: emit the colour of the working copy, then step it
(42_animation.md R233). -/
def hueWalk : Nat → RGB → HuePhase → Byte → List RGB
  | 0, _, _, _ => []
  | n + 1, c, ph, s => c :: hueWalk n (hueStep c ph s).1 (hueStep c ph s).2 s

end Sys2Proof.Machine
end

