-- ==== Sys2Proof/Machine/Operands.lean ====
section
/-! DEFINITION. The operand fields of the argument registers (30_encoding.md R95, R96). Bits outside the fields a
command reads are ignored (R97). -/

namespace Sys2Proof.Machine

/-- The colour operand, `Col(ARG0)`. -/
def opColour (s : State) : RGB := col s.arg0

/-- BR, `ARG1[7:0]`. -/
def opBr (s : State) : Byte := s.arg1.extractLsb' 0 8

/-- STEP, `Co(ARG1[15:8])` (fade, breathe; coerced as 42_animation.md R224 says). -/
def opStep (s : State) : Byte := coStep (s.arg1.extractLsb' 8 8)

/-- PIXSTEP, `Co(ARG1[15:8])` (rainbow). -/
def opPixStep (s : State) : Byte := coStep (s.arg1.extractLsb' 8 8)

/-- ROTSTEP, `Co(ARG1[23:16])` (rainbow). -/
def opRotStep (s : State) : Byte := coStep (s.arg1.extractLsb' 16 8)

/-- POT, `ARG1[15:8]` (swap). -/
def opPot (s : State) : Byte := s.arg1.extractLsb' 8 8

/-- PSRC, `ARG1[16]` (swap). -/
def opPsrc (s : State) : Bool := s.arg1.getLsbD 16

/-- MAXD, `ARG1[15:8]` (rain). -/
def opMaxd (s : State) : Nat := (s.arg1.extractLsb' 8 8).toNat

/-- N, `ARG2[7:0]` (segment builder, swap). -/
def opN (s : State) : Nat := (s.arg2.extractLsb' 0 8).toNat

/-- ROT, `ARG2[15:8]` (segment builder). -/
def opRot (s : State) : Nat := (s.arg2.extractLsb' 8 8).toNat

/-- POS, `ARG2[15:0]` (sparse put). -/
def opPos (s : State) : Half := s.arg2.extractLsb' 0 16

/-- INTERVAL of rainbow and wipe, `Co(ARG2[15:0])`. -/
def opInterval (s : State) : Nat := co (s.arg2.extractLsb' 0 16).toNat

/-- The swap interval (42_animation.md R234): `Co(1020 - (POT << 2))` with PSRC = 1, else `Co(ARG3[15:0])`. -/
def opSwapInterval (s : State) : Nat :=
  if opPsrc s then co (1020 - (opPot s).toNat <<< 2) else co (s.arg3.extractLsb' 0 16).toNat

/-- SPAWN_MIN, `Co(ARG2[15:0])` (rain). -/
def opSpawnMin (s : State) : Nat := co (s.arg2.extractLsb' 0 16).toNat

/-- SPAWN_MAX, `Co(ARG2[31:16])` (rain). -/
def opSpawnMax (s : State) : Nat := co (s.arg2.extractLsb' 16 16).toNat

/-- DECAY_MS, `Co(ARG3[15:0])` (rain). -/
def opDecayMs (s : State) : Nat := co (s.arg3.extractLsb' 0 16).toNat

/-- `Gap(r)`, a spawn interval in [lo, hi] (42_animation.md R235). -/
def spawnGap (s : State) (r : Word) : Half :=
  let lo := min (opSpawnMin s) (opSpawnMax s)
  let hi := max (opSpawnMin s) (opSpawnMax s)
  BitVec.ofNat 16 (lo + r.toNat % (hi - lo + 1))

/-- The droplet bound `min(MAXD, RAIN_CAP, P)` (42_animation.md R235). -/
def maxDrops (s : State) : Nat := min (opMaxd s) (min s.cfg.rainCap s.cfg.pixels)

/-- HOLD_MS, the breathe hold (00_scope.md R6). -/
def holdMs : Nat := 2000

end Sys2Proof.Machine
end

