-- ==== Sys2Proof/Machine/Segments.lean ====
section
/-! DEFINITION. Segments: even division and the pixels of a segment list (41_pipeline.md R169, R170). -/

namespace Sys2Proof.Machine

/-- `EvenLen(k, N, P)`: every segment has `P div N` pixels, the last takes the remainder (41_pipeline.md R169). -/
def evenLen (k n p : Nat) : Nat := if k + 1 = n then p - (n - 1) * (p / n) else p / n

/-- `SegPixels`: each segment's colour, as often as it is long (41_pipeline.md R170). -/
def segPixels (segs : List (Nat × RGB)) : List RGB := segs.flatMap fun s => List.replicate s.1 s.2

end Sys2Proof.Machine
end

