-- ==== Sys2Proof/Machine/Sparse.lean ====
section
/-! DEFINITION. Sparse pixel buffers: the pixels they show, insertion, decay, purge, and the free positions
rain draws from (41_pipeline.md R171 to R175, 42_animation.md R235). -/

namespace Sys2Proof.Machine

/-- The invariant of a sparse buffer: positions rise, lie below P, and the capacity holds (41_pipeline.md R171). Every
sequence of SPB_CLEAR, SPB_PUT, SPB_DECAY and SPB_PURGE keeps it of SPB (R186). -/
abbrev SparseOk (pixels cap : Nat) (S : List Entry) : Prop :=
  S.Pairwise (fun x y => x.pos.toNat < y.pos.toNat) ∧ (∀ e ∈ S, e.pos.toNat < pixels) ∧ S.length ≤ cap

/-- The forward walk of 41_pipeline.md R172: `n` positions from `i` on, the list being what the pointer `j` has
left. -/
def sparseWalk : Nat → Nat → List Entry → List RGB
  | 0, _, _ => []
  | n + 1, i, [] => black :: sparseWalk n (i + 1) []
  | n + 1, i, e :: es =>
    if e.pos.toNat = i then e.color :: sparseWalk n (i + 1) es else black :: sparseWalk n (i + 1) (e :: es)

/-- `SparsePixels(S, P)` (41_pipeline.md R172): positions 0 to P-1. -/
def sparsePixels (S : List Entry) (pixels : Nat) : List RGB := sparseWalk pixels 0 S

/-- Insert an entry so that positions stay ascending (41_pipeline.md R173). -/
def insertEntry (e : Entry) : List Entry → List Entry
  | [] => [e]
  | x :: xs => if e.pos.toNat < x.pos.toNat then e :: x :: xs else x :: insertEntry e xs

/-- Is a position in the buffer? -/
def occupied (S : List Entry) (pos : Half) : Bool := S.any fun e => e.pos == pos

/-- `Put(S, pos, c, cap)` (41_pipeline.md R173). -/
def put (S : List Entry) (pos : Half) (c : RGB) (cap : Nat) : List Entry × PutOutcome :=
  if occupied S pos then (S.map fun e => if e.pos = pos then ⟨e.pos, c⟩ else e, .updated)
  else if S.length < cap then (insertEntry ⟨pos, c⟩ S, .inserted)
  else (S, .dropped)

/-- `Dec(x) = x - 1` if x > 0, else 0 (41_pipeline.md R174). -/
def dec (x : Byte) : Byte := if x = 0#8 then 0#8 else x - 1#8

/-- `Decay(S)`: every channel of every entry falls by one, 0 stays 0 (41_pipeline.md R174). -/
def decay (S : List Entry) : List Entry := S.map fun e => ⟨e.pos, ⟨dec e.color.r, dec e.color.g, dec e.color.b⟩⟩

/-- `Purge(S)`: the entries that are not BLACK (41_pipeline.md R175). -/
def purge (S : List Entry) : List Entry := S.filter fun e => e.color ≠ black

/-- `Removed(S) = len(S) - len(Purge(S))` (41_pipeline.md R175). -/
def removed (S : List Entry) : Nat := S.length - (purge S).length

/-- The positions 0..P-1 not in the buffer, ascending (42_animation.md R235). -/
def freePositions (S : List Entry) (pixels : Nat) : List Nat :=
  (List.range pixels).filter fun i => !occupied S (BitVec.ofNat 16 i)

end Sys2Proof.Machine
end

