-- ==== Sys2Proof/Machine/Ops.lean ====
section
/-! DEFINITION. The named operations over the state that the commands share: reporting an error and clearing it (the
block's only "exception entry" and "return", 60_exceptions.md R301, R305, R306), the inputs, `Emit`, the buffers in
memory, activation and the gate sample. -/

namespace Sys2Proof.Machine

/-- `raise Err(code)` (60_exceptions.md R301): set the sticky bit, record the code, change nothing else. -/
def raiseErr (e : ErrCode) (s : State) : State :=
  { s with sticky := s.sticky ||| errBit e, lastErr := BitVec.ofNat 8 (errCode e) }

/-- A write of STATUS (10_state.md R26, 60_exceptions.md R306): a 1 clears its sticky bit; LAST_ERR clears when none
is left. -/
def clearErrors (v : Word) (s : State) : State :=
  { s with
    sticky := s.sticky &&& ~~~(v.extractLsb' 8 6)
    lastErr := if s.sticky &&& ~~~(v.extractLsb' 8 6) = 0#6 then 0#8 else s.lastErr }

/-- `RESULT <- v`. -/
def setResult (v : Word) (s : State) : State := { s with result := v }

/-- `RESULT[i] <- 1`. -/
def flagResult (i : Nat) (s : State) : State := { s with result := setBitWord s.result i }

/-- `now`, the sample of TICK_I of the command being executed (00_scope.md R12, 10_state.md R22): the level driven,
or a free value. -/
def State.now (s : State) : Word := s.env.tick.getD (Config.freeTick s.env.samples)

/-- `gate`, the sample of GATE_I of the command being executed (00_scope.md R12, 10_state.md R22). -/
def State.gate (s : State) : Bool := s.env.gate.getD (Config.freeGate s.env.samples)

/-- What the next `Rand()` draws (00_scope.md R12): the oracle's next answer, or a free value. -/
def State.randValue (s : State) : Word := s.env.rands.headD (Config.freeRand s.env.draws)

/-- The state after a draw: "each call is a fresh draw" (00_scope.md R12). -/
def drawRand (s : State) : State :=
  { s with env := { s.env with rands := s.env.rands.tail, draws := s.env.draws + 1 } }

/-- `Elapsed(mark) = now -_32 mark` (42_animation.md R223). -/
def elapsed (s : State) (mark : Word) : Nat := (s.now - mark).toNat

/-- `Expired(mark, iv)` (42_animation.md R223). -/
def expired (s : State) (mark : Word) (iv : Nat) : Bool := iv ≤ elapsed s mark

/-- `Emit(F)` (40_encoder.md R128). -/
def emit (F : List Byte) (s : State) : State :=
  { s with enc := startFrame s.cfg F, frameCount := s.frameCount + 1#32 }

/-- Emit a frame of pixel colours, each scaled by BR on a copy (41_pipeline.md R167, R168). -/
def showPixels (px : List RGB) (s : State) : State :=
  emit (frameOf s.cfg (px.map fun c => applyBrightness c (opBr s))) s

/-- Where `SEG_LEN[k]` stands (20_memory.md R65). -/
def segLenAddr (k : Nat) : Nat := 0x1000 + 8 * k

/-- Where `SEG_COLOR[k]` stands (20_memory.md R65). -/
def segColorAddr (k : Nat) : Nat := 0x1004 + 8 * k

/-- Where `PAL[k]` stands (20_memory.md R65). -/
def palAddr (k : Nat) : Nat := 0x2000 + 4 * k

/-- `SEG_LEN[k]` (10_state.md R34). -/
def segLen (m : Memory) (k : Nat) : Half := BitVec.ofNat 16 (m.read (segLenAddr k) 2)

/-- `SEG_COLOR[k]` (10_state.md R34). -/
def segColor (m : Memory) (k : Nat) : Word := BitVec.ofNat 32 (m.read (segColorAddr k) 4)

/-- `PAL[k]` (10_state.md R35). -/
def pal (m : Memory) (k : Nat) : Word := BitVec.ofNat 32 (m.read (palAddr k) 4)

/-- `SEG_LEN[k] <- v`. -/
def setSegLen (k : Nat) (v : Half) (m : Memory) : Memory := m.write (segLenAddr k) 2 v.toNat

/-- `SEG_COLOR[k] <- v`. -/
def setSegColor (k : Nat) (v : Word) (m : Memory) : Memory := m.write (segColorAddr k) 4 v.toNat

/-- `PAL[k] <- v`. -/
def setPal (k : Nat) (v : Word) (m : Memory) : Memory := m.write (palAddr k) 4 v.toNat

/-- The first `n` segments of the segment buffer (41_pipeline.md R179). -/
def segments (m : Memory) (n : Nat) : List (Nat × RGB) :=
  (List.range n).map fun k => ((segLen m k).toNat, col (segColor m k))

/-- `SEG_LEN[0] + ... + SEG_LEN[n-1]`, exact (41_pipeline.md R179). -/
def segLenSum (m : Memory) (n : Nat) : Nat := ((List.range n).map fun k => (segLen m k).toNat).sum

/-- The loop of SEG_BUILD_EVEN for k = 0 .. j-1 (41_pipeline.md R181): `n` segments over `p` pixels, palette rotated
by `rot`. -/
def buildSegments (n rot p : Nat) : Nat → Memory → Memory
  | 0, m => m
  | j + 1, m =>
    let m' := buildSegments n rot p j m
    setSegColor j (pal m' ((j + rot) % n)) (setSegLen j (BitVec.ofNat 16 (evenLen j n p)) m')

/-- `Activate(a)` (42_animation.md R222): the activation values of the record of `a`, and its gate sample. Rain draws
its first gap. -/
def activate (a : Anim) (s : State) : State :=
  let s' : State :=
    match a with
    | .fade => { s with fade := ⟨red, .redGreen⟩ }
    | .breathe => { s with breathe := ⟨0#8, .hold, s.now⟩ }
    | .rainbow => { s with rainbow := ⟨red, .redGreen, s.now⟩ }
    | .swap => { s with swap := ⟨0#8, s.now⟩ }
    | .rain => drawRand { s with rain := ⟨[], s.now, s.now, spawnGap s s.randValue⟩ }
    | .wipe => { s with wipe := ⟨0#16, black, s.now⟩ }
  { s' with gatePrev := setGateBit s'.gatePrev (animIndex a) false }

/-- Activation of the key (a, t) (42_animation.md R221): activate on a change of key, then record the key. -/
def switchTo (a : Anim) (t : Trig) (s : State) : State :=
  let s' := if s.active = some ⟨a, t⟩ then s else activate a s
  { s' with active := some ⟨a, t⟩ }

/-- `edge` (42_animation.md R225): previous sample 0, this sample 1. -/
def gateEdge (a : Anim) (s : State) : Bool := !s.gatePrev.getLsbD (animIndex a) && s.gate

/-- `GATE_PREV[i(a)] <- gate` (42_animation.md R225). -/
def sampleGate (a : Anim) (s : State) : State := { s with gatePrev := setGateBit s.gatePrev (animIndex a) s.gate }

end Sys2Proof.Machine
end

