-- ==== Sys2Proof/Machine/Animation.lean ====
section
/-! DEFINITION. The animation commands (42_animation.md R226, R230 to R236). The shape of each is R226's: its own
checks, activation, the edge and gate update, the state update, one `Emit` of the state after the update. Each meaning
starts after the acceptance steps of 30_encoding.md R98. -/

namespace Sys2Proof.Machine

/-- ANIM_RESET (R230): every animation record and GATE_PREV at reset, no pattern active. -/
def execAnimReset (s : State) : Host.Outcome State Fault Refusal :=
  .next { s with
    fade := Fade.reset
    breathe := Breathe.reset
    rainbow := Rainbow.reset
    swap := Swap.reset
    rain := Rain.reset
    wipe := Wipe.reset
    gatePrev := 0
    active := none }

/-- Steps 2 to 4 of R226: activation, the edge and gate update, then the animation's own update, which is given
`edge`. -/
def animStep (a : Anim) (t : Trig) (update : Bool → State → State) (s : State) : State :=
  update (gateEdge a (switchTo a t s)) (sampleGate a (switchTo a t s))

/-- The update of ANIM_FADE (R231). -/
def fadeUpdate (t : Trig) (edge : Bool) (s : State) : State :=
  if triggered t true edge then
    let h := hueStep s.fade.color s.fade.phase (opStep s)
    let s' := { s with fade := ⟨h.1, h.2⟩ }
    if h.2 ≠ s.fade.phase then flagResult 0 s' else s'
  else s

/-- ANIM_FADE with a trigger mode (R231). -/
def animFade (t : Trig) (s : State) : State :=
  let s' := animStep .fade t (fadeUpdate t) s
  showPixels (List.replicate s'.cfg.pixels s'.fade.color) s'

/-- The end of the hold of ANIM_BREATHE (R232). -/
def breatheHold (t : Trig) (edge : Bool) (s : State) : State :=
  if s.breathe.phase = .hold ∧ triggered t (expired s s.breathe.mark holdMs) edge then
    { s with breathe := { s.breathe with phase := .up, mark := s.now } }
  else s

/-- The ramps of ANIM_BREATHE (R232): up, or else down. -/
def breatheRamp (s : State) : State :=
  match s.breathe.phase with
  | .hold => s
  | .up =>
    let l := rampUp s.breathe.level (opStep s)
    { s with breathe := { s.breathe with level := l, phase := if l = 255#8 then .down else .up } }
  | .down =>
    let l := rampDown s.breathe.level (opStep s)
    if l = 0#8 then flagResult 0 { s with breathe := ⟨l, .hold, s.now⟩ }
    else { s with breathe := { s.breathe with level := l } }

/-- The update of ANIM_BREATHE (R232): the call that ends the hold also takes the first step up. -/
def breatheUpdate (t : Trig) (edge : Bool) (s : State) : State := breatheRamp (breatheHold t edge s)

/-- ANIM_BREATHE with a trigger mode (R232). -/
def animBreathe (t : Trig) (s : State) : State :=
  let s' := animStep .breathe t (breatheUpdate t) s
  showPixels (List.replicate s'.cfg.pixels (applyBrightness (opColour s') s'.breathe.level)) s'

/-- The update of ANIM_RAINBOW (R233). -/
def rainbowUpdate (t : Trig) (edge : Bool) (s : State) : State :=
  if triggered t (expired s s.rainbow.mark (opInterval s)) edge then
    let h := hueStep s.rainbow.color s.rainbow.phase (opRotStep s)
    flagResult 0 { s with rainbow := ⟨h.1, h.2, s.now⟩ }
  else s

/-- ANIM_RAINBOW with a trigger mode (R233): the working copy walks the strip and is discarded. -/
def animRainbow (t : Trig) (s : State) : State :=
  let s' := animStep .rainbow t (rainbowUpdate t) s
  showPixels (hueWalk s'.cfg.pixels s'.rainbow.color s'.rainbow.phase (opPixStep s')) s'

/-- The update of ANIM_SWAP (R234). -/
def swapUpdate (t : Trig) (edge : Bool) (s : State) : State :=
  if triggered t (expired s s.swap.mark (opSwapInterval s)) edge then
    flagResult 0 { s with swap := ⟨BitVec.ofNat 8 ((s.swap.rot.toNat + 1) % opN s), s.now⟩ }
  else s

/-- The segments of ANIM_SWAP, built internally (R234). -/
def swapSegments (s : State) : List (Nat × RGB) :=
  (List.range (opN s)).map fun k =>
    (evenLen k (opN s) s.cfg.pixels, col (pal s.mem ((k + s.swap.rot.toNat) % opN s)))

/-- ANIM_SWAP with a trigger mode (R234): E_PALETTE comes before activation. -/
def animSwap (t : Trig) (s : State) : State :=
  if paletteBad s (opN s) then raiseErr .palette s
  else
    let s' := animStep .swap t (swapUpdate t) s
    showPixels (segPixels (swapSegments s')) s'

/-- The purge of ANIM_RAIN (R235): the droplets black since an earlier call. -/
def rainPurge (s : State) : State := { s with rain := { s.rain with drops := purge s.rain.drops } }

/-- The decay of ANIM_RAIN (R235), on its own timer whatever the trigger. -/
def rainDecay (s : State) : State :=
  if expired s s.rain.dmark (opDecayMs s) then
    flagResult 1 { s with rain := { s.rain with drops := decay s.rain.drops, dmark := s.now } }
  else s

/-- The spawn of ANIM_RAIN (R235): the position is drawn first, then the next gap. -/
def rainSpawn (t : Trig) (edge : Bool) (s : State) : State :=
  if triggered t (expired s s.rain.smark s.rain.gap.toNat) edge ∧ s.rain.drops.length < maxDrops s then
    let m := s.cfg.pixels - s.rain.drops.length
    let pos := (freePositions s.rain.drops s.cfg.pixels).getD (s.randValue.toNat % m) 0
    let s1 := drawRand { s with rain := { s.rain with
      drops := insertEntry ⟨BitVec.ofNat 16 pos, opColour s⟩ s.rain.drops } }
    let s2 := drawRand { s1 with rain := { s1.rain with gap := spawnGap s1 s1.randValue, smark := s1.now } }
    flagResult 0 s2
  else s

/-- The update of ANIM_RAIN (R235): purge, decay, spawn. -/
def rainUpdate (t : Trig) (edge : Bool) (s : State) : State := rainSpawn t edge (rainDecay (rainPurge s))

/-- ANIM_RAIN with a trigger mode (R235). -/
def animRain (t : Trig) (s : State) : State :=
  let s' := animStep .rain t (rainUpdate t) s
  showPixels (sparsePixels s'.rain.drops s'.cfg.pixels) s'

/-- The advance of ANIM_WIPE (R236). -/
def wipeUpdate (t : Trig) (edge : Bool) (s : State) : State :=
  if triggered t (expired s s.wipe.mark (opInterval s)) edge then
    { s with wipe := { s.wipe with k := s.wipe.k + 1#16, mark := s.now } }
  else s

/-- The pixels of ANIM_WIPE (R236): the target below k, the background from k on. -/
def wipePixels (s : State) : List RGB :=
  (List.range s.cfg.pixels).map fun i => if i < s.wipe.k.toNat then opColour s else s.wipe.bg

/-- The completion of ANIM_WIPE (R236): the target becomes the background and the count restarts. -/
def wipeFinish (s : State) : State :=
  if s.wipe.k.toNat = s.cfg.pixels then flagResult 0 { s with wipe := { s.wipe with bg := opColour s, k := 0#16 } }
  else s

/-- ANIM_WIPE with a trigger mode (R236). -/
def animWipe (t : Trig) (s : State) : State :=
  let s' := animStep .wipe t (wipeUpdate t) s
  showPixels (wipePixels s') (wipeFinish s')

/-- ANIM_FADE (R231, TRIG = TIME). -/
def execAnimFade (s : State) : Host.Outcome State Fault Refusal := .next (animFade .time s)

/-- ANIM_FADE.edge (R231, TRIG = EDGE). -/
def execAnimFadeEdge (s : State) : Host.Outcome State Fault Refusal := .next (animFade .edge s)

/-- ANIM_FADE.either (R231, TRIG = TIME_OR_EDGE). -/
def execAnimFadeEither (s : State) : Host.Outcome State Fault Refusal := .next (animFade .either s)

/-- ANIM_BREATHE (R232, TRIG = TIME). -/
def execAnimBreathe (s : State) : Host.Outcome State Fault Refusal := .next (animBreathe .time s)

/-- ANIM_BREATHE.edge (R232, TRIG = EDGE). -/
def execAnimBreatheEdge (s : State) : Host.Outcome State Fault Refusal := .next (animBreathe .edge s)

/-- ANIM_BREATHE.either (R232, TRIG = TIME_OR_EDGE). -/
def execAnimBreatheEither (s : State) : Host.Outcome State Fault Refusal := .next (animBreathe .either s)

/-- ANIM_RAINBOW (R233, TRIG = TIME). -/
def execAnimRainbow (s : State) : Host.Outcome State Fault Refusal := .next (animRainbow .time s)

/-- ANIM_RAINBOW.edge (R233, TRIG = EDGE). -/
def execAnimRainbowEdge (s : State) : Host.Outcome State Fault Refusal := .next (animRainbow .edge s)

/-- ANIM_RAINBOW.either (R233, TRIG = TIME_OR_EDGE). -/
def execAnimRainbowEither (s : State) : Host.Outcome State Fault Refusal := .next (animRainbow .either s)

/-- ANIM_SWAP (R234, TRIG = TIME). -/
def execAnimSwap (s : State) : Host.Outcome State Fault Refusal := .next (animSwap .time s)

/-- ANIM_SWAP.edge (R234, TRIG = EDGE). -/
def execAnimSwapEdge (s : State) : Host.Outcome State Fault Refusal := .next (animSwap .edge s)

/-- ANIM_SWAP.either (R234, TRIG = TIME_OR_EDGE). -/
def execAnimSwapEither (s : State) : Host.Outcome State Fault Refusal := .next (animSwap .either s)

/-- ANIM_RAIN (R235, TRIG = TIME). -/
def execAnimRain (s : State) : Host.Outcome State Fault Refusal := .next (animRain .time s)

/-- ANIM_RAIN.edge (R235, TRIG = EDGE). -/
def execAnimRainEdge (s : State) : Host.Outcome State Fault Refusal := .next (animRain .edge s)

/-- ANIM_RAIN.either (R235, TRIG = TIME_OR_EDGE). -/
def execAnimRainEither (s : State) : Host.Outcome State Fault Refusal := .next (animRain .either s)

/-- ANIM_WIPE (R236, TRIG = TIME). -/
def execAnimWipe (s : State) : Host.Outcome State Fault Refusal := .next (animWipe .time s)

/-- ANIM_WIPE.edge (R236, TRIG = EDGE). -/
def execAnimWipeEdge (s : State) : Host.Outcome State Fault Refusal := .next (animWipe .edge s)

/-- ANIM_WIPE.either (R236, TRIG = TIME_OR_EDGE). -/
def execAnimWipeEither (s : State) : Host.Outcome State Fault Refusal := .next (animWipe .either s)

end Sys2Proof.Machine
end

