-- ==== Sys2Proof/Machine/Pipeline.lean ====
section
/-! DEFINITION. The pipeline commands (41_pipeline.md R176 to R185). Each meaning starts after the acceptance steps of
30_encoding.md R98 (CMD_LAST <- w, RESULT <- 0), which `acceptCommand` takes for every command word. -/

namespace Sys2Proof.Machine

/-- NOP (R176): nothing beyond the acceptance steps. -/
def execNop (s : State) : Host.Outcome State Fault Refusal := .next s

/-- SCALE (R177): `RESULT <- Word(ApplyBrightness(c, BR))`. -/
def execScale (s : State) : Host.Outcome State Fault Refusal :=
  .next (setResult (colourWord (applyBrightness (opColour s) (opBr s))) s)

/-- RENDER_UNIFORM (R178): one colour for every pixel. -/
def execRenderUniform (s : State) : Host.Outcome State Fault Refusal :=
  .next (showPixels (List.replicate s.cfg.pixels (opColour s)) s)

/-- RENDER_SEGMENTS (R179): E_RANGE, then E_SEGSUM, then the frame. -/
def execRenderSegments (s : State) : Host.Outcome State Fault Refusal :=
  if s.cfg.segCap < s.segCount.toNat then .next (raiseErr .range s)
  else if segLenSum s.mem s.segCount.toNat ≠ s.cfg.pixels then .next (raiseErr .segsum s)
  else .next (showPixels (segPixels (segments s.mem s.segCount.toNat)) s)

/-- RENDER_SPARSE (R180): the sparse buffer over black. -/
def execRenderSparse (s : State) : Host.Outcome State Fault Refusal :=
  .next (showPixels (sparsePixels s.spb s.cfg.pixels) s)

/-- SEG_BUILD_EVEN (R181): E_PALETTE, else N even segments with the palette's colours. -/
def execSegBuildEven (s : State) : Host.Outcome State Fault Refusal :=
  if paletteBad s (opN s) then .next (raiseErr .palette s)
  else .next { s with
    mem := buildSegments (opN s) (opRot s) s.cfg.pixels (opN s) s.mem
    segCount := BitVec.ofNat 16 (opN s) }

/-- SPB_CLEAR (R182): the empty buffer, where R186 starts. -/
def execSpbClear (s : State) : Host.Outcome State Fault Refusal := .next { s with spb := [] }

/-- SPB_PUT (R183): E_RANGE, then E_FULL, else insert (RESULT 1) or update (RESULT 2): the position
is below P and the capacity is checked, so SPB stays as R186 says. -/
def execSpbPut (s : State) : Host.Outcome State Fault Refusal :=
  if s.cfg.pixels ≤ (opPos s).toNat then .next (raiseErr .range s)
  else
    match put s.spb (opPos s) (opColour s) s.cfg.spbCap with
    | (_, .dropped) => .next (raiseErr .full s)
    | (S, .inserted) => .next { s with spb := S, result := 1#32 }
    | (S, .updated) => .next { s with spb := S, result := 2#32 }

/-- SPB_DECAY (R184): positions and order stay (R186). -/
def execSpbDecay (s : State) : Host.Outcome State Fault Refusal := .next { s with spb := decay s.spb }

/-- SPB_PURGE (R185): RESULT is the number of entries removed; the others keep their order (R186). -/
def execSpbPurge (s : State) : Host.Outcome State Fault Refusal :=
  .next { s with spb := purge s.spb, result := BitVec.ofNat 32 (removed s.spb) }

end Sys2Proof.Machine
end

