-- ==== Sys2Proof/Machine/Dispatch.lean ====
section
/-! DEFINITION. The dispatch of a command to its meaning, one arm per constructor (30_encoding.md R93). -/

namespace Sys2Proof.Machine

open Sys2Proof

/-- Execute a command, after the acceptance steps of 30_encoding.md R98. -/
def exec (i : Instr) (s : State) : Host.Outcome State Fault Refusal :=
  match i with
  | .nop => Sys2Proof.Machine.execNop s
  | .scale => Sys2Proof.Machine.execScale s
  | .renderUniform => Sys2Proof.Machine.execRenderUniform s
  | .renderSegments => Sys2Proof.Machine.execRenderSegments s
  | .renderSparse => Sys2Proof.Machine.execRenderSparse s
  | .segBuildEven => Sys2Proof.Machine.execSegBuildEven s
  | .spbClear => Sys2Proof.Machine.execSpbClear s
  | .spbPut => Sys2Proof.Machine.execSpbPut s
  | .spbDecay => Sys2Proof.Machine.execSpbDecay s
  | .spbPurge => Sys2Proof.Machine.execSpbPurge s
  | .animReset => Sys2Proof.Machine.execAnimReset s
  | .animFade => Sys2Proof.Machine.execAnimFade s
  | .animFadeEdge => Sys2Proof.Machine.execAnimFadeEdge s
  | .animFadeEither => Sys2Proof.Machine.execAnimFadeEither s
  | .animBreathe => Sys2Proof.Machine.execAnimBreathe s
  | .animBreatheEdge => Sys2Proof.Machine.execAnimBreatheEdge s
  | .animBreatheEither => Sys2Proof.Machine.execAnimBreatheEither s
  | .animRainbow => Sys2Proof.Machine.execAnimRainbow s
  | .animRainbowEdge => Sys2Proof.Machine.execAnimRainbowEdge s
  | .animRainbowEither => Sys2Proof.Machine.execAnimRainbowEither s
  | .animSwap => Sys2Proof.Machine.execAnimSwap s
  | .animSwapEdge => Sys2Proof.Machine.execAnimSwapEdge s
  | .animSwapEither => Sys2Proof.Machine.execAnimSwapEither s
  | .animRain => Sys2Proof.Machine.execAnimRain s
  | .animRainEdge => Sys2Proof.Machine.execAnimRainEdge s
  | .animRainEither => Sys2Proof.Machine.execAnimRainEither s
  | .animWipe => Sys2Proof.Machine.execAnimWipe s
  | .animWipeEdge => Sys2Proof.Machine.execAnimWipeEdge s
  | .animWipeEither => Sys2Proof.Machine.execAnimWipeEither s

end Sys2Proof.Machine
end

