-- ==== Sys2Proof/Machine/Bus.lean ====
section
/-! DEFINITION. The bus (20_memory.md), the acceptance of commands (30_encoding.md R98) and what each event of the
world does (70_reset_and_hazards.md R348). -/

namespace Sys2Proof.Machine

/-- The byte offset of a register (20_memory.md R64). -/
def regAddr : Reg → Nat
  | .cmd => 0x000
  | .status => 0x004
  | .result => 0x008
  | .active => 0x00C
  | .arg0 => 0x010
  | .arg1 => 0x014
  | .arg2 => 0x018
  | .arg3 => 0x01C
  | .segCount => 0x020
  | .palLen => 0x024
  | .spbCount => 0x028
  | .rainCount => 0x02C
  | .frameCount => 0x030
  | .param0 => 0x034
  | .param1 => 0x038
  | .param2 => 0x03C
  | .fadeColor => 0x100
  | .fadePhase => 0x104
  | .breLevel => 0x108
  | .brePhase => 0x10C
  | .breMark => 0x110
  | .rbwColor => 0x114
  | .rbwPhase => 0x118
  | .rbwMark => 0x11C
  | .swpRot => 0x120
  | .swpMark => 0x124
  | .rainDmark => 0x128
  | .rainSmark => 0x12C
  | .rainGap => 0x130
  | .wipeK => 0x134
  | .wipeBg => 0x138
  | .wipeMark => 0x13C
  | .gatePrev => 0x140

/-- The registers in the order of 20_memory.md R64. -/
def allRegs : List Reg :=
  [.cmd, .status, .result, .active, .arg0, .arg1, .arg2, .arg3, .segCount, .palLen, .spbCount, .rainCount,
   .frameCount, .param0, .param1, .param2, .fadeColor, .fadePhase, .breLevel, .brePhase, .breMark, .rbwColor,
   .rbwPhase, .rbwMark, .swpRot, .swpMark, .rainDmark, .rainSmark, .rainGap, .wipeK, .wipeBg, .wipeMark, .gatePrev]

/-- The register at a byte offset, if any (20_memory.md R64). -/
def regAt (a : Nat) : Option Reg := allRegs.find? fun r => regAddr r == a

/-- The entry of a window of 8-byte entries that an aligned address `a` names: its first word or its second. -/
def pairTarget (first second : Nat → Target) (base a : Nat) : Target :=
  if (a - base) % 8 = 0 then first ((a - base) / 8) else second ((a - base) / 8)

/-- What the window part of the map names (20_memory.md R65); an entry at or beyond the capacity is unmapped. -/
def windowAt (c : Config) (a : Nat) : Target :=
  if 0x1000 ≤ a ∧ a < 0x1000 + 8 * c.segCap then pairTarget .segLen .segColor 0x1000 a
  else if 0x2000 ≤ a ∧ a < 0x2000 + 4 * c.palCap then .pal ((a - 0x2000) / 4)
  else if 0x3000 ≤ a ∧ a < 0x3000 + 8 * c.spbCap then pairTarget .spbPos .spbColor 0x3000 a
  else if 0x8000 ≤ a ∧ a < 0x8000 + 8 * c.rainCap then pairTarget .rainPos .rainColor 0x8000 a
  else .unmapped

/-- What an aligned bus address names (20_memory.md R64 to R67). -/
def targetAt (c : Config) (a : Half) : Target :=
  match regAt a.toNat with
  | some r => .reg r
  | none => windowAt c a.toNat

/-- The bus address of a target (20_memory.md R64, R65): `addr(NAME)` of 30_encoding.md R99. The unmapped target has
many addresses; 0x44 is one. -/
def targetAddr : Target → Nat
  | .reg r => regAddr r
  | .segLen k => 0x1000 + 8 * k
  | .segColor k => 0x1004 + 8 * k
  | .pal k => 0x2000 + 4 * k
  | .spbPos k => 0x3000 + 8 * k
  | .spbColor k => 0x3004 + 8 * k
  | .rainPos k => 0x8000 + 8 * k
  | .rainColor k => 0x8004 + 8 * k
  | .unmapped => 0x44

/-- A position of a sparse window, 0 beyond the entries (20_memory.md R65). -/
def entryPos (S : List Entry) (k : Nat) : Word :=
  match S[k]? with
  | some e => e.pos.setWidth 32
  | none => 0#32

/-- A colour of a sparse window, 0 beyond the entries (20_memory.md R65). -/
def entryColour (S : List Entry) (k : Nat) : Word :=
  match S[k]? with
  | some e => colourWord e.color
  | none => 0#32

/-- The content of a register (20_memory.md R64). -/
def readReg (s : State) : Reg → Word
  | .cmd => s.cmdLast
  | .status => statusWord s
  | .result => s.result
  | .active => activeWord s
  | .arg0 => s.arg0
  | .arg1 => s.arg1
  | .arg2 => s.arg2
  | .arg3 => s.arg3
  | .segCount => s.segCount.setWidth 32
  | .palLen => s.palLen.setWidth 32
  | .spbCount => BitVec.ofNat 32 s.spb.length
  | .rainCount => BitVec.ofNat 32 s.rain.drops.length
  | .frameCount => s.frameCount
  | .param0 => param0 s.cfg
  | .param1 => param1 s.cfg
  | .param2 => param2 s.cfg
  | .fadeColor => colourWord s.fade.color
  | .fadePhase => BitVec.ofNat 32 (huePhaseCode s.fade.phase)
  | .breLevel => s.breathe.level.setWidth 32
  | .brePhase => BitVec.ofNat 32 (brePhaseCode s.breathe.phase)
  | .breMark => s.breathe.mark
  | .rbwColor => colourWord s.rainbow.color
  | .rbwPhase => BitVec.ofNat 32 (huePhaseCode s.rainbow.phase)
  | .rbwMark => s.rainbow.mark
  | .swpRot => s.swap.rot.setWidth 32
  | .swpMark => s.swap.mark
  | .rainDmark => s.rain.dmark
  | .rainSmark => s.rain.smark
  | .rainGap => s.rain.gap.setWidth 32
  | .wipeK => s.wipe.k.setWidth 32
  | .wipeBg => colourWord s.wipe.bg
  | .wipeMark => s.wipe.mark
  | .gatePrev => s.gatePrev.setWidth 32

/-- The content of a target; an unmapped address reads 0 (20_memory.md R64 to R66). -/
def readTarget (s : State) : Target → Word
  | .reg r => readReg s r
  | .segLen k => (segLen s.mem k).setWidth 32
  | .segColor k => segColor s.mem k
  | .pal k => pal s.mem k
  | .spbPos k => entryPos s.spb k
  | .spbColor k => entryColour s.spb k
  | .rainPos k => entryPos s.rain.drops k
  | .rainColor k => entryColour s.rain.drops k
  | .unmapped => 0#32

/-- `MemRead(a, 4)` (20_memory.md R60): the value, with no side effect (R70). -/
def busRead (s : State) (a : Half) : Word := readTarget s (targetAt s.cfg a)

/-- The acceptance steps of 30_encoding.md R98 before the decode: `CMD_LAST <- w ; RESULT <- 0`. -/
def acceptWord (w : Word) (s : State) : State := { s with cmdLast := w, result := 0#32 }

/-- Sampling TICK_I and GATE_I for one command (30_encoding.md R98): a new index for the free values. -/
def sampleInputs (s : State) : State := { s with env := { s.env with samples := s.env.samples + 1 } }

/-- Acceptance and decode of a command word (30_encoding.md R98): an illegal word reports error 2, a legal one is
executed. -/
def acceptCommand (w : Word) (s : State) : Host.Outcome State Fault Refusal :=
  match decode w with
  | .error _ => .next (raiseErr .opcode (acceptWord w s))
  | .ok i => exec i (sampleInputs (acceptWord w s))

/-- A write of a register other than CMD while BUSY = 0 (20_memory.md R64, R70): STATUS clears errors, ARG0 stores a
colour word, the other read-write registers store their fields, a read-only register ignores the write (R66). -/
def writeReg (r : Reg) (v : Word) (s : State) : State :=
  match r with
  | .status => clearErrors v s
  | .arg0 => { s with arg0 := storedColour s.cfg v }
  | .arg1 => { s with arg1 := v }
  | .arg2 => { s with arg2 := v }
  | .arg3 => { s with arg3 := v }
  | .segCount => { s with segCount := v.extractLsb' 0 16 }
  | .palLen => { s with palLen := v.extractLsb' 0 8 }
  | _ => s

/-- A write of a target other than CMD while BUSY = 0 (20_memory.md R65, R66, R70). -/
def writeTarget (t : Target) (v : Word) (s : State) : State :=
  match t with
  | .reg r => writeReg r v s
  | .segLen k => { s with mem := setSegLen k (v.extractLsb' 0 16) s.mem }
  | .segColor k => { s with mem := setSegColor k (storedColour s.cfg v) s.mem }
  | .pal k => { s with mem := setPal k (storedColour s.cfg v) s.mem }
  | _ => s

/-- `MemWrite(a, 4, v)` (20_memory.md R60). While BUSY = 1 every write but one of STATUS is ignored and reports
error 1, before the write is looked at (R71, 60_exceptions.md R302). -/
def busWrite (a : Half) (v : Word) (s : State) : Host.Outcome State Fault Refusal :=
  if busy s.enc ∧ a.toNat ≠ regAddr .status then .next (raiseErr .busy s)
  else if a.toNat = regAddr .cmd then acceptCommand v s
  else .next (writeTarget (targetAt s.cfg a) v s)

/-- One cycle of the encoder clock (40_encoder.md R127). -/
def encoderCycle (s : State) : State := { s with enc := encStep s.cfg s.enc }

/-- A read's value goes to the host and to nothing of the block (20_memory.md R70). -/
def returnData (v : Word) (s : State) : State := { s with env := { s.env with rdata := v } }

/-- The reset input (70_reset_and_hazards.md R340): every piece of the block's state at its reset value; the world
around it goes on (log 13). -/
def hardwareReset (s : State) : State := State.resetIn s.cfg s.env

/-- The world's next events are `es`. -/
def withPending (es : List Event) (s : State) : State := { s with env := { s.env with pending := es } }

/-- What one event does; `s` is the state with the event taken off the list. -/
def hostEvent (e : Event) (s : State) : Host.Outcome State Fault Refusal :=
  match e with
  | .read n a => if accessOk n a then .next (returnData (busRead s a) s) else .refused .accessOutsideInterface
  | .write n a v => if accessOk n a then busWrite a v s else .refused .accessOutsideInterface
  | .cycle => .next (encoderCycle s)
  | .wait =>
    if busy s.enc then .next (encoderCycle (withPending (.wait :: s.env.pending) s))
    else .next (returnData (statusWord s) s)
  | .driveTick v => .next { s with env := { s.env with tick := some v } }
  | .driveGate b => .next { s with env := { s.env with gate := some b } }
  | .giveRand vs => .next { s with env := { s.env with rands := vs } }
  | .reset => .next (hardwareReset s)

/-- The next thing that happens: the first pending event, or, when nothing is pending, a cycle of the encoder clock
(40_encoder.md R127, 70_reset_and_hazards.md R349). A configuration refused at build time has no step
(60_exceptions.md R313). -/
def advance (s : State) : Host.Outcome State Fault Refusal :=
  if s.cfg.wellFormed then
    match s.env.pending with
    | [] => .next (encoderCycle s)
    | e :: rest => hostEvent e (withPending rest s)
  else .refused .configurationRefused

/-- The state in which the very next step accepts the command word `w`: the encoder idle, so that BUSY = 0, and a write
of `w` to CMD first in the world's events (log 17). -/
def placeCommand (w : Word) (s : State) : State :=
  withPending (.write 4 (BitVec.ofNat 16 (regAddr .cmd)) w :: s.env.pending) { s with enc := encIdle }

end Sys2Proof.Machine
end

