-- ==== Sys2Proof/Machine/Step.lean ====
section
/-! DEFINITION. The step of the machine, and how a command is placed to be the next one it runs. -/

namespace Sys2Proof.Machine

/-- One step: the first pending event, or a cycle of the encoder clock (log 3). -/
def step (s : State) : Host.Outcome State Fault Refusal := advance s

/-- `s` with a command word placed so that the very next step accepts and runs it: the encoder is idle and the host's
next event is the write of the word to CMD (log 17). The block fetches no instructions (20_memory.md R75). -/
def State.withFetchWord (s : State) (nbits w : Nat) : State := placeCommand (BitVec.ofNat 32 (w % 2 ^ nbits)) s

end Sys2Proof.Machine
end

