-- ==== Sys2Proof/Machine/Notation.lean ====
section
/-! DEFINITION. The host-program notation of 30_encoding.md R99 and R100: each line as the events it stands for, and
what is observed of a run (70_reset_and_hazards.md R349). -/

namespace Sys2Proof.Machine

/-- `wr NAME, v` (R99). -/
def wr (t : Target) (v : Word) : Event := .write 4 (BitVec.ofNat 16 (targetAddr t)) v

/-- `rd NAME` (R99). -/
def rd (t : Target) : Event := .read 4 (BitVec.ofNat 16 (targetAddr t))

/-- `cmd MNEMONIC` (R99). -/
def cmd (i : Instr) : Event := wr (.reg .cmd) (encode i)

/-- `wr ARGn, a`, or nothing for an argument written `_` (R100). -/
def wrArg (r : Reg) : Option Word → List Event
  | some v => [wr (.reg r) v]
  | none => []

/-- `run MNEMONIC a0, a1, a2, a3` (R100). -/
def runCmd (i : Instr) (a0 a1 a2 a3 : Option Word) : List Event :=
  wrArg .arg0 a0 ++ wrArg .arg1 a1 ++ wrArg .arg2 a2 ++ wrArg .arg3 a3 ++ [cmd i, .wait]

/-- `clr` (R100): clear every sticky error. -/
def clr : Event := wr (.reg .status) 0x00003F00

/-- Is the next step a cycle of the encoder clock? -/
def isCycle (s : State) : Bool :=
  match s.env.pending with
  | [] => true
  | .cycle :: _ => true
  | .wait :: _ => busy s.enc
  | _ => false

/-- Must this event have happened before a run can end? A host access must (a read, a write, a poll), and so must a
reset, which starts a run anew (log 22); an environment setting and an encoder cycle need not
(70_reset_and_hazards.md R349). -/
def holdsRun : Event → Bool
  | .read _ _ => true
  | .write _ _ _ => true
  | .wait => true
  | .reset => true
  | .cycle => false
  | .driveTick _ => false
  | .driveGate _ => false
  | .giveRand _ => false

/-- Is this a point after the run's last host access at which BUSY = 0 (70_reset_and_hazards.md R349)? -/
def ended (s : State) : Bool := !s.env.pending.any holdsRun && !busy s.enc

/-- What is observed of a run (70_reset_and_hazards.md R349): the state at its end and the DOUT waveform, one value per
encoder cycle. -/
structure Observation where
  state : State
  dout : List Bool
  deriving DecidableEq, Repr

/-- What a step adds to the waveform: the DOUT of its encoder cycle, if it is one. -/
def stepWave (s : State) : List Bool := if isCycle s then [dout s.enc] else []

/-- The DOUT waveform of `n` steps that go through, one value per encoder cycle (70_reset_and_hazards.md R349). -/
def waveform : Nat → State → List Bool
  | 0, _ => []
  | n + 1, s =>
    match advance s with
    | .next s' => stepWave s ++ waveform n s'
    | .fault _ => []
    | .refused _ => []

/-- The run from `s` up to its first point at which it has ended (70_reset_and_hazards.md R349): none if `n` steps do not
reach it or a step is refused. More steps than needed make no difference. -/
def observe : Nat → State → Option Observation
  | 0, s => if ended s then some ⟨s, []⟩ else none
  | n + 1, s =>
    if ended s then some ⟨s, []⟩
    else
      match advance s with
      | .next s' => (observe n s').map fun o => ⟨o.state, stepWave s ++ o.dout⟩
      | .fault _ => none
      | .refused _ => none

/-- `o` is what is observed of the run of the host and environment `env` on a block of configuration `c`, from reset to
the end (70_reset_and_hazards.md R349). -/
def Observed (c : Config) (env : Env) (o : Observation) : Prop := ∃ n, observe n (State.resetIn c env) = some o

end Sys2Proof.Machine
end

