-- ==== Sys2Proof/Safety.lean ====
section
/-! DEFINITION. The terms claims are made in: what a consistent state is, what it means that a frame shows a list of
pixels, which argument bits a command reads and which errors it may report. -/

namespace Sys2Proof.Machine

/-- A state of the hue circle (42_animation.md R228, R229): the losing and the gaining channel of the phase sum to 255,
the third channel is 0, and the losing channel has not reached 0. -/
abbrev HueOk (c : RGB) (ph : HuePhase) : Prop :=
  match ph with
  | .redGreen => c.r.toNat + c.g.toNat = 255 ∧ c.b = 0 ∧ c.r ≠ 0
  | .greenBlue => c.g.toNat + c.b.toNat = 255 ∧ c.r = 0 ∧ c.g ≠ 0
  | .blueRed => c.b.toNat + c.r.toNat = 255 ∧ c.g = 0 ∧ c.b ≠ 0

/-- The breathe record (42_animation.md R232): the level is 0 in the hold, below 255 on the way up (a call that reaches
255 turns to DOWN) and above 0 on the way down (a call that reaches 0 turns to HOLD). -/
abbrev BreatheOk (b : Breathe) : Prop :=
  match b.phase with
  | .hold => b.level = 0
  | .up => b.level ≠ 255
  | .down => b.level ≠ 0

/-- The encoder (10_state.md R38): idle exactly as a latch leaves it; otherwise the counter has cycles left, never more
than its state gives it, and in HIGH and LOW the position lies in the frame. -/
abbrev EncOk (c : Config) (e : Encoder) : Prop :=
  match e.est with
  | .idle => e = encIdle
  | .high => e.bi < e.frame.length ∧ 1 ≤ e.cnt ∧ e.cnt ≤ nh c (currentBit e)
  | .low => e.bi < e.frame.length ∧ 1 ≤ e.cnt ∧ e.cnt ≤ nbit c - nh c (currentBit e)
  | .latch => 1 ≤ e.cnt ∧ e.cnt ≤ nreset c

/-- The frame in the encoder is empty or a whole frame of 3P bytes (40_encoder.md R128, R133). -/
abbrev FrameOk (c : Config) (e : Encoder) : Prop := e.frame = [] ∨ e.frame.length = 3 * c.pixels

/-- LAST_ERR is 0 exactly when no error is pending, and is otherwise one of the codes 1 to 6 (10_state.md R26,
60_exceptions.md R300, R306). -/
abbrev ErrorsOk (s : State) : Prop := (s.sticky = 0 ↔ s.lastErr = 0) ∧ s.lastErr.toNat ≤ 6

/-- A byte address of SEG or PAL that holds something (20_memory.md R65): inside a window, and not in the upper half of a
SEG_LEN word. -/
abbrev WindowByte (c : Config) (a : Nat) : Prop :=
  (0x1000 ≤ a ∧ a < 0x1000 + 8 * c.segCap ∧ (a - 0x1000) % 8 ≠ 2 ∧ (a - 0x1000) % 8 ≠ 3) ∨
    (0x2000 ≤ a ∧ a < 0x2000 + 4 * c.palCap)

/-- The memory is in its canonical form and lists nothing outside the read-write windows. -/
abbrev MemOk (c : Config) (m : Memory) : Prop := m.wf ∧ ∀ x ∈ m, WindowByte c x.1

/-- The invariant of the machine: everything the spec says of a state of a run. -/
structure Inv (s : State) : Prop where
  /-- The configuration is one that is built (60_exceptions.md R313). -/
  cfg : s.cfg.Valid
  mem : MemOk s.cfg s.mem
  /-- 41_pipeline.md R171, R186. -/
  spb : SparseOk s.cfg.pixels s.cfg.spbCap s.spb
  /-- 41_pipeline.md R171, 42_animation.md R238. -/
  drops : SparseOk s.cfg.pixels s.cfg.rainCap s.rain.drops
  /-- 42_animation.md R229. -/
  fade : HueOk s.fade.color s.fade.phase
  /-- 42_animation.md R229. -/
  rainbow : HueOk s.rainbow.color s.rainbow.phase
  breathe : BreatheOk s.breathe
  /-- A rotation stays below the bounds of N (42_animation.md R234). -/
  rot : s.swap.rot.toNat < min s.cfg.segCap s.cfg.palCap
  /-- A wipe in progress has not lit the last pixel (42_animation.md R236). -/
  wipe : s.wipe.k.toNat < s.cfg.pixels
  errors : ErrorsOk s
  enc : EncOk s.cfg s.enc
  frame : FrameOk s.cfg s.enc

/-- `F` is the frame that shows `px i` at every pixel `i`, scaled by `br`, in wiring order (41_pipeline.md R167, R168):
3P bytes, byte 3i + j the channel that position `j` of the wiring order sends. -/
def Shows (c : Config) (br : Byte) (px : Nat → RGB) (F : List Byte) : Prop :=
  F.length = 3 * c.pixels ∧
    ∀ i < c.pixels, ∀ j : Fin 3, ∃ ch : Fin 3,
      (perm c.wiring)[j.val]? = some ch ∧ F[3 * i + j.val]? = some (scale (channel (px i) ch) br)

/-- `t` is `s` with the frame of the pixels `px` handed to the encoder (40_encoder.md R128), brightness BR. -/
def Emits (s t : State) (px : Nat → RGB) : Prop :=
  ∃ F, Shows s.cfg (opBr s) px F ∧
    t = { s with enc := ⟨.high, nh s.cfg ((F.getD 0 0).getLsbD 7), F, 0, 7⟩, frameCount := s.frameCount + 1 }

/-- The argument bits a command reads (30_encoding.md R95): ARG0, ARG1, ARG2, ARG3. -/
def argMasks : Instr → Word × Word × Word × Word
  | .nop => (0, 0, 0, 0)
  | .scale => (0x00FFFFFF, 0xFF, 0, 0)
  | .renderUniform => (0x00FFFFFF, 0xFF, 0, 0)
  | .renderSegments => (0, 0xFF, 0, 0)
  | .renderSparse => (0, 0xFF, 0, 0)
  | .segBuildEven => (0, 0, 0xFFFF, 0)
  | .spbClear => (0, 0, 0, 0)
  | .spbPut => (0x00FFFFFF, 0, 0xFFFF, 0)
  | .spbDecay => (0, 0, 0, 0)
  | .spbPurge => (0, 0, 0, 0)
  | .animReset => (0, 0, 0, 0)
  | .animFade | .animFadeEdge | .animFadeEither => (0, 0xFFFF, 0, 0)
  | .animBreathe | .animBreatheEdge | .animBreatheEither => (0x00FFFFFF, 0xFFFF, 0, 0)
  | .animRainbow | .animRainbowEdge | .animRainbowEither => (0, 0xFFFFFF, 0xFFFF, 0)
  | .animSwap | .animSwapEdge | .animSwapEither => (0, 0x1FFFF, 0xFF, 0xFFFF)
  | .animRain | .animRainEdge | .animRainEither => (0x00FFFFFF, 0xFFFF, 0xFFFFFFFF, 0xFFFF)
  | .animWipe | .animWipeEdge | .animWipeEither => (0x00FFFFFF, 0xFF, 0xFFFF, 0)

/-- The errors a command may report once it is decoded (60_exceptions.md R300). -/
def mayRaise : Instr → List ErrCode
  | .renderSegments => [.range, .segsum]
  | .segBuildEven => [.palette]
  | .spbPut => [.range, .full]
  | .animSwap | .animSwapEdge | .animSwapEither => [.palette]
  | .nop | .scale | .renderUniform | .renderSparse | .spbClear | .spbDecay | .spbPurge | .animReset => []
  | .animFade | .animFadeEdge | .animFadeEither | .animBreathe | .animBreatheEdge | .animBreatheEither => []
  | .animRainbow | .animRainbowEdge | .animRainbowEither | .animRain | .animRainEdge | .animRainEither => []
  | .animWipe | .animWipeEdge | .animWipeEither => []

/-- The rows of spec/opcode_table.json: each "match" word and the command it selects (30_encoding.md R93). -/
def opcodeRows : List (Nat × Instr) :=
  [(0x000, .nop), (0x001, .scale), (0x002, .renderUniform), (0x003, .renderSegments), (0x004, .renderSparse),
   (0x005, .segBuildEven), (0x006, .spbClear), (0x007, .spbPut), (0x008, .spbDecay), (0x009, .spbPurge),
   (0x00F, .animReset), (0x010, .animFade), (0x110, .animFadeEdge), (0x210, .animFadeEither),
   (0x011, .animBreathe), (0x111, .animBreatheEdge), (0x211, .animBreatheEither),
   (0x012, .animRainbow), (0x112, .animRainbowEdge), (0x212, .animRainbowEither),
   (0x013, .animSwap), (0x113, .animSwapEdge), (0x213, .animSwapEither),
   (0x014, .animRain), (0x114, .animRainEdge), (0x214, .animRainEither),
   (0x015, .animWipe), (0x115, .animWipeEdge), (0x215, .animWipeEither)]

/-- The targets that exist in a configuration: every register, and the entries below the capacities (20_memory.md R64,
R65). -/
def Mapped (c : Config) : Target → Prop
  | .reg _ => True
  | .segLen k => k < c.segCap
  | .segColor k => k < c.segCap
  | .pal k => k < c.palCap
  | .spbPos k => k < c.spbCap
  | .spbColor k => k < c.spbCap
  | .rainPos k => k < c.rainCap
  | .rainColor k => k < c.rainCap
  | .unmapped => False

/-- The targets a write can change (the RW and W1C rows of 20_memory.md R64, R65). -/
def writable : Target → Bool
  | .reg .cmd | .reg .status | .reg .arg0 | .reg .arg1 | .reg .arg2 | .reg .arg3 | .reg .segCount | .reg .palLen => true
  | .segLen _ | .segColor _ | .pal _ => true
  | .reg _ | .spbPos _ | .spbColor _ | .rainPos _ | .rainColor _ | .unmapped => false

/-- What every register reads after reset (70_reset_and_hazards.md R340): the configuration in PARAM0..2, STATUS =
0x00000003, FADE_COLOR and RBW_COLOR rgb(255,0,0), and 0 elsewhere. -/
def resetWord (c : Config) : Reg → Word
  | .status => 0x00000003
  | .fadeColor => 0x00FF0000
  | .rbwColor => 0x00FF0000
  | .param0 => param0 c
  | .param1 => param1 c
  | .param2 => param2 c
  | _ => 0

/-- The `n`-th draw of `Rand()` from `s` on, from 0: an answer given, or a free value (10_state.md R22). -/
def randAt (s : State) (n : Nat) : Word := s.env.rands[n]?.getD (Config.freeRand (s.env.draws + n))

/-- The environment after `n` draws of `Rand()`. -/
def afterDraws (s : State) (n : Nat) : Env :=
  { s.env with rands := s.env.rands.drop n, draws := s.env.draws + n }

/-- Does a command with key (a, t) continue the active pattern (42_animation.md R221)? -/
abbrev continues (a : Anim) (t : Trig) (s : State) : Bool := s.active == some ⟨a, t⟩

/-- `edge` of a command with key (a, t) (42_animation.md R222, R225): the previous sample counts as 0 on activation. -/
abbrev risingEdge (a : Anim) (t : Trig) (s : State) : Bool :=
  !(continues a t s && s.gatePrev.getLsbD (animIndex a)) && s.gate

/-- Does ANIM_SWAP with trigger mode `t`, its pattern active, have its event in `s` (42_animation.md R225, R234)? -/
abbrev swapEvent (t : Trig) (s : State) : Bool :=
  triggered t (expired s s.swap.mark (opSwapInterval s)) (risingEdge .swap t s)

/-- Does ANIM_WIPE with trigger mode `t`, its pattern active, have its event in `s` (42_animation.md R225, R236)? -/
abbrev wipeEvent (t : Trig) (s : State) : Bool :=
  triggered t (expired s s.wipe.mark (opInterval s)) (risingEdge .wipe t s)

/-- `g` is GATE_PREV with the bit of `a` set to this command's sample (42_animation.md R225). -/
def GateNoted (a : Anim) (s : State) (g : BitVec 6) : Prop :=
  ∀ i < 6, g.getLsbD i = if i = animIndex a then s.gate else s.gatePrev.getLsbD i

/-- `s` with everything a command of animation `a` neither reads nor writes taken from `o` (42_animation.md R220): the
records of the other animations and their gate samples, CMD_LAST, SEG_COUNT, SPB, and, but for swap, which reads the
palette, the memory and PAL_LEN. -/
def othersFrom (a : Anim) (o s : State) : State :=
  { s with
    fade := if a = .fade then s.fade else o.fade
    breathe := if a = .breathe then s.breathe else o.breathe
    rainbow := if a = .rainbow then s.rainbow else o.rainbow
    swap := if a = .swap then s.swap else o.swap
    rain := if a = .rain then s.rain else o.rain
    wipe := if a = .wipe then s.wipe else o.wipe
    gatePrev := setGateBit o.gatePrev (animIndex a) (s.gatePrev.getLsbD (animIndex a))
    cmdLast := o.cmdLast
    segCount := o.segCount
    spb := o.spb
    mem := if a = .swap then s.mem else o.mem
    palLen := if a = .swap then s.palLen else o.palLen }

/-- `s` with the record of animation `a` and its gate sample taken from `o` (10_state.md R37). -/
def recordFrom (a : Anim) (o s : State) : State :=
  { s with
    fade := if a = .fade then o.fade else s.fade
    breathe := if a = .breathe then o.breathe else s.breathe
    rainbow := if a = .rainbow then o.rainbow else s.rainbow
    swap := if a = .swap then o.swap else s.swap
    rain := if a = .rain then o.rain else s.rain
    wipe := if a = .wipe then o.wipe else s.wipe
    gatePrev := setGateBit s.gatePrev (animIndex a) (o.gatePrev.getLsbD (animIndex a)) }

/-- `n` hue steps of size `s` (42_animation.md R228). -/
def hueSteps : Nat → RGB × HuePhase → Byte → RGB × HuePhase
  | 0, h, _ => h
  | n + 1, h, s => hueSteps n (hueStep h.1 h.2 s) s

/-- How many channels of a colour are 0 (42_animation.md R229). -/
def zeroChannels (c : RGB) : Nat := (if c.r = 0 then 1 else 0) + (if c.g = 0 then 1 else 0) + (if c.b = 0 then 1 else 0)

/-- `s` with other argument registers. -/
def withArgs (a0 a1 a2 a3 : Word) (s : State) : State := { s with arg0 := a0, arg1 := a1, arg2 := a2, arg3 := a3 }

end Sys2Proof.Machine
end

