-- ==== Sys2Proof/Certificates/Slice0/Obligations.lean ====
section
/-! DEFINITION. The statements for the provers, in the order of the spec's files. Each docstring names the rule it
formalises. -/

open Sys2Proof Sys2Proof.Machine

/-! ## Encoding (30_encoding.md) -/

/-- R93: a word decodes exactly when it is a row of the opcode table, and to that row's command. -/
def Obligations.OpcodeTableRowsDecode : Prop :=
  ∀ (w : Word) (i : Instr), decode w = .ok i ↔ (w.toNat, i) ∈ opcodeRows

/-- Decode and encode agree, both ways: every command's word decodes to it, and a word that decodes to a command is that
command's word. -/
def Obligations.DecodeAndEncodeAgree : Prop :=
  ∀ (w : Word) (i : Instr), decode w = .ok i ↔ encode i = w

/-- Words written out from 30_encoding.md R90 and R93 (TRIG in bits 9:8, OPC in bits 7:0) decode to what they stand
for, one of each family, and words of 95_test_vectors.md V6 are rejected. -/
def Obligations.WrittenOutWordsDecode : Prop :=
  decode 0b00000000000000000000000000000000 = .ok .nop ∧
  decode 0b00000000000000000000000000000101 = .ok .segBuildEven ∧
  decode 0b00000000000000000000000000001111 = .ok .animReset ∧
  decode 0b00000000000000000000000100010000 = .ok .animFadeEdge ∧
  decode 0b00000000000000000000001000010101 = .ok .animWipeEither ∧
  decode 0b00000000000000000000001100010000 = .error .illegalTrig ∧
  decode 0b00000000000000000000010000010000 = .error .reservedBits ∧
  decode 0b00000000000000000000000100000001 = .error .trigOnPipeline ∧
  decode 0b00000000000000000000000000010110 = .error .unknownOpcode

/-- R94: which words are illegal, and that an illegal word accepted at CMD reports error 2 and does nothing else but the
acceptance steps CMD_LAST <- w, RESULT <- 0. -/
def Obligations.IllegalWordsReportOpcodeError : Prop :=
  ∀ w : Word,
    ((∃ e, decode w = .error e) ↔
      (w.extractLsb' 10 22 ≠ 0 ∨ w.extractLsb' 8 2 = 3 ∨
        (0x0A ≤ (w.extractLsb' 0 8).toNat ∧ (w.extractLsb' 0 8).toNat ≤ 0x0E) ∨ 0x16 ≤ (w.extractLsb' 0 8).toNat ∨
        (w.extractLsb' 8 2 ≠ 0 ∧ (w.extractLsb' 0 8).toNat < 0x10))) ∧
    ((∃ e, decode w = .error e) → ∀ s : State, busy s.enc = false →
      busWrite 0 w s = .next { s with
        cmdLast := w, result := 0, sticky := s.sticky ||| 0b000010, lastErr := 2 })

/-- R95, R96, R224: every operand is its bit field, read as an unsigned number; steps and intervals are coerced to at
least 1. -/
def Obligations.OperandsAreTheirBitFields : Prop :=
  ∀ s : State,
    (opColour s).r.toNat = s.arg0.toNat / 2 ^ 16 % 2 ^ 8 ∧
    (opColour s).g.toNat = s.arg0.toNat / 2 ^ 8 % 2 ^ 8 ∧
    (opColour s).b.toNat = s.arg0.toNat % 2 ^ 8 ∧
    (opBr s).toNat = s.arg1.toNat % 2 ^ 8 ∧
    (opStep s).toNat = max (s.arg1.toNat / 2 ^ 8 % 2 ^ 8) 1 ∧
    (opPixStep s).toNat = max (s.arg1.toNat / 2 ^ 8 % 2 ^ 8) 1 ∧
    (opRotStep s).toNat = max (s.arg1.toNat / 2 ^ 16 % 2 ^ 8) 1 ∧
    opMaxd s = s.arg1.toNat / 2 ^ 8 % 2 ^ 8 ∧
    opN s = s.arg2.toNat % 2 ^ 8 ∧
    opRot s = s.arg2.toNat / 2 ^ 8 % 2 ^ 8 ∧
    (opPos s).toNat = s.arg2.toNat % 2 ^ 16 ∧
    opInterval s = max (s.arg2.toNat % 2 ^ 16) 1 ∧
    opSpawnMin s = max (s.arg2.toNat % 2 ^ 16) 1 ∧
    opSpawnMax s = max (s.arg2.toNat / 2 ^ 16) 1 ∧
    opDecayMs s = max (s.arg3.toNat % 2 ^ 16) 1 ∧
    opSwapInterval s =
      (if s.arg1.toNat / 2 ^ 16 % 2 = 1 then max (1020 - 4 * (s.arg1.toNat / 2 ^ 8 % 2 ^ 8)) 1
       else max (s.arg3.toNat % 2 ^ 16) 1)

/-- R97: bits of an argument register outside the fields a command reads make no difference, and no command writes an
argument register. -/
def Obligations.UnreadArgumentBitsAreIgnored : Prop :=
  ∀ (i : Instr) (s : State) (a0 a1 a2 a3 : Word),
    a0 &&& (argMasks i).1 = s.arg0 &&& (argMasks i).1 →
    a1 &&& (argMasks i).2.1 = s.arg1 &&& (argMasks i).2.1 →
    a2 &&& (argMasks i).2.2.1 = s.arg2 &&& (argMasks i).2.2.1 →
    a3 &&& (argMasks i).2.2.2 = s.arg3 &&& (argMasks i).2.2.2 →
    ∃ t, exec i s = .next t ∧ exec i (withArgs a0 a1 a2 a3 s) = .next (withArgs a0 a1 a2 a3 t) ∧
      t = withArgs s.arg0 s.arg1 s.arg2 s.arg3 t

/-- R98: a write of CMD while BUSY = 0 is accepted: CMD_LAST <- w, RESULT <- 0, then a legal word's command is executed
(with a fresh sample of the inputs) and an illegal word raises error 2. The step runs the decoded command. -/
def Obligations.StepRunsTheAcceptedCommand : Prop :=
  ∀ (s : State) (w : Word) (rest : List Event),
    s.cfg.Valid → s.env.pending = .write 4 0x000 w :: rest → s.enc.est = .idle →
    (∀ i, decode w = .ok i →
      step s = exec i { s with
        env := { s.env with pending := rest, samples := s.env.samples + 1 }, cmdLast := w, result := 0 }) ∧
    ((∀ i, decode w ≠ .ok i) →
      step s = .next { s with
        env := { s.env with pending := rest }, cmdLast := w, result := 0,
        sticky := s.sticky ||| 0b000010, lastErr := 2 })

/-! ## The bus (20_memory.md, 10_state.md) -/

/-- R64, R65: the address map. Every register and every entry below its capacity is at its address, and an aligned
address that names one is the address of that one alone. -/
def Obligations.AddressMapIsOneToOne : Prop :=
  ∀ c : Config, c.Valid →
    (∀ t, Mapped c t → targetAddr t < 2 ^ 16 ∧ targetAddr t % 4 = 0 ∧ targetAt c (BitVec.ofNat 16 (targetAddr t)) = t) ∧
    (∀ a : Half, a.toNat % 4 = 0 → targetAt c a ≠ .unmapped →
      Mapped c (targetAt c a) ∧ targetAddr (targetAt c a) = a.toNat)

/-- R63, R314: a refused configuration has no step; an access of another width or off a multiple of 4 is refused; every
other event, and every step with no event pending, has a next state. -/
def Obligations.OnlyAccessesOutsideTheInterfaceAreRefused : Prop :=
  ∀ s : State,
    (¬ s.cfg.Valid → step s = .refused .configurationRefused) ∧
    (s.cfg.Valid → ∀ (n : Nat) (a : Half) (v : Word) (rest : List Event), (n ≠ 4 ∨ a.toNat % 4 ≠ 0) →
      (s.env.pending = .read n a :: rest ∨ s.env.pending = .write n a v :: rest) →
      step s = .refused .accessOutsideInterface) ∧
    (s.cfg.Valid → (∀ e rest, s.env.pending = e :: rest → e.wellFormed = true) → ∃ t, step s = .next t)

/-- R66: an aligned address that nothing is mapped to reads 0; a write to it, or to a read-only place, is ignored with no
error while BUSY = 0; the read-only upper halves of SEG_COUNT, PAL_LEN and SEG_LEN read 0 and ignore what is written. -/
def Obligations.UnmappedAndReadOnlyPlaces : Prop :=
  ∀ (s : State) (a : Half) (v : Word), a.toNat % 4 = 0 →
    (targetAt s.cfg a = .unmapped → busRead s a = 0) ∧
    (busy s.enc = false → writable (targetAt s.cfg a) = false → busWrite a v s = .next s) ∧
    (busy s.enc = false → s.mem.wf → ∃ t, busWrite 0x020 v s = .next t ∧ busRead t 0x020 = v &&& 0x0000FFFF) ∧
    (busy s.enc = false → s.mem.wf → ∃ t, busWrite 0x024 v s = .next t ∧ busRead t 0x024 = v &&& 0x000000FF) ∧
    (busy s.enc = false → s.mem.wf → ∀ k, targetAt s.cfg a = .segLen k →
      ∃ t, busWrite a v s = .next t ∧ busRead t a = v &&& 0x0000FFFF)

/-- R71: while BUSY = 1 every write but one of STATUS is ignored and reports error 1, a write of STATUS is served as when
idle, and a read is served. -/
def Obligations.WritesWhileBusyAreIgnored : Prop :=
  ∀ (s : State) (a : Half) (v : Word), busy s.enc = true →
    (a ≠ 0x004 → busWrite a v s = .next { s with sticky := s.sticky ||| 0b000001, lastErr := 1 }) ∧
    (busWrite 0x004 v s = .next { s with
      sticky := s.sticky &&& ~~~(v.extractLsb' 8 6)
      lastErr := if s.sticky &&& ~~~(v.extractLsb' 8 6) = 0 then 0 else s.lastErr }) ∧
    (∀ rest, s.cfg.Valid → a.toNat % 4 = 0 → s.env.pending = .read 4 a :: rest →
      step s = .next { s with env := { s.env with pending := rest, rdata := busRead s a } })

/-- R70 ("No read has a side effect"): a read changes nothing of the block, whatever the address and the state; the
host gets the value. R64: what every register reads, address by address; STATUS (0x004) is
`StatusFieldsAndWriteOneToClear`, PARAM0 to PARAM2 (0x034, 0x038, 0x03C) `ConfigurationNeverChanges`. -/
def Obligations.ReadsHaveNoSideEffect : Prop :=
  (∀ (s : State) (a : Half) (rest : List Event),
    s.cfg.Valid → a.toNat % 4 = 0 → s.env.pending = .read 4 a :: rest →
    ∃ t, step s = .next t ∧ t.env.rdata = busRead s a ∧ t = { s with env := t.env } ∧
      ∀ b, busRead t b = busRead s b) ∧
  ∀ s : State,
    (busRead s 0x000 = s.cmdLast ∧ busRead s 0x008 = s.result ∧
      busRead s 0x00C = (match s.active with
        | none => 0
        | some k => 0x80000000 ||| (trigCode k.trig).setWidth 32 <<< 8 ||| (animCode k.anim).setWidth 32)) ∧
    (busRead s 0x010 = s.arg0 ∧ busRead s 0x014 = s.arg1 ∧ busRead s 0x018 = s.arg2 ∧ busRead s 0x01C = s.arg3) ∧
    (busRead s 0x020 = s.segCount.setWidth 32 ∧ busRead s 0x024 = s.palLen.setWidth 32 ∧
      busRead s 0x028 = BitVec.ofNat 32 s.spb.length ∧ busRead s 0x02C = BitVec.ofNat 32 s.rain.drops.length ∧
      busRead s 0x030 = s.frameCount) ∧
    (busRead s 0x100 = 0#8 ++ s.fade.color.r ++ s.fade.color.g ++ s.fade.color.b ∧
      busRead s 0x104 = (match s.fade.phase with | .redGreen => 0 | .greenBlue => 1 | .blueRed => 2)) ∧
    (busRead s 0x108 = s.breathe.level.setWidth 32 ∧
      busRead s 0x10C = (match s.breathe.phase with | .hold => 0 | .up => 1 | .down => 2) ∧
      busRead s 0x110 = s.breathe.mark) ∧
    (busRead s 0x114 = 0#8 ++ s.rainbow.color.r ++ s.rainbow.color.g ++ s.rainbow.color.b ∧
      busRead s 0x118 = (match s.rainbow.phase with | .redGreen => 0 | .greenBlue => 1 | .blueRed => 2) ∧
      busRead s 0x11C = s.rainbow.mark) ∧
    (busRead s 0x120 = s.swap.rot.setWidth 32 ∧ busRead s 0x124 = s.swap.mark) ∧
    (busRead s 0x128 = s.rain.dmark ∧ busRead s 0x12C = s.rain.smark ∧ busRead s 0x130 = s.rain.gap.setWidth 32) ∧
    (busRead s 0x134 = s.wipe.k.setWidth 32 ∧
      busRead s 0x138 = 0#8 ++ s.wipe.bg.r ++ s.wipe.bg.g ++ s.wipe.bg.b ∧ busRead s 0x13C = s.wipe.mark) ∧
    busRead s 0x140 = s.gatePrev.setWidth 32

/-- R26: the fields of STATUS, its reset value, and that a write clears exactly the sticky bits written as 1, clears
LAST_ERR when none is left, cannot write bits 2:0 and changes nothing else of the machine. -/
def Obligations.StatusFieldsAndWriteOneToClear : Prop :=
  (∀ s : State,
    (busRead s 0x004).getLsbD 0 = (s.enc.est != .idle) ∧
    (busRead s 0x004).getLsbD 1 = (s.enc.est == .latch) ∧
    (busRead s 0x004).getLsbD 2 = (s.enc.est == .high || s.enc.est == .low) ∧
    (busRead s 0x004).extractLsb' 3 5 = 0 ∧
    (busRead s 0x004).extractLsb' 8 6 = s.sticky ∧
    (busRead s 0x004).extractLsb' 14 2 = 0 ∧
    (busRead s 0x004).extractLsb' 16 8 = s.lastErr ∧
    (busRead s 0x004).extractLsb' 24 8 = 0) ∧
  (∀ (s : State) (v : Word), ∃ t, busWrite 0x004 v s = .next t ∧
    t = { s with sticky := t.sticky, lastErr := t.lastErr } ∧
    (∀ i < 3, (busRead t 0x004).getLsbD i = (busRead s 0x004).getLsbD i) ∧
    (∀ i, 8 ≤ i → i < 14 → (busRead t 0x004).getLsbD i = ((busRead s 0x004).getLsbD i && !v.getLsbD i)) ∧
    (busRead t 0x004).extractLsb' 16 8 =
      (if (busRead t 0x004).extractLsb' 8 6 = 0 then 0 else (busRead s 0x004).extractLsb' 16 8)) ∧
  (∀ (c : Config) (e : Env), busRead (State.resetIn c e) 0x004 = 0x00000003)

/-- R161: a write of ARG0, SEG_COLOR[k] or PAL[k] stores the word itself, or, with RGBA_INPUT, the colour premultiplied by
its alpha with bits 31:24 zero; a read returns the stored word. -/
def Obligations.ColourWordsAreStored : Prop :=
  ∀ (s : State) (t : Target) (v : Word), s.cfg.Valid → s.mem.wf → busy s.enc = false → Mapped s.cfg t →
    (t = .reg .arg0 ∨ (∃ k, t = .segColor k) ∨ ∃ k, t = .pal k) →
    ∃ u, busWrite (BitVec.ofNat 16 (targetAddr t)) v s = .next u ∧
      (busRead u (BitVec.ofNat 16 (targetAddr t))).toNat =
        if s.cfg.rgbaInput then
          2 ^ 16 * ((v.toNat / 2 ^ 16 % 2 ^ 8 * (v.toNat / 2 ^ 24) + 127) / 255)
            + 2 ^ 8 * ((v.toNat / 2 ^ 8 % 2 ^ 8 * (v.toNat / 2 ^ 24) + 127) / 255)
            + (v.toNat % 2 ^ 8 * (v.toNat / 2 ^ 24) + 127) / 255
        else v.toNat

/-- R23: the argument registers hold what is written (ARG0 the premultiplied colour word with RGBA_INPUT), read it back, are
written by no command, and are 0 after reset. -/
def Obligations.ArgumentRegistersHoldWhatIsWritten : Prop :=
  (∀ (s : State) (v : Word), busy s.enc = false →
    busWrite 0x010 v s = .next { s with
      arg0 := if s.cfg.rgbaInput then colourWord (applyBrightness (col v) (v.extractLsb' 24 8)) else v } ∧
    busWrite 0x014 v s = .next { s with arg1 := v } ∧
    busWrite 0x018 v s = .next { s with arg2 := v } ∧
    busWrite 0x01C v s = .next { s with arg3 := v }) ∧
  (∀ s : State, busRead s 0x010 = s.arg0 ∧ busRead s 0x014 = s.arg1 ∧ busRead s 0x018 = s.arg2 ∧
    busRead s 0x01C = s.arg3) ∧
  (∀ (i : Instr) (s t : State), exec i s = .next t →
    t.arg0 = s.arg0 ∧ t.arg1 = s.arg1 ∧ t.arg2 = s.arg2 ∧ t.arg3 = s.arg3) ∧
  ∀ (c : Config) (e : Env), (State.resetIn c e).arg0 = 0 ∧ (State.resetIn c e).arg1 = 0 ∧ (State.resetIn c e).arg2 = 0 ∧
    (State.resetIn c e).arg3 = 0

/-- R65, R31: the read-only windows show the entries of the sparse buffers in order, 0 beyond the last one, and SPB_COUNT
and RAIN_COUNT their numbers of entries. -/
def Obligations.WindowsShowTheSparseBuffers : Prop :=
  ∀ s : State, s.cfg.Valid → SparseOk s.cfg.pixels s.cfg.spbCap s.spb →
    SparseOk s.cfg.pixels s.cfg.rainCap s.rain.drops →
    (busRead s 0x028).toNat = s.spb.length ∧ (busRead s 0x02C).toNat = s.rain.drops.length ∧
    (∀ k < s.cfg.spbCap,
      (∀ e, s.spb[k]? = some e → (busRead s (BitVec.ofNat 16 (0x3000 + 8 * k))).toNat = e.pos.toNat ∧
        (busRead s (BitVec.ofNat 16 (0x3004 + 8 * k))).toNat =
          2 ^ 16 * e.color.r.toNat + 2 ^ 8 * e.color.g.toNat + e.color.b.toNat) ∧
      (s.spb.length ≤ k → busRead s (BitVec.ofNat 16 (0x3000 + 8 * k)) = 0 ∧
        busRead s (BitVec.ofNat 16 (0x3004 + 8 * k)) = 0)) ∧
    ∀ k < s.cfg.rainCap,
      (∀ e, s.rain.drops[k]? = some e → (busRead s (BitVec.ofNat 16 (0x8000 + 8 * k))).toNat = e.pos.toNat ∧
        (busRead s (BitVec.ofNat 16 (0x8004 + 8 * k))).toNat =
          2 ^ 16 * e.color.r.toNat + 2 ^ 8 * e.color.g.toNat + e.color.b.toNat) ∧
      (s.rain.drops.length ≤ k → busRead s (BitVec.ofNat 16 (0x8000 + 8 * k)) = 0 ∧
        busRead s (BitVec.ofNat 16 (0x8004 + 8 * k)) = 0)

/-- R65, R69: a write to one place leaves every other place reading as before: all registers and all windows, for every
aligned address other than CMD (which runs a command) and STATUS. -/
def Obligations.WritesAreLocal : Prop :=
  ∀ (s : State) (a : Half) (v : Word), Inv s → busy s.enc = false → a.toNat % 4 = 0 → a ≠ 0x000 → a ≠ 0x004 →
    ∃ t, busWrite a v s = .next t ∧ ∀ b : Half, b.toNat % 4 = 0 → b ≠ a → busRead t b = busRead s b

/-- R21, R33: no step changes the configuration, so PARAM0, PARAM1 and PARAM2 never change; they hold P, WIRING,
RGBA_INPUT and the capacities. -/
def Obligations.ConfigurationNeverChanges : Prop :=
  (∀ s t : State, step s = .next t →
    t.cfg = s.cfg ∧ ∀ a ∈ [0x034, 0x038, 0x03C], busRead t (BitVec.ofNat 16 a) = busRead s (BitVec.ofNat 16 a)) ∧
  ∀ s : State, s.cfg.Valid →
    (busRead s 0x034).toNat = s.cfg.pixels + 2 ^ 16 * s.cfg.wiring + 2 ^ 19 * s.cfg.rgbaInput.toNat ∧
    (busRead s 0x038).toNat = s.cfg.segCap + 2 ^ 8 * s.cfg.palCap + 2 ^ 16 * s.cfg.rainCap ∧
    (busRead s 0x03C).toNat = s.cfg.spbCap

/-! ## The encoder (40_encoder.md) -/

/-- R137, R138, R313: the cycle counts are those of the targets, rounded up, and a configuration is built exactly when every check
holds. -/
def Obligations.BuildTimeChecks : Prop :=
  (∀ (c : Config) (t : Nat), t * c.fClkHz ≤ ncyc c t * 10 ^ 9 ∧ ncyc c t * 10 ^ 9 < t * c.fClkHz + 10 ^ 9) ∧
  (∀ c : Config, n0h c = ncyc c c.t0hNs ∧ n1h c = ncyc c c.t1hNs ∧ nbit c = ncyc c c.tbitNs ∧
    nreset c = ncyc c c.tresetNs) ∧
  ∀ c : Config, c.Valid ↔
    (1 ≤ n0h c ∧ n0h c * 10 ^ 9 ≤ c.t0hMaxNs * c.fClkHz ∧ n0h c < n1h c ∧ n1h c < nbit c ∧ 1 ≤ nreset c) ∧
    c.wiring ≤ 5 ∧
    (∃ i < 8, c.portHi.getLsbD i = true ∧ ∀ j < 8, c.portHi.getLsbD j ≠ c.portLo.getLsbD j ↔ j = i) ∧
    (1 ≤ c.pixels ∧ c.pixels ≤ 65535) ∧ (1 ≤ c.segCap ∧ c.segCap ≤ 255) ∧ (1 ≤ c.palCap ∧ c.palCap ≤ 255) ∧
    (1 ≤ c.spbCap ∧ c.spbCap ≤ 2560) ∧ (1 ≤ c.rainCap ∧ c.rainCap ≤ 255)

/-- R128, R32: what `Emit(F)` does: the encoder enters HIGH for bit 7 of byte 0, FRAME_COUNT counts modulo 2^32, nothing
else changes. R39: the outputs. R129, R130, R131, R133: one encoder step in each of its states, for every encoder that is consistent
(10_state.md R38: the counter has cycles left and the position lies in the frame), as every run's is. -/
def Obligations.EncoderStepsAsTheTablesSay : Prop :=
  (∀ (F : List Byte) (s : State), F ≠ [] →
    ∃ t, emit F s = t ∧
      t.enc = ⟨.high, if (F.getD 0 0).getLsbD 7 then n1h s.cfg else n0h s.cfg, F, 0, 7⟩ ∧
      t.frameCount.toNat = (s.frameCount.toNat + 1) % 2 ^ 32 ∧
      t = { s with enc := t.enc, frameCount := t.frameCount }) ∧
  (∀ (c : Config) (e : Encoder), portOut c e = (if e.est = .high then c.portHi else c.portLo) ∧
    irqMask e = (e.est == .high || e.est == .low) ∧ busy e = (e.est != .idle)) ∧
  ∀ (c : Config) (e : Encoder), EncOk c e →
    (e.est = .idle → dout e = false ∧ encStep c e = e) ∧
    (e.est = .high → dout e = true ∧
      encStep c e =
        if e.cnt - 1 = 0 then
          ⟨.low, nbit c - nh c ((e.frame.getD e.bi 0).getLsbD e.bt), e.frame, e.bi, e.bt⟩
        else ⟨.high, e.cnt - 1, e.frame, e.bi, e.bt⟩) ∧
    (e.est = .low → dout e = false ∧
      encStep c e =
        if e.cnt - 1 = 0 then
          if h : 0 < e.bt.val then
            ⟨.high, nh c ((e.frame.getD e.bi 0).getLsbD (e.bt.val - 1)), e.frame, e.bi, ⟨e.bt.val - 1, by omega⟩⟩
          else if e.bi + 1 < e.frame.length then
            ⟨.high, nh c ((e.frame.getD (e.bi + 1) 0).getLsbD 7), e.frame, e.bi + 1, 7⟩
          else ⟨.latch, nreset c, e.frame, e.bi, e.bt⟩
        else ⟨.low, e.cnt - 1, e.frame, e.bi, e.bt⟩) ∧
    (e.est = .latch → dout e = false ∧
      encStep c e = if e.cnt - 1 = 0 then ⟨.idle, 0, [], 0, 7⟩ else ⟨.latch, e.cnt - 1, e.frame, e.bi, e.bt⟩)

/-- R132 (with R124): in the encoder steps after an `Emit(F)`, DOUT is exactly `Wave(F)`, then 0. -/
def Obligations.WaveformOfAFrameIsExact : Prop :=
  ∀ (c : Config) (F : List Byte) (m : Nat), c.Valid → F ≠ [] →
    (wave c F).length = 8 * F.length * nbit c + nreset c ∧
    encTrace c ((wave c F).length + m) (startFrame c F) = wave c F ++ List.replicate m false

/-- R121, R122, R123: byte `i` of the frame goes out in order, bit 7 first, each bit for NBIT cycles of which the first
NH(bit) are high. -/
def Obligations.EveryBitHasItsPulse : Prop :=
  ∀ (c : Config) (F : List Byte), c.Valid →
    ∀ (i : Nat) (h : i < F.length), ∀ j < 8, ∀ q < nbit c,
      dout (encRun c ((8 * i + j) * nbit c + q) (startFrame c F)) = decide (q < nh c (F[i].getLsbD (7 - j)))

/-- R134, R135: BUSY is 1 for exactly 24 P NBIT + NRESET steps after a frame starts, and IRQ_MASK_O is 1 in exactly the
first 24 P NBIT of them. -/
def Obligations.BusyAndMaskLastAsLongAsTheFrame : Prop :=
  ∀ (c : Config) (F : List Byte), c.Valid → F.length = 3 * c.pixels →
    (∀ n, busy (encRun c n (startFrame c F)) = decide (n < 8 * (3 * c.pixels) * nbit c + nreset c)) ∧
    (∀ n, irqMask (encRun c n (startFrame c F)) = decide (n < 8 * (3 * c.pixels) * nbit c)) ∧
    encRun c (8 * (3 * c.pixels) * nbit c + nreset c) (startFrame c F) = ⟨.idle, 0, [], 0, 7⟩

/-- R226, R134: every command completes; it emits no frame and leaves the encoder and FRAME_COUNT alone, or emits exactly
one frame of 3P bytes. An animation command emits one unless it is a swap the palette check stops; NOP, SCALE, the buffer
commands and ANIM_RESET emit none. In a valid configuration, the only kind a step runs in (log 2, log 19). -/
def Obligations.EveryCommandEmitsAtMostOneFrame : Prop :=
  ∀ (i : Instr) (s : State), s.cfg.Valid → ∃ t, exec i s = .next t ∧
    ((t.enc = s.enc ∧ t.frameCount = s.frameCount) ∨
      ∃ F, F.length = 3 * s.cfg.pixels ∧ t.enc = startFrame s.cfg F ∧ t.frameCount = s.frameCount + 1) ∧
    (i ∈ [.nop, .scale, .segBuildEven, .spbClear, .spbPut, .spbDecay, .spbPurge, .animReset] →
      t.enc = s.enc ∧ t.frameCount = s.frameCount) ∧
    (∀ a tr, i = animInstr a tr → (a = .swap → paletteBad s (opN s) = false) → t.frameCount = s.frameCount + 1)

/-- R136, R71, R303: the whole machine's rule for a frame in progress. While BUSY = 1 no step starts another frame, runs a
command or changes anything but the error bits of STATUS, short of a reset: the encoder stands still or takes the one step
of its clock, so every frame and its latch interval run to their end. R127: an encoder cycle, whether the host's events name
it or nothing is pending (log 3), changes the encoder alone, busy or not. -/
def Obligations.AFrameRunsToItsEnd : Prop :=
  (∀ s t : State, step s = .next t → busy s.enc = true → (∀ rest, s.env.pending ≠ .reset :: rest) →
    t = { s with env := t.env, enc := t.enc, sticky := t.sticky, lastErr := t.lastErr } ∧
    t.enc = if isCycle s then encStep s.cfg s.enc else s.enc) ∧
  ∀ s : State, s.cfg.Valid →
    (s.env.pending = [] → step s = .next { s with enc := encStep s.cfg s.enc }) ∧
    (∀ rest, s.env.pending = .cycle :: rest →
      step s = .next { s with env := { s.env with pending := rest }, enc := encStep s.cfg s.enc })

/-! ## Colours and frames (41_pipeline.md) -/

/-- R163: `Scale(x, b)` is the integer nearest to `x * b / 255`, with no tie, and ApplyBrightness scales every channel on
its own. -/
def Obligations.ScaleRoundsToNearest : Prop :=
  (∀ x b : Byte,
    2 * (255 * (scale x b).toNat) < 2 * (x.toNat * b.toNat) + 255 ∧
    2 * (x.toNat * b.toNat) < 2 * (255 * (scale x b).toNat) + 255) ∧
  ∀ (c : RGB) (b : Byte), applyBrightness c b = ⟨scale c.r b, scale c.g b, scale c.b b⟩

/-- R165: the laws of Scale. -/
def Obligations.LawsOfScale : Prop :=
  (∀ x : Byte, scale x 255 = x ∧ scale x 0 = 0) ∧ (∀ b : Byte, scale 0 b = 0) ∧
  (∀ x b b' : Byte, b.toNat ≤ b'.toNat → (scale x b).toNat ≤ (scale x b').toNat) ∧
  (∀ x x' b : Byte, x.toNat ≤ x'.toNat → (scale x b).toNat ≤ (scale x' b).toNat) ∧
  (∀ x b : Byte, (scale x b).toNat ≤ x.toNat)

/-- R166, R167: the six wiring orders, and the frame of a pixel list: 3 bytes a pixel, pixel after pixel, in wiring
order. -/
def Obligations.FramesAreInWiringOrder : Prop :=
  (∀ c : RGB,
    pixelBytes 0 c = [c.r, c.g, c.b] ∧ pixelBytes 1 c = [c.r, c.b, c.g] ∧ pixelBytes 2 c = [c.g, c.r, c.b] ∧
    pixelBytes 3 c = [c.g, c.b, c.r] ∧ pixelBytes 4 c = [c.b, c.r, c.g] ∧ pixelBytes 5 c = [c.b, c.g, c.r]) ∧
  ∀ (c : Config) (px : List RGB), c.Valid →
    (frameOf c px).length = 3 * px.length ∧
    ∀ (i : Nat) (h : i < px.length), ∀ j < 3, (frameOf c px)[3 * i + j]? = (pixelBytes c.wiring px[i])[j]?

/-! ## The pipeline commands (41_pipeline.md) -/

/-- R176: NOP does nothing beyond the acceptance steps. -/
def Obligations.NopDoesNothing : Prop :=
  (∀ s : State, exec .nop s = .next s) ∧
  ∀ s : State, busy s.enc = false → ∃ t, busWrite 0x000 0x00000000 s = .next t ∧ t.result = 0 ∧ t.cmdLast = 0 ∧
    t = { s with cmdLast := 0, result := 0, env := t.env }

/-- R177: SCALE leaves the scaled colour word in RESULT and changes nothing else. -/
def Obligations.ScaleWritesResult : Prop :=
  ∀ s : State, ∃ t, exec .scale s = .next t ∧
    t.result.toNat =
      2 ^ 16 * ((s.arg0.toNat / 2 ^ 16 % 2 ^ 8 * (s.arg1.toNat % 2 ^ 8) + 127) / 255)
        + 2 ^ 8 * ((s.arg0.toNat / 2 ^ 8 % 2 ^ 8 * (s.arg1.toNat % 2 ^ 8) + 127) / 255)
        + (s.arg0.toNat % 2 ^ 8 * (s.arg1.toNat % 2 ^ 8) + 127) / 255 ∧
    t = { s with result := t.result }

/-- R178: RENDER_UNIFORM sends the colour of ARG0, scaled by BR, to every pixel, and changes nothing else. -/
def Obligations.RenderUniformSendsOneColour : Prop :=
  ∀ s : State, s.cfg.Valid → ∃ t, exec .renderUniform s = .next t ∧ Emits s t fun _ => col s.arg0

/-- R179: RENDER_SEGMENTS reports error 4 when SEG_COUNT exceeds SEG_CAP, else error 5 when the lengths do not sum to P,
and else shows at every pixel the colour of the segment that covers it. -/
def Obligations.RenderSegmentsCoversTheStrip : Prop :=
  ∀ s : State, s.cfg.Valid →
    let n := s.segCount.toNat
    let before (k : Nat) : Nat := ((List.range k).map fun j => (segLen s.mem j).toNat).sum
    (s.cfg.segCap < n →
      exec .renderSegments s = .next { s with sticky := s.sticky ||| 0b001000, lastErr := 4 }) ∧
    (n ≤ s.cfg.segCap → before n ≠ s.cfg.pixels →
      exec .renderSegments s = .next { s with sticky := s.sticky ||| 0b010000, lastErr := 5 }) ∧
    (n ≤ s.cfg.segCap → before n = s.cfg.pixels →
      ∃ t px, exec .renderSegments s = .next t ∧ Emits s t px ∧
        ∀ k < n, ∀ q < (segLen s.mem k).toNat, px (before k + q) = col (segColor s.mem k))

/-- R180: RENDER_SPARSE shows the colour of the entry at each position, and black where there is none. -/
def Obligations.RenderSparseShowsEntriesOverBlack : Prop :=
  ∀ s : State, s.cfg.Valid → SparseOk s.cfg.pixels s.cfg.spbCap s.spb →
    ∃ t px, exec .renderSparse s = .next t ∧ Emits s t px ∧
      (∀ e ∈ s.spb, px e.pos.toNat = e.color) ∧
      (∀ i, (∀ e ∈ s.spb, e.pos.toNat ≠ i) → px i = black)

/-- R181, R169: SEG_BUILD_EVEN reports error 3 on a palette it cannot use and changes nothing else; otherwise it writes N
even segments with the palette's words, rotated by ROT, and SEG_COUNT, and changes nothing else. -/
def Obligations.SegBuildEvenDividesEvenly : Prop :=
  ∀ s : State, s.cfg.Valid → s.mem.wf →
    let n := opN s
    let p := s.cfg.pixels
    (s.palLen.toNat > s.cfg.palCap ∨ n = 0 ∨ n > s.palLen.toNat ∨ n > s.cfg.segCap →
      exec .segBuildEven s = .next { s with sticky := s.sticky ||| 0b000100, lastErr := 3 }) ∧
    (¬ (s.palLen.toNat > s.cfg.palCap ∨ n = 0 ∨ n > s.palLen.toNat ∨ n > s.cfg.segCap) →
      ∃ t, exec .segBuildEven s = .next t ∧ t.segCount.toNat = n ∧ t.mem.wf ∧
        (∀ k < n, (segLen t.mem k).toNat = if k = n - 1 then p - (n - 1) * (p / n) else p / n) ∧
        (∀ k < n, segColor t.mem k = pal s.mem ((k + opRot s) % n)) ∧
        (∀ k, n ≤ k → segLen t.mem k = segLen s.mem k ∧ segColor t.mem k = segColor s.mem k) ∧
        (∀ k, pal t.mem k = pal s.mem k) ∧
        (∀ a, (∀ k < n, (a < segLenAddr k ∨ segLenAddr k + 2 ≤ a) ∧ (a < segColorAddr k ∨ segColorAddr k + 4 ≤ a)) →
          t.mem.readByte a = s.mem.readByte a) ∧
        t = { s with segCount := t.segCount, mem := t.mem })

/-- R187: after a SEG_BUILD_EVEN that raised no error the lengths are N even regions that sum to P; and as long as
SEG_COUNT and those lengths stand, whatever else has changed, a RENDER_SEGMENTS raises no error 5: it emits a frame. -/
def Obligations.BuiltSegmentsAlwaysRender : Prop :=
  ∀ s t : State, s.cfg.Valid → s.mem.wf → exec .segBuildEven s = .next t →
    paletteBad s (opN s) = false →
    ((List.range t.segCount.toNat).map fun j => (segLen t.mem j).toNat).sum = s.cfg.pixels ∧
    (∀ k < t.segCount.toNat, (segLen t.mem k).toNat =
      if k = t.segCount.toNat - 1 then s.cfg.pixels - (t.segCount.toNat - 1) * (s.cfg.pixels / t.segCount.toNat)
      else s.cfg.pixels / t.segCount.toNat) ∧
    ∀ v : State, v.cfg = t.cfg → v.segCount = t.segCount →
      (∀ k < t.segCount.toNat, segLen v.mem k = segLen t.mem k) →
      ∃ u px, exec .renderSegments v = .next u ∧ Emits v u px

/-- R182, R184, R185: SPB_CLEAR empties the buffer; SPB_DECAY lowers every nonzero channel by one and keeps positions and
order; SPB_PURGE removes the black entries, keeps the others in order and counts the removed ones in RESULT. Nothing else
changes. -/
def Obligations.SparseClearDecayPurge : Prop :=
  ∀ s : State,
    exec .spbClear s = .next { s with spb := [] } ∧
    (∃ t, exec .spbDecay s = .next t ∧ t = { s with spb := t.spb } ∧ t.spb.length = s.spb.length ∧
      ∀ (i : Nat) (e f : Entry), s.spb[i]? = some e → t.spb[i]? = some f →
        f.pos = e.pos ∧ f.color.r.toNat = e.color.r.toNat - 1 ∧ f.color.g.toNat = e.color.g.toNat - 1 ∧
          f.color.b.toNat = e.color.b.toNat - 1) ∧
    (∃ t, exec .spbPurge s = .next t ∧ t = { s with spb := t.spb, result := t.result } ∧
      t.spb = s.spb.filter (fun e => e.color ≠ black) ∧
      t.result = BitVec.ofNat 32 (s.spb.countP fun e => e.color = black))

/-- R183, R173: SPB_PUT reports error 4 for a position outside the strip, else updates an entry that exists (RESULT 2),
else inserts one where there is room (RESULT 1), else reports error 6 and drops it. Every other position keeps its
entry. -/
def Obligations.SparsePutInsertsOrUpdates : Prop :=
  ∀ s : State, SparseOk s.cfg.pixels s.cfg.spbCap s.spb →
    let pos := opPos s
    (s.cfg.pixels ≤ pos.toNat → exec .spbPut s = .next { s with sticky := s.sticky ||| 0b001000, lastErr := 4 }) ∧
    (pos.toNat < s.cfg.pixels → (∃ e ∈ s.spb, e.pos = pos) →
      ∃ t, exec .spbPut s = .next t ∧ t.result = 2 ∧ t = { s with spb := t.spb, result := t.result } ∧
        t.spb.length = s.spb.length ∧ ⟨pos, col s.arg0⟩ ∈ t.spb ∧
        (∀ e, e.pos ≠ pos → (e ∈ t.spb ↔ e ∈ s.spb)) ∧ SparseOk s.cfg.pixels s.cfg.spbCap t.spb) ∧
    (pos.toNat < s.cfg.pixels → (∀ e ∈ s.spb, e.pos ≠ pos) → s.spb.length < s.cfg.spbCap →
      ∃ t, exec .spbPut s = .next t ∧ t.result = 1 ∧ t = { s with spb := t.spb, result := t.result } ∧
        t.spb.length = s.spb.length + 1 ∧ ⟨pos, col s.arg0⟩ ∈ t.spb ∧
        (∀ e, e.pos ≠ pos → (e ∈ t.spb ↔ e ∈ s.spb)) ∧ SparseOk s.cfg.pixels s.cfg.spbCap t.spb) ∧
    (pos.toNat < s.cfg.pixels → (∀ e ∈ s.spb, e.pos ≠ pos) → s.cfg.spbCap ≤ s.spb.length →
      exec .spbPut s = .next { s with sticky := s.sticky ||| 0b100000, lastErr := 6 })

/-- R186: every sequence of SPB_CLEAR, SPB_PUT, SPB_DECAY and SPB_PURGE, with any arguments between them, leaves SPB sorted
with unique positions below P and at most SPB_CAP entries. -/
def Obligations.SparseBufferStaysSorted : Prop :=
  ∀ (σ τ : Nat → State) (c : Config) (i : Nat → Instr),
    (∀ n, i n ∈ [.spbClear, .spbPut, .spbDecay, .spbPurge]) → (∀ n, (σ n).cfg = c) →
    (∀ n, exec (i n) (σ n) = .next (τ n)) → (∀ n, (σ (n + 1)).spb = (τ n).spb) →
    SparseOk c.pixels c.spbCap (σ 0).spb → ∀ n, SparseOk c.pixels c.spbCap (τ n).spb

/-! ## The animations (42_animation.md) -/

/-- R227: for steps of at least 1 the wrap trick and its mirror saturate exactly at 0 and at 255. -/
def Obligations.RampsSaturate : Prop :=
  ∀ x s : Byte, 1 ≤ s.toNat →
    (rampDown x s).toNat = max (x.toNat - s.toNat) 0 ∧ (rampUp x s).toNat = min (x.toNat + s.toNat) 255

/-- R228: a hue step lowers the losing channel and raises the gaining channel of the phase, leaves the third alone, and
advances the phase exactly when the losing channel reaches 0; on the hue circle the two channels keep their sum of 255, so
both clamps act in the same step, and the state stays on the circle. -/
def Obligations.HueStepMovesTwoChannels : Prop :=
  ∀ (c : RGB) (ph : HuePhase) (s : Byte),
    (ph = .redGreen → (hueStep c ph s).1 = ⟨rampDown c.r s, rampUp c.g s, c.b⟩ ∧
      (hueStep c ph s).2 = if rampDown c.r s = 0 then .greenBlue else .redGreen) ∧
    (ph = .greenBlue → (hueStep c ph s).1 = ⟨c.r, rampDown c.g s, rampUp c.b s⟩ ∧
      (hueStep c ph s).2 = if rampDown c.g s = 0 then .blueRed else .greenBlue) ∧
    (ph = .blueRed → (hueStep c ph s).1 = ⟨rampUp c.r s, c.g, rampDown c.b s⟩ ∧
      (hueStep c ph s).2 = if rampDown c.b s = 0 then .redGreen else .blueRed) ∧
    (HueOk c ph → s ≠ 0 →
      HueOk (hueStep c ph s).1 (hueStep c ph s).2 ∧
      (hueStep c ph s).1.r.toNat + (hueStep c ph s).1.g.toNat + (hueStep c ph s).1.b.toNat = 255)

/-- R229: on the hue circle every state sums to 255 with at least one channel 0, and exactly one but at the three
primaries; with step s a transition takes ceil(255/s) steps and the full cycle 3 ceil(255/s); 765 with s = 1. -/
def Obligations.HueCircleAndItsCycle : Prop :=
  (∀ steps : List Byte, (∀ s ∈ steps, s ≠ 0) →
    let h := steps.foldl (fun h s => hueStep h.1 h.2 s) (red, .redGreen)
    h.1.r.toNat + h.1.g.toNat + h.1.b.toNat = 255 ∧ 1 ≤ zeroChannels h.1 ∧
      (zeroChannels h.1 = if h.1 ∈ [red, ⟨0, 255, 0⟩, ⟨0, 0, 255⟩] then 2 else 1)) ∧
  (∀ s : Byte, s ≠ 0 →
    let m := (255 + s.toNat - 1) / s.toNat
    (∀ n < m, (hueSteps n (red, .redGreen) s).2 = .redGreen ∧ (hueSteps (m + n) (red, .redGreen) s).2 = .greenBlue ∧
        (hueSteps (2 * m + n) (red, .redGreen) s).2 = .blueRed) ∧
      hueSteps m (red, .redGreen) s = (⟨0, 255, 0⟩, .greenBlue) ∧
      hueSteps (2 * m) (red, .redGreen) s = (⟨0, 0, 255⟩, .blueRed) ∧
      hueSteps (3 * m) (red, .redGreen) s = (red, .redGreen)) ∧
  hueSteps 765 (red, .redGreen) 1 = (red, .redGreen)

/-- R221, R222: activation happens exactly on a change of the key (OPC, TRIG), sets the record of the animation and its
gate sample to the activation values and nothing else but ACTIVE, which then reads `0x80000000 | (t << 8) | a`. -/
def Obligations.ActivationOnAChangeOfKey : Prop :=
  ∀ (a : Anim) (t : Trig) (s : State),
    activeWord (switchTo a t s) = 0x80000000 ||| (trigCode t).setWidth 32 <<< 8 ||| (animCode a).setWidth 32 ∧
    (continues a t s = true → switchTo a t s = s) ∧
    (continues a t s = false →
      let g := setGateBit s.gatePrev (animIndex a) false
      switchTo a t s =
        match a with
        | .fade => { s with active := some ⟨a, t⟩, gatePrev := g, fade := ⟨⟨255, 0, 0⟩, .redGreen⟩ }
        | .breathe => { s with active := some ⟨a, t⟩, gatePrev := g, breathe := ⟨0, .hold, s.now⟩ }
        | .rainbow => { s with active := some ⟨a, t⟩, gatePrev := g, rainbow := ⟨⟨255, 0, 0⟩, .redGreen, s.now⟩ }
        | .swap => { s with active := some ⟨a, t⟩, gatePrev := g, swap := ⟨0, s.now⟩ }
        | .rain => { s with
            active := some ⟨a, t⟩, gatePrev := g, rain := ⟨[], s.now, s.now, spawnGap s (randAt s 0)⟩,
            env := afterDraws s 1 }
        | .wipe => { s with active := some ⟨a, t⟩, gatePrev := g, wipe := ⟨0, ⟨0, 0, 0⟩, s.now⟩ })

/-- R28, R221: the whole machine's rule for ACTIVE: an animation command that runs records its key, ANIM_RESET clears it,
and no other command changes it. -/
def Obligations.ActiveNamesTheLastAnimation : Prop :=
  ∀ (i : Instr) (s : State), ∃ t, exec i s = .next t ∧
    (∀ a tr, i = animInstr a tr →
      t.active = if a = .swap ∧ paletteBad s (opN s) = true then s.active else some ⟨a, tr⟩) ∧
    ((∀ a tr, i ≠ animInstr a tr) → t.active = if i = .animReset then none else s.active)

/-- R223, R225: elapsed time is the difference modulo 2^32, a timer expires when it is at least the interval, and each
trigger mode fires on its own condition. R22: `now` and `gate` are the levels driven on TICK_I and GATE_I, or free values
for the command's sample where nothing drives them (log 4); the steps of the events that drive the inputs and give answers
of `Rand()` (logs 3 to 5). -/
def Obligations.TimersAndTriggers : Prop :=
  (∀ (s : State) (mark : Word) (iv : Nat),
    expired s mark iv = decide (iv ≤ (s.now.toNat + 2 ^ 32 - mark.toNat) % 2 ^ 32)) ∧
  (∀ timecond edge : Bool,
    triggered .time timecond edge = timecond ∧ triggered .edge timecond edge = edge ∧
      triggered .either timecond edge = (timecond || edge)) ∧
  (∀ (a : Anim) (s : State), (gateEdge a s = true ↔ s.gatePrev.getLsbD (animIndex a) = false ∧ s.gate = true) ∧
    GateNoted a s (sampleGate a s).gatePrev) ∧
  (∀ s : State, (∀ v, s.env.tick = some v → s.now = v) ∧ (∀ b, s.env.gate = some b → s.gate = b) ∧
    (s.env.tick = none → s.now = Config.freeTick s.env.samples) ∧
    (s.env.gate = none → s.gate = Config.freeGate s.env.samples)) ∧
  ∀ (s : State) (rest : List Event), s.cfg.Valid →
    (∀ v, s.env.pending = .driveTick v :: rest →
      step s = .next { s with env := { s.env with pending := rest, tick := some v } }) ∧
    (∀ b, s.env.pending = .driveGate b :: rest →
      step s = .next { s with env := { s.env with pending := rest, gate := some b } }) ∧
    ∀ vs, s.env.pending = .giveRand vs :: rest →
      step s = .next { s with env := { s.env with pending := rest, rands := vs } }

/-- R230: ANIM_RESET puts every animation record and GATE_PREV at reset, clears ACTIVE, emits no frame, draws nothing and
changes nothing else. -/
def Obligations.AnimResetClearsTheAnimations : Prop :=
  ∀ s : State, ∃ t, exec .animReset s = .next t ∧ activeWord t = 0 ∧
    (∀ r ∈ [Reg.fadeColor, .rbwColor], readReg t r = 0x00FF0000) ∧
    (∀ r ∈ [Reg.fadePhase, .breLevel, .brePhase, .breMark, .rbwPhase, .rbwMark, .swpRot, .swpMark, .rainCount, .rainDmark,
      .rainSmark, .rainGap, .wipeK, .wipeBg, .wipeMark, .gatePrev], readReg t r = 0) ∧
    t = { s with
      fade := t.fade, breathe := t.breathe, rainbow := t.rainbow, swap := t.swap, rain := t.rain, wipe := t.wipe,
      gatePrev := t.gatePrev, active := none }

/-- R231: ANIM_FADE, ANIM_FADE.edge and ANIM_FADE.either: the record (red on activation) takes one hue step when the
trigger fires, RESULT[0] is set when the phase changed, and one frame shows the colour; nothing else changes. -/
def Obligations.AnimFadeStepsTheHue : Prop :=
  ∀ (t : Trig) (s : State), s.cfg.Valid →
    let f := if continues .fade t s then s.fade else ⟨red, .redGreen⟩
    let fires := triggered t true (risingEdge .fade t s)
    let h := hueStep f.color f.phase (opStep s)
    ∃ (g : BitVec 6) (u : State), GateNoted .fade s g ∧ exec (animInstr .fade t) s = .next u ∧
      Emits { s with
        active := some ⟨.fade, t⟩
        gatePrev := g
        fade := if fires then ⟨h.1, h.2⟩ else f
        result := if fires ∧ h.2 ≠ f.phase then s.result ||| 1 else s.result } u fun _ => u.fade.color

/-- R232: ANIM_BREATHE, ANIM_BREATHE.edge and ANIM_BREATHE.either: the hold ends when its trigger fires and the same call
takes the first step up; up to 255, then down to 0, which sets RESULT[0] and restarts the hold; one frame shows the colour
scaled by the level; nothing else changes. -/
def Obligations.AnimBreatheRampsTheLevel : Prop :=
  ∀ (t : Trig) (s : State), s.cfg.Valid →
    let b := if continues .breathe t s then s.breathe else ⟨0, .hold, s.now⟩
    let endsHold := b.phase = .hold ∧ triggered t (expired s b.mark 2000) (risingEdge .breathe t s) = true
    let l := if endsHold ∨ b.phase = .up then rampUp b.level (opStep s)
      else if b.phase = .down then rampDown b.level (opStep s) else b.level
    let cycleEnds := b.phase = .down ∧ l = 0
    ∃ (g : BitVec 6) (u : State), GateNoted .breathe s g ∧ exec (animInstr .breathe t) s = .next u ∧
      Emits { s with
        active := some ⟨.breathe, t⟩
        gatePrev := g
        breathe :=
          { level := l
            phase :=
              if endsHold ∨ b.phase = .up then (if l = 255 then .down else .up)
              else if cycleEnds then .hold else b.phase
            mark := if endsHold ∨ cycleEnds then s.now else b.mark }
        result := if cycleEnds then s.result ||| 1 else s.result } u
        fun _ => applyBrightness (col s.arg0) l

/-- R233: ANIM_RAINBOW, ANIM_RAINBOW.edge and ANIM_RAINBOW.either: the base takes one hue step of ROTSTEP when the trigger
fires (RESULT[0], timer reset); pixel i shows the base advanced by i hue steps of PIXSTEP, and the base is left alone by
that walk; nothing else changes. -/
def Obligations.AnimRainbowWalksTheStrip : Prop :=
  ∀ (t : Trig) (s : State), s.cfg.Valid →
    let r := if continues .rainbow t s then s.rainbow else ⟨red, .redGreen, s.now⟩
    let fires := triggered t (expired s r.mark (opInterval s)) (risingEdge .rainbow t s)
    let h := hueStep r.color r.phase (opRotStep s)
    ∃ (g : BitVec 6) (u : State), GateNoted .rainbow s g ∧ exec (animInstr .rainbow t) s = .next u ∧
      Emits { s with
        active := some ⟨.rainbow, t⟩
        gatePrev := g
        rainbow := if fires then ⟨h.1, h.2, s.now⟩ else r
        result := if fires then s.result ||| 1 else s.result } u
        fun i => (hueSteps i (u.rainbow.color, u.rainbow.phase) (opPixStep s)).1

/-- R234: ANIM_SWAP, ANIM_SWAP.edge and ANIM_SWAP.either: error 3 on a palette the builder cannot use, with nothing else
changed, not even ACTIVE; otherwise the rotation advances when the trigger fires (RESULT[0], timer reset) and N even regions
show the rotated palette; SEG and SEG_COUNT are not written; nothing else changes. -/
def Obligations.AnimSwapRotatesTheRegions : Prop :=
  ∀ (t : Trig) (s : State), s.cfg.Valid →
    let n := opN s
    let bad := s.palLen.toNat > s.cfg.palCap ∨ n = 0 ∨ n > s.palLen.toNat ∨ n > s.cfg.segCap
    let w := if continues .swap t s then s.swap else ⟨0, s.now⟩
    let fires := triggered t (expired s w.mark (opSwapInterval s)) (risingEdge .swap t s)
    (bad → exec (animInstr .swap t) s = .next { s with sticky := s.sticky ||| 0b000100, lastErr := 3 }) ∧
    (¬ bad → ∃ (g : BitVec 6) (u : State) (px : Nat → RGB), GateNoted .swap s g ∧
      exec (animInstr .swap t) s = .next u ∧
      Emits { s with
        active := some ⟨.swap, t⟩
        gatePrev := g
        swap := if fires then ⟨BitVec.ofNat 8 ((w.rot.toNat + 1) % n), s.now⟩ else w
        result := if fires then s.result ||| 1 else s.result } u px ∧
      ∀ i < s.cfg.pixels,
        px i = col (pal s.mem (((if s.cfg.pixels / n = 0 then n - 1 else min (i / (s.cfg.pixels / n)) (n - 1))
          + u.swap.rot.toNat) % n)))

/-- R235: ANIM_RAIN, ANIM_RAIN.edge and ANIM_RAIN.either: purge the black droplets, decay on the decay timer (RESULT[1]),
spawn when the spawn trigger fires and the count is below min(MAXD, RAIN_CAP, P) (RESULT[0]): the new droplet stands at a
free position with exactly (r mod m) free positions below it, and the next gap is drawn after r. The frame shows the
droplets over black. Draws are made in the order gap at activation, position, next gap. Nothing else changes. -/
def Obligations.AnimRainDecaysAndSpawns : Prop :=
  ∀ (t : Trig) (s : State), s.cfg.Valid → SparseOk s.cfg.pixels s.cfg.rainCap s.rain.drops →
    let lo := min (opSpawnMin s) (opSpawnMax s)
    let hi := max (opSpawnMin s) (opSpawnMax s)
    let gap (r : Word) : Half := BitVec.ofNat 16 (lo + r.toNat % (hi - lo + 1))
    let n0 := if continues .rain t s then 0 else 1
    let r := if continues .rain t s then s.rain else ⟨[], s.now, s.now, gap (randAt s 0)⟩
    let decays := expired s r.dmark (opDecayMs s)
    let d := if decays then decay (purge r.drops) else purge r.drops
    let spawns := triggered t (expired s r.smark r.gap.toNat) (risingEdge .rain t s) = true ∧
      d.length < min (opMaxd s) (min s.cfg.rainCap s.cfg.pixels)
    let rnd := (randAt s n0).toNat % (s.cfg.pixels - d.length)
    ∃ (g : BitVec 6) (pos : Half) (u : State) (px : Nat → RGB), GateNoted .rain s g ∧
      exec (animInstr .rain t) s = .next u ∧
      Emits { s with
        active := some ⟨.rain, t⟩
        gatePrev := g
        env := afterDraws s (if spawns then n0 + 2 else n0)
        rain :=
          { drops := if spawns then insertEntry ⟨pos, col s.arg0⟩ d else d
            dmark := if decays then s.now else r.dmark
            smark := if spawns then s.now else r.smark
            gap := if spawns then gap (randAt s (n0 + 1)) else r.gap }
        result := s.result ||| (if decays then 2 else 0) ||| (if spawns then 1 else 0) } u px ∧
      (spawns → pos.toNat < s.cfg.pixels ∧ (∀ e ∈ d, e.pos ≠ pos) ∧
        ((List.range pos.toNat).filter fun q => d.all fun e => e.pos.toNat ≠ q).length = rnd) ∧
      (∀ e ∈ u.rain.drops, px e.pos.toNat = e.color) ∧
      (∀ i, (∀ e ∈ u.rain.drops, e.pos.toNat ≠ i) → px i = black)

/-- R236: ANIM_WIPE, ANIM_WIPE.edge and ANIM_WIPE.either: one more pixel when the trigger fires, the pixels below the count
in the target colour and the others in the background; the call that lights the last pixel sets RESULT[0], makes the target
the background and restarts the count; nothing else changes. -/
def Obligations.AnimWipeRevealsPixelByPixel : Prop :=
  ∀ (t : Trig) (s : State), s.cfg.Valid →
    let w := if continues .wipe t s then s.wipe else ⟨0, black, s.now⟩
    let fires := triggered t (expired s w.mark (opInterval s)) (risingEdge .wipe t s)
    let k := if fires then w.k + 1 else w.k
    let done := k.toNat = s.cfg.pixels
    ∃ (g : BitVec 6) (u : State), GateNoted .wipe s g ∧ exec (animInstr .wipe t) s = .next u ∧
      Emits { s with
        active := some ⟨.wipe, t⟩
        gatePrev := g
        wipe := ⟨if done then 0 else k, if done then col s.arg0 else w.bg, if fires then s.now else w.mark⟩
        result := if done then s.result ||| 1 else s.result } u
        fun i => if i < k.toNat then col s.arg0 else w.bg

/-- R237: a run of ANIM_BREATHE calls of one key and one step from its activation on: the level is 0 through the hold, then
rises by the step to 255, then falls by it to 0, and RESULT[0] is 1 in the call that reaches 0 and in no other; there the
hold starts again, and the level is 0 through that hold too. `σ n` is the state in which call n is executed and `τ n` the state it leaves. -/
def Obligations.BreatheCycle : Prop :=
  ∀ (σ τ : Nat → State) (st : Byte) (N : Nat),
    (∀ n, exec .animBreathe (σ n) = .next (τ n)) →
    (∀ n, (σ (n + 1)).breathe = (τ n).breathe ∧ (σ (n + 1)).active = (τ n).active) →
    (∀ n, opStep (σ n) = st ∧ (σ n).result = 0) →
    (σ 0).active ≠ some ⟨.breathe, .time⟩ →
    (∀ n < N, elapsed (σ n) (σ 0).now < 2000) → 2000 ≤ elapsed (σ N) (σ 0).now →
    let m := (255 + st.toNat - 1) / st.toNat
    (∀ n < N, (τ n).breathe.level = 0 ∧ (τ n).result = 0) ∧
    (∀ n < m, (τ (N + n)).breathe.level.toNat = min ((n + 1) * st.toNat) 255 ∧ (τ (N + n)).result = 0) ∧
    (∀ n < m, (τ (N + m + n)).breathe.level.toNat = 255 - (n + 1) * st.toNat ∧
      (τ (N + m + n)).result = if n + 1 = m then 1 else 0) ∧
    (τ (N + m + (m - 1))).breathe = ⟨0, .hold, (σ (N + m + (m - 1))).now⟩ ∧
    ∀ n, (∀ j ≤ n, elapsed (σ (N + m + m + j)) (σ (N + m + (m - 1))).now < 2000) →
      (τ (N + m + m + n)).breathe.level = 0 ∧ (τ (N + m + m + n)).result = 0

/-- R238: after every rain command the droplets are sorted, unique, below P and at most RAIN_CAP; they stay at most
min(MAXD, RAIN_CAP, P) if they were, or on activation; and a droplet that is black after a call is absent after the next
call of the same key: what stands at its position then is a droplet that call spawned (RESULT[0] = 1, the call's colour). -/
def Obligations.RainKeepsItsBound : Prop :=
  ∀ (t : Trig) (s u : State), s.cfg.Valid → SparseOk s.cfg.pixels s.cfg.rainCap s.rain.drops →
    exec (animInstr .rain t) s = .next u →
    SparseOk s.cfg.pixels s.cfg.rainCap u.rain.drops ∧
    (s.rain.drops.length ≤ min (opMaxd s) (min s.cfg.rainCap s.cfg.pixels) →
      u.rain.drops.length ≤ min (opMaxd s) (min s.cfg.rainCap s.cfg.pixels)) ∧
    (s.active ≠ some ⟨.rain, t⟩ → u.rain.drops.length ≤ min (opMaxd s) (min s.cfg.rainCap s.cfg.pixels)) ∧
    (continues .rain t s = true → ∀ e ∈ s.rain.drops, e.color = black → ∀ f ∈ u.rain.drops, f.pos = e.pos →
      u.result.getLsbD 0 = true ∧ f.color = col s.arg0)

/-- R239, for each trigger mode and with calls that have no event in between: with a constant N, the rotation is that of the
first call plus the number of events since, modulo N, so N events return it and with N = 2 every event exchanges 0 and 1; a
wipe of P pixels reports completion on exactly every P-th event. `σ n` is the state in which call n is executed and `τ n` the
state it leaves. -/
def Obligations.SwapAndWipeCycles : Prop :=
  (∀ (t : Trig) (σ τ : Nat → State) (N : Nat),
    (∀ n, exec (animInstr .swap t) (σ n) = .next (τ n)) → (∀ n, (σ (n + 1)).swap = (τ n).swap) →
    (∀ n, opN (σ n) = N ∧ paletteBad (σ n) N = false ∧ (σ n).active = some ⟨.swap, t⟩) → (σ 0).swap.rot.toNat < N →
    let events (n : Nat) : Nat := (List.range n).countP fun i => swapEvent t (σ i)
    (∀ n, (σ n).swap.rot.toNat = ((σ 0).swap.rot.toNat + events n) % N) ∧
    (∀ m n, events n = events m + N → (σ n).swap.rot = (σ m).swap.rot) ∧
    (N = 2 → ∀ n, (τ n).swap.rot.toNat =
      if swapEvent t (σ n) then 1 - (σ n).swap.rot.toNat else (σ n).swap.rot.toNat)) ∧
  ∀ (t : Trig) (σ τ : Nat → State) (c : Config),
    c.Valid → (∀ n, (σ n).cfg = c) →
    (∀ n, exec (animInstr .wipe t) (σ n) = .next (τ n)) → (∀ n, (σ (n + 1)).wipe = (τ n).wipe) →
    (∀ n, (σ n).result = 0 ∧ (σ n).active = some ⟨.wipe, t⟩) → (σ 0).wipe.k = 0 →
    let events (n : Nat) : Nat := (List.range n).countP fun i => wipeEvent t (σ i)
    ∀ n, (τ n).result = if wipeEvent t (σ n) = true ∧ events (n + 1) % c.pixels = 0 then 1 else 0

/-- R220: a command of one animation reads and writes nothing of the others: replacing the other records, their gate
samples, CMD_LAST, SEG_COUNT and SPB (and, but for swap, the memory and PAL_LEN) changes nothing else of what it does, and
leaves what was put there. -/
def Obligations.AnimationsAreIndependent : Prop :=
  ∀ (a : Anim) (t : Trig) (s o : State), ∃ u, exec (animInstr a t) s = .next u ∧
    exec (animInstr a t) (othersFrom a o s) = .next (othersFrom a o u) ∧ u = othersFrom a s u ∧
    u.mem = s.mem ∧ u.palLen = s.palLen

/-- R240: on a pattern switch to an animation its earlier record is unobservable: whatever the record and its gate sample
held, the command does the same. -/
def Obligations.PatternSwitchForgetsTheRecord : Prop :=
  ∀ (a : Anim) (t : Trig) (s o : State), continues a t s = false → (a = .swap → paletteBad s (opN s) = false) →
    ∃ u, exec (animInstr a t) s = .next u ∧ exec (animInstr a t) (recordFrom a o s) = .next u

/-! ## Errors (60_exceptions.md) -/

/-- R300, R301, R303: raising an error sets STATUS bit 7 + code and LAST_ERR, and no other bit of STATUS; a command either
completes with no error or reports exactly one of the errors its row lists and changes nothing but STATUS. -/
def Obligations.ErrorsArePrecise : Prop :=
  (∀ (e : ErrCode) (s : State) (i : Nat), (statusWord (raiseErr e s)).getLsbD i =
      if 16 ≤ i ∧ i < 24 then (errCode e).testBit (i - 16)
      else if i = 7 + errCode e then true else (statusWord s).getLsbD i) ∧
  ∀ (i : Instr) (s : State), ∃ t, exec i s = .next t ∧
    ((t.sticky = s.sticky ∧ t.lastErr = s.lastErr) ∨
      ∃ e ∈ mayRaise i, t = raiseErr e s ∧ t = { s with
        sticky := s.sticky ||| 1#6 <<< (errCode e - 1), lastErr := BitVec.ofNat 8 (errCode e) })

/-! ## Reset and the whole machine (70_reset_and_hazards.md) -/

/-- R340: the reset input puts every register, every window and the encoder at their reset values, in one step and from any
state; the line stays low and BUSY stays 1 for exactly NRESET encoder cycles. -/
def Obligations.ResetPutsEverythingAtItsValue : Prop :=
  ∀ (s : State) (rest : List Event), s.cfg.Valid → s.env.pending = .reset :: rest →
    ∃ t, step s = .next t ∧ t.cfg = s.cfg ∧ t.env = { s.env with pending := rest } ∧
      (∀ r, readReg t r = resetWord s.cfg r) ∧
      (∀ a : Half, a.toNat % 4 = 0 → 0x1000 ≤ a.toNat → busRead t a = 0) ∧
      t.spb = [] ∧ t.rain.drops = [] ∧ t.active = none ∧
      t.enc = ⟨.latch, nreset s.cfg, [], 0, 7⟩ ∧
      dout t.enc = false ∧ portOut s.cfg t.enc = s.cfg.portLo ∧ irqMask t.enc = false ∧ busy t.enc = true ∧
      (∀ n, busy (encRun s.cfg n t.enc) = decide (n < nreset s.cfg)) ∧
      ∀ n, dout (encRun s.cfg n t.enc) = false

/-- The invariant of the machine holds after reset, in every configuration that is built and every environment. -/
def Obligations.ResetMeetsTheInvariant : Prop :=
  ∀ (c : Config) (e : Env), c.Valid → Inv (State.resetIn c e)

/-- Every step keeps the invariant: the memory stays canonical and in its windows, both sparse buffers stay sorted and
within their bounds, the hue states stay on the circle, the breathe, swap and wipe records stay in range, LAST_ERR agrees
with the sticky bits, and the encoder stays consistent (R171, R186, R229, R238, R38). -/
def Obligations.EveryStepKeepsTheInvariant : Prop :=
  ∀ s t : State, Inv s → step s = .next t → Inv t
end

