-- ==== Sys2Proof/Laws/Config.lean ====
section
/-! SUPPORT. What a valid configuration guarantees (60_exceptions.md R313), and the wiring permutation. -/

namespace Sys2Proof.Machine

/-- The sizes of a valid configuration (00_scope.md R5). -/
theorem valid_sizes {c : Config} (h : c.Valid) :
    (1 ≤ c.pixels ∧ c.pixels ≤ 65535) ∧ (1 ≤ c.segCap ∧ c.segCap ≤ 255) ∧ (1 ≤ c.palCap ∧ c.palCap ≤ 255) ∧
      (1 ≤ c.spbCap ∧ c.spbCap ≤ 2560) ∧ (1 ≤ c.rainCap ∧ c.rainCap ≤ 255) := by
  simp [Config.Valid, Config.wellFormed, sizeOk] at h; omega

/-- The cycle counts of a valid configuration (40_encoder.md R138). -/
theorem valid_timing {c : Config} (h : c.Valid) : 1 ≤ n0h c ∧ n0h c < n1h c ∧ n1h c < nbit c ∧ 1 ≤ nreset c := by
  simp [Config.Valid, Config.wellFormed, timingOk] at h; omega

/-- Every pulse of a valid configuration has at least one high and one low cycle (40_encoder.md R138). -/
theorem valid_nh {c : Config} (h : c.Valid) (b : Bool) : 1 ≤ nh c b ∧ nh c b < nbit c := by
  have := valid_timing h
  cases b <;> simp [nh] <;> omega

/-- The wiring code of a valid configuration (60_exceptions.md R313). -/
theorem valid_wiring {c : Config} (h : c.Valid) : c.wiring ≤ 5 := by
  simp [Config.Valid, Config.wellFormed, wiringOk] at h; omega

/-- A wiring order has three positions (41_pipeline.md R166). -/
theorem perm_length (w : Nat) : (perm w).length = 3 := by
  unfold perm; split <;> rfl

/-- A pixel has three bytes (41_pipeline.md R167). -/
theorem pixelBytes_length (w : Nat) (c : RGB) : (pixelBytes w c).length = 3 := by
  simp [pixelBytes, perm_length]

end Sys2Proof.Machine
end

