-- ==== Sys2Proof/Laws/Memory.lean ====
section
/-! SUPPORT. The laws of the memory: a write keeps the canonical form, a read after a write gives what was written, and
every other place reads as before; then the same for the entries of SEG and PAL. -/

namespace Sys2Proof.Machine

open Memory

/-- A write lists only addresses it was given or that were listed. -/
theorem Memory.mem_writeByte {m : Memory} {a : Nat} {v : Byte} {x : Host.Cell} (h : x ∈ m.writeByte a v) :
    x ∈ m ∨ (x = (a, v) ∧ v ≠ unlisted) := by
  induction m with
  | nil =>
    simp only [writeByte, cons] at h
    split at h <;> simp_all
  | cons y rest ih =>
    simp only [writeByte, cons] at h
    split at h
    · split at h <;> simp_all
      tauto
    · split at h
      · split at h <;> simp_all
        tauto
      · rcases List.mem_cons.1 h with h | h
        · exact .inl (by simp [h])
        · rcases ih h with h | h
          · exact .inl (by simp [h])
          · exact .inr h

/-- A write keeps the canonical form. -/
theorem Memory.writeByte_wf {m : Memory} (h : m.wf) (a : Nat) (v : Byte) : (m.writeByte a v).wf := by
  refine ⟨?_, fun x hx => ?_⟩
  · induction m with
    | nil => simp only [writeByte, cons]; split <;> simp
    | cons y rest ih =>
      obtain ⟨h1, h2⟩ := List.pairwise_cons.1 h.1
      have hrest : Memory.wf rest := ⟨h2, fun x hx => h.2 x (by simp [hx])⟩
      simp only [writeByte, cons]
      split
      · rename_i hlt
        split
        · exact h.1
        · refine List.pairwise_cons.2 ⟨fun z hz => ?_, h.1⟩
          rcases List.mem_cons.1 hz with rfl | hz
          · exact hlt
          · exact lt_trans hlt (h1 z hz)
      · split
        · rename_i heq
          split
          · exact h2
          · exact List.pairwise_cons.2 ⟨fun z hz => by simpa [heq] using h1 z hz, h2⟩
        · refine List.pairwise_cons.2 ⟨fun z hz => ?_, ih hrest⟩
          rcases mem_writeByte hz with hz | ⟨rfl, -⟩
          · exact h1 z hz
          · simp only; omega
  · rcases mem_writeByte hx with hx | ⟨rfl, hv⟩
    · exact h.2 x hx
    · exact hv

theorem Memory.readByte_of_lt {m : Memory} {a : Nat} (h : ∀ x ∈ m, a < x.1) : m.readByte a = unlisted := by
  cases m with
  | nil => rfl
  | cons y rest =>
    have := h y (by simp)
    simp only [readByte]
    rw [if_neg (by omega), if_pos this]

/-- A read after a write to the same address gives the byte written. -/
theorem Memory.readByte_writeByte_same {m : Memory} (h : m.wf) (a : Nat) (v : Byte) :
    (m.writeByte a v).readByte a = v := by
  induction m with
  | nil =>
    simp only [writeByte, cons]
    split <;> simp_all [readByte]
  | cons y rest ih =>
    obtain ⟨h1, h2⟩ := List.pairwise_cons.1 h.1
    have hrest : Memory.wf rest := ⟨h2, fun x hx => h.2 x (by simp [hx])⟩
    simp only [writeByte, cons]
    split
    · rename_i hlt
      split
      · rename_i hv
        simp only [readByte]
        rw [if_neg (by omega), if_pos hlt, hv]
      · simp [readByte]
    · split
      · rename_i heq
        split
        · rename_i hv
          rw [readByte_of_lt (fun x hx => by have := h1 x hx; omega), hv]
        · simp [readByte]
      · simp only [readByte]
        rw [if_neg (by omega), if_neg (by omega), ih hrest]

/-- A write leaves every other byte as it was. -/
theorem Memory.readByte_writeByte_ne {m : Memory} (h : m.wf) {a b : Nat} (hab : b ≠ a) (v : Byte) :
    (m.writeByte a v).readByte b = m.readByte b := by
  induction m with
  | nil =>
    simp only [writeByte, cons]
    split <;> simp [readByte, hab]
  | cons y rest ih =>
    obtain ⟨h1, h2⟩ := List.pairwise_cons.1 h.1
    have hrest : Memory.wf rest := ⟨h2, fun x hx => h.2 x (by simp [hx])⟩
    simp only [writeByte, cons]
    split
    · rename_i hlt
      split
      · rfl
      · simp only [readByte]
        rw [if_neg hab]
        by_cases hb : b < a
        · rw [if_pos hb, if_neg (by omega), if_pos (by omega)]
        · rw [if_neg hb]
    · split
      · rename_i heq
        split
        · simp only [readByte]
          rw [if_neg (by omega)]
          split
          · exact readByte_of_lt (fun x hx => by have := h1 x hx; omega)
          · rfl
        · simp only [readByte]
          rw [← heq, if_neg hab, if_neg hab]
      · simp only [readByte, ih hrest]

/-- A wide write keeps the canonical form. -/
theorem Memory.write_wf {m : Memory} (h : m.wf) (a n v : Nat) : (m.write a n v).wf := by
  induction n generalizing m a v with
  | zero => exact h
  | succ n ih => exact ih (writeByte_wf h _ _) _ _

/-- A wide write leaves the bytes outside it as they were. -/
theorem Memory.readByte_write_ne {m : Memory} (h : m.wf) {a n b : Nat} (hb : b < a ∨ a + n ≤ b) (v : Nat) :
    (m.write a n v).readByte b = m.readByte b := by
  induction n generalizing m a v with
  | zero => rfl
  | succ n ih =>
    rw [write, ih (writeByte_wf h _ _) (by omega), readByte_writeByte_ne h (by omega)]

/-- A wide read sees a wide write elsewhere not at all. -/
theorem Memory.read_write_disjoint {m : Memory} (h : m.wf) {a n b k : Nat} (hd : b + k ≤ a ∨ a + n ≤ b) (v : Nat) :
    (m.write a n v).read b k = m.read b k := by
  induction k generalizing b with
  | zero => rfl
  | succ k ih =>
    simp only [read]
    rw [readByte_write_ne h (by omega), ih (by omega)]

/-- A wide read after a wide write to the same place gives the low bytes of what was written. -/
theorem Memory.read_write_same {m : Memory} (h : m.wf) (a n v : Nat) : (m.write a n v).read a n = v % 256 ^ n := by
  induction n generalizing m a v with
  | zero => simp [read, Nat.mod_one]
  | succ n ih =>
    have hv : v % 256 ^ (n + 1) = v % 256 + 256 * (v / 256 % 256 ^ n) := by
      rw [pow_succ, Nat.mul_comm, Nat.mod_mul]
    rw [write, read, ih (writeByte_wf h _ _), readByte_write_ne (writeByte_wf h _ _) (by omega),
      readByte_writeByte_same h, BitVec.toNat_ofNat, hv]

/-- A wide write lists only addresses inside it or listed before. -/
theorem Memory.mem_write {m : Memory} {a n v : Nat} {x : Host.Cell} (h : x ∈ m.write a n v) :
    x ∈ m ∨ (a ≤ x.1 ∧ x.1 < a + n) := by
  induction n generalizing m a v with
  | zero => exact .inl h
  | succ n ih =>
    rcases ih h with h | h
    · rcases mem_writeByte h with h | ⟨rfl, -⟩
      · exact .inl h
      · exact .inr ⟨le_refl _, by simp⟩
    · exact .inr ⟨by omega, by omega⟩

/-! The entries of SEG and PAL. -/

theorem setSegLen_wf {m : Memory} (h : m.wf) (k : Nat) (v : Half) : (setSegLen k v m).wf := write_wf h _ _ _

theorem setSegColor_wf {m : Memory} (h : m.wf) (k : Nat) (v : Word) : (setSegColor k v m).wf := write_wf h _ _ _

theorem setPal_wf {m : Memory} (h : m.wf) (k : Nat) (v : Word) : (setPal k v m).wf := write_wf h _ _ _

theorem segLen_setSegLen {m : Memory} (h : m.wf) (k j : Nat) (v : Half) :
    segLen (setSegLen k v m) j = if j = k then v else segLen m j := by
  unfold segLen setSegLen
  split
  · rename_i hjk
    subst hjk
    rw [read_write_same h]
    apply BitVec.eq_of_toNat_eq
    have := v.isLt
    simp only [BitVec.toNat_ofNat]
    omega
  · rw [read_write_disjoint h]
    simp only [segLenAddr]
    omega

theorem segColor_setSegColor {m : Memory} (h : m.wf) (k j : Nat) (v : Word) :
    segColor (setSegColor k v m) j = if j = k then v else segColor m j := by
  unfold segColor setSegColor
  split
  · rename_i hjk
    subst hjk
    rw [read_write_same h]
    apply BitVec.eq_of_toNat_eq
    have := v.isLt
    simp only [BitVec.toNat_ofNat]
    omega
  · rw [read_write_disjoint h]
    simp only [segColorAddr]
    omega

theorem pal_setPal {m : Memory} (h : m.wf) (k j : Nat) (v : Word) :
    pal (setPal k v m) j = if j = k then v else pal m j := by
  unfold pal setPal
  split
  · rename_i hjk
    subst hjk
    rw [read_write_same h]
    apply BitVec.eq_of_toNat_eq
    have := v.isLt
    simp only [BitVec.toNat_ofNat]
    omega
  · rw [read_write_disjoint h]
    simp only [palAddr]
    omega

theorem segColor_setSegLen {m : Memory} (h : m.wf) (k j : Nat) (v : Half) :
    segColor (setSegLen k v m) j = segColor m j := by
  unfold segColor setSegLen
  rw [read_write_disjoint h]
  simp only [segLenAddr, segColorAddr]
  omega

theorem segLen_setSegColor {m : Memory} (h : m.wf) (k j : Nat) (v : Word) :
    segLen (setSegColor k v m) j = segLen m j := by
  unfold segLen setSegColor
  rw [read_write_disjoint h]
  simp only [segLenAddr, segColorAddr]
  omega

/-- SEG ends below PAL, since SEG_CAP is at most 255 (20_memory.md R65). -/
theorem pal_setSegLen {m : Memory} (h : m.wf) {k : Nat} (hk : k < 255) (j : Nat) (v : Half) :
    pal (setSegLen k v m) j = pal m j := by
  unfold pal setSegLen
  rw [read_write_disjoint h]
  simp only [segLenAddr, palAddr]
  omega

theorem pal_setSegColor {m : Memory} (h : m.wf) {k : Nat} (hk : k < 255) (j : Nat) (v : Word) :
    pal (setSegColor k v m) j = pal m j := by
  unfold pal setSegColor
  rw [read_write_disjoint h]
  simp only [segColorAddr, palAddr]
  omega

theorem segLen_setPal {m : Memory} (h : m.wf) (k : Nat) {j : Nat} (hj : j < 255) (v : Word) :
    segLen (setPal k v m) j = segLen m j := by
  unfold segLen setPal
  rw [read_write_disjoint h]
  simp only [segLenAddr, palAddr]
  omega

theorem segColor_setPal {m : Memory} (h : m.wf) (k : Nat) {j : Nat} (hj : j < 255) (v : Word) :
    segColor (setPal k v m) j = segColor m j := by
  unfold segColor setPal
  rw [read_write_disjoint h]
  simp only [segColorAddr, palAddr]
  omega

/-- What the loop of SEG_BUILD_EVEN leaves (41_pipeline.md R181): the canonical form kept, `j` segments written, the
entries from `j` on and the palette as before. -/
theorem buildSegments_spec {m : Memory} (h : m.wf) (n rot p : Nat) {j : Nat} (hj : j ≤ 255) :
    (buildSegments n rot p j m).wf ∧
      (∀ k, segLen (buildSegments n rot p j m) k = if k < j then BitVec.ofNat 16 (evenLen k n p) else segLen m k) ∧
      (∀ k, segColor (buildSegments n rot p j m) k = if k < j then pal m ((k + rot) % n) else segColor m k) ∧
      ∀ k, pal (buildSegments n rot p j m) k = pal m k := by
  induction j with
  | zero => exact ⟨h, fun _ => rfl, fun _ => rfl, fun _ => rfl⟩
  | succ j ih =>
    obtain ⟨hw, hl, hc, hp⟩ := ih (by omega)
    have hw' := setSegLen_wf hw j (BitVec.ofNat 16 (evenLen j n p))
    refine ⟨setSegColor_wf hw' _ _, fun k => ?_, fun k => ?_, fun k => ?_⟩
    · simp only [buildSegments]
      rw [segLen_setSegColor hw', segLen_setSegLen hw, hl]
      by_cases hk : k = j
      · simp [hk]
      · rw [if_neg hk]
        exact if_congr (by omega) rfl rfl
    · simp only [buildSegments]
      rw [segColor_setSegColor hw', segColor_setSegLen hw, hc, hp]
      by_cases hk : k = j
      · simp [hk]
      · rw [if_neg hk]
        exact if_congr (by omega) rfl rfl
    · simp only [buildSegments]
      rw [pal_setSegColor hw' (by omega), pal_setSegLen hw (by omega), hp]

/-- The loop of SEG_BUILD_EVEN stores to the SEG entries it writes and to no other byte (41_pipeline.md R181). -/
theorem buildSegments_readByte {m : Memory} (h : m.wf) (n rot p : Nat) {j : Nat} (hj : j ≤ 255) {a : Nat}
    (ha : ∀ k < j, (a < segLenAddr k ∨ segLenAddr k + 2 ≤ a) ∧ (a < segColorAddr k ∨ segColorAddr k + 4 ≤ a)) :
    (buildSegments n rot p j m).readByte a = m.readByte a := by
  induction j with
  | zero => rfl
  | succ j ih =>
    have hw := (buildSegments_spec h n rot p (show j ≤ 255 by omega)).1
    have hw' := setSegLen_wf hw j (BitVec.ofNat 16 (evenLen j n p))
    have h1 := ha j (by omega)
    simp only [buildSegments]
    rw [setSegColor, Memory.readByte_write_ne hw' h1.2, setSegLen, Memory.readByte_write_ne hw h1.1]
    exact ih (by omega) fun k hk => ha k (by omega)

/-- The memory of a reset block is in its canonical form. -/
theorem reset_mem_wf (c : Config) (e : Env) : (State.resetIn c e).mem.wf := ⟨.nil, by simp [State.resetIn]⟩

theorem MemOk_setSegLen {c : Config} {m : Memory} (h : MemOk c m) {k : Nat} (hk : k < c.segCap) (v : Half) :
    MemOk c (setSegLen k v m) := by
  refine ⟨setSegLen_wf h.1 _ _, fun x hx => ?_⟩
  rcases mem_write hx with hx | hx
  · exact h.2 x hx
  · simp only [segLenAddr] at hx
    left
    omega

theorem MemOk_setSegColor {c : Config} {m : Memory} (h : MemOk c m) {k : Nat} (hk : k < c.segCap) (v : Word) :
    MemOk c (setSegColor k v m) := by
  refine ⟨setSegColor_wf h.1 _ _, fun x hx => ?_⟩
  rcases mem_write hx with hx | hx
  · exact h.2 x hx
  · simp only [segColorAddr] at hx
    left
    omega

theorem MemOk_setPal {c : Config} {m : Memory} (h : MemOk c m) {k : Nat} (hk : k < c.palCap) (v : Word) :
    MemOk c (setPal k v m) := by
  refine ⟨setPal_wf h.1 _ _, fun x hx => ?_⟩
  rcases mem_write hx with hx | hx
  · exact h.2 x hx
  · simp only [palAddr] at hx
    right
    omega

theorem MemOk_buildSegments {c : Config} {m : Memory} (h : MemOk c m) (n rot p : Nat) {j : Nat} (hj : j ≤ c.segCap) :
    MemOk c (buildSegments n rot p j m) := by
  induction j with
  | zero => exact h
  | succ j ih => exact MemOk_setSegColor (MemOk_setSegLen (ih (by omega)) (by omega) _) (by omega) _

end Sys2Proof.Machine
end

