-- ==== Sys2Proof/Laws/State.lean ====
section
/-! SUPPORT. One lemma per field of the state per named update, true by definition: what each update writes and that it
leaves every other field alone. Proofs rewrite with these and never unfold a record update. -/

namespace Sys2Proof.Machine

variable (s : State)

@[simp] theorem raiseErr_cfg (e : ErrCode) : (raiseErr e s).cfg = s.cfg := rfl
@[simp] theorem raiseErr_env (e : ErrCode) : (raiseErr e s).env = s.env := rfl
@[simp] theorem raiseErr_arg0 (e : ErrCode) : (raiseErr e s).arg0 = s.arg0 := rfl
@[simp] theorem raiseErr_arg1 (e : ErrCode) : (raiseErr e s).arg1 = s.arg1 := rfl
@[simp] theorem raiseErr_arg2 (e : ErrCode) : (raiseErr e s).arg2 = s.arg2 := rfl
@[simp] theorem raiseErr_arg3 (e : ErrCode) : (raiseErr e s).arg3 = s.arg3 := rfl
@[simp] theorem raiseErr_cmdLast (e : ErrCode) : (raiseErr e s).cmdLast = s.cmdLast := rfl
@[simp] theorem raiseErr_sticky (e : ErrCode) : (raiseErr e s).sticky = s.sticky ||| errBit e := rfl
@[simp] theorem raiseErr_lastErr (e : ErrCode) : (raiseErr e s).lastErr = BitVec.ofNat 8 (errCode e) := rfl
@[simp] theorem raiseErr_result (e : ErrCode) : (raiseErr e s).result = s.result := rfl
@[simp] theorem raiseErr_active (e : ErrCode) : (raiseErr e s).active = s.active := rfl
@[simp] theorem raiseErr_segCount (e : ErrCode) : (raiseErr e s).segCount = s.segCount := rfl
@[simp] theorem raiseErr_palLen (e : ErrCode) : (raiseErr e s).palLen = s.palLen := rfl
@[simp] theorem raiseErr_frameCount (e : ErrCode) : (raiseErr e s).frameCount = s.frameCount := rfl
@[simp] theorem raiseErr_mem (e : ErrCode) : (raiseErr e s).mem = s.mem := rfl
@[simp] theorem raiseErr_spb (e : ErrCode) : (raiseErr e s).spb = s.spb := rfl
@[simp] theorem raiseErr_fade (e : ErrCode) : (raiseErr e s).fade = s.fade := rfl
@[simp] theorem raiseErr_breathe (e : ErrCode) : (raiseErr e s).breathe = s.breathe := rfl
@[simp] theorem raiseErr_rainbow (e : ErrCode) : (raiseErr e s).rainbow = s.rainbow := rfl
@[simp] theorem raiseErr_swap (e : ErrCode) : (raiseErr e s).swap = s.swap := rfl
@[simp] theorem raiseErr_rain (e : ErrCode) : (raiseErr e s).rain = s.rain := rfl
@[simp] theorem raiseErr_wipe (e : ErrCode) : (raiseErr e s).wipe = s.wipe := rfl
@[simp] theorem raiseErr_gatePrev (e : ErrCode) : (raiseErr e s).gatePrev = s.gatePrev := rfl
@[simp] theorem raiseErr_enc (e : ErrCode) : (raiseErr e s).enc = s.enc := rfl

@[simp] theorem clearErrors_cfg (v : Word) : (clearErrors v s).cfg = s.cfg := rfl
@[simp] theorem clearErrors_env (v : Word) : (clearErrors v s).env = s.env := rfl
@[simp] theorem clearErrors_arg0 (v : Word) : (clearErrors v s).arg0 = s.arg0 := rfl
@[simp] theorem clearErrors_arg1 (v : Word) : (clearErrors v s).arg1 = s.arg1 := rfl
@[simp] theorem clearErrors_arg2 (v : Word) : (clearErrors v s).arg2 = s.arg2 := rfl
@[simp] theorem clearErrors_arg3 (v : Word) : (clearErrors v s).arg3 = s.arg3 := rfl
@[simp] theorem clearErrors_cmdLast (v : Word) : (clearErrors v s).cmdLast = s.cmdLast := rfl
@[simp] theorem clearErrors_sticky (v : Word) : (clearErrors v s).sticky = s.sticky &&& ~~~(v.extractLsb' 8 6) := rfl
@[simp] theorem clearErrors_lastErr (v : Word) : (clearErrors v s).lastErr = if s.sticky &&& ~~~(v.extractLsb' 8 6) = 0#6 then 0#8 else s.lastErr := rfl
@[simp] theorem clearErrors_result (v : Word) : (clearErrors v s).result = s.result := rfl
@[simp] theorem clearErrors_active (v : Word) : (clearErrors v s).active = s.active := rfl
@[simp] theorem clearErrors_segCount (v : Word) : (clearErrors v s).segCount = s.segCount := rfl
@[simp] theorem clearErrors_palLen (v : Word) : (clearErrors v s).palLen = s.palLen := rfl
@[simp] theorem clearErrors_frameCount (v : Word) : (clearErrors v s).frameCount = s.frameCount := rfl
@[simp] theorem clearErrors_mem (v : Word) : (clearErrors v s).mem = s.mem := rfl
@[simp] theorem clearErrors_spb (v : Word) : (clearErrors v s).spb = s.spb := rfl
@[simp] theorem clearErrors_fade (v : Word) : (clearErrors v s).fade = s.fade := rfl
@[simp] theorem clearErrors_breathe (v : Word) : (clearErrors v s).breathe = s.breathe := rfl
@[simp] theorem clearErrors_rainbow (v : Word) : (clearErrors v s).rainbow = s.rainbow := rfl
@[simp] theorem clearErrors_swap (v : Word) : (clearErrors v s).swap = s.swap := rfl
@[simp] theorem clearErrors_rain (v : Word) : (clearErrors v s).rain = s.rain := rfl
@[simp] theorem clearErrors_wipe (v : Word) : (clearErrors v s).wipe = s.wipe := rfl
@[simp] theorem clearErrors_gatePrev (v : Word) : (clearErrors v s).gatePrev = s.gatePrev := rfl
@[simp] theorem clearErrors_enc (v : Word) : (clearErrors v s).enc = s.enc := rfl

@[simp] theorem setResult_cfg (v : Word) : (setResult v s).cfg = s.cfg := rfl
@[simp] theorem setResult_env (v : Word) : (setResult v s).env = s.env := rfl
@[simp] theorem setResult_arg0 (v : Word) : (setResult v s).arg0 = s.arg0 := rfl
@[simp] theorem setResult_arg1 (v : Word) : (setResult v s).arg1 = s.arg1 := rfl
@[simp] theorem setResult_arg2 (v : Word) : (setResult v s).arg2 = s.arg2 := rfl
@[simp] theorem setResult_arg3 (v : Word) : (setResult v s).arg3 = s.arg3 := rfl
@[simp] theorem setResult_cmdLast (v : Word) : (setResult v s).cmdLast = s.cmdLast := rfl
@[simp] theorem setResult_sticky (v : Word) : (setResult v s).sticky = s.sticky := rfl
@[simp] theorem setResult_lastErr (v : Word) : (setResult v s).lastErr = s.lastErr := rfl
@[simp] theorem setResult_result (v : Word) : (setResult v s).result = v := rfl
@[simp] theorem setResult_active (v : Word) : (setResult v s).active = s.active := rfl
@[simp] theorem setResult_segCount (v : Word) : (setResult v s).segCount = s.segCount := rfl
@[simp] theorem setResult_palLen (v : Word) : (setResult v s).palLen = s.palLen := rfl
@[simp] theorem setResult_frameCount (v : Word) : (setResult v s).frameCount = s.frameCount := rfl
@[simp] theorem setResult_mem (v : Word) : (setResult v s).mem = s.mem := rfl
@[simp] theorem setResult_spb (v : Word) : (setResult v s).spb = s.spb := rfl
@[simp] theorem setResult_fade (v : Word) : (setResult v s).fade = s.fade := rfl
@[simp] theorem setResult_breathe (v : Word) : (setResult v s).breathe = s.breathe := rfl
@[simp] theorem setResult_rainbow (v : Word) : (setResult v s).rainbow = s.rainbow := rfl
@[simp] theorem setResult_swap (v : Word) : (setResult v s).swap = s.swap := rfl
@[simp] theorem setResult_rain (v : Word) : (setResult v s).rain = s.rain := rfl
@[simp] theorem setResult_wipe (v : Word) : (setResult v s).wipe = s.wipe := rfl
@[simp] theorem setResult_gatePrev (v : Word) : (setResult v s).gatePrev = s.gatePrev := rfl
@[simp] theorem setResult_enc (v : Word) : (setResult v s).enc = s.enc := rfl

@[simp] theorem flagResult_cfg (i : Nat) : (flagResult i s).cfg = s.cfg := rfl
@[simp] theorem flagResult_env (i : Nat) : (flagResult i s).env = s.env := rfl
@[simp] theorem flagResult_arg0 (i : Nat) : (flagResult i s).arg0 = s.arg0 := rfl
@[simp] theorem flagResult_arg1 (i : Nat) : (flagResult i s).arg1 = s.arg1 := rfl
@[simp] theorem flagResult_arg2 (i : Nat) : (flagResult i s).arg2 = s.arg2 := rfl
@[simp] theorem flagResult_arg3 (i : Nat) : (flagResult i s).arg3 = s.arg3 := rfl
@[simp] theorem flagResult_cmdLast (i : Nat) : (flagResult i s).cmdLast = s.cmdLast := rfl
@[simp] theorem flagResult_sticky (i : Nat) : (flagResult i s).sticky = s.sticky := rfl
@[simp] theorem flagResult_lastErr (i : Nat) : (flagResult i s).lastErr = s.lastErr := rfl
@[simp] theorem flagResult_result (i : Nat) : (flagResult i s).result = setBitWord s.result i := rfl
@[simp] theorem flagResult_active (i : Nat) : (flagResult i s).active = s.active := rfl
@[simp] theorem flagResult_segCount (i : Nat) : (flagResult i s).segCount = s.segCount := rfl
@[simp] theorem flagResult_palLen (i : Nat) : (flagResult i s).palLen = s.palLen := rfl
@[simp] theorem flagResult_frameCount (i : Nat) : (flagResult i s).frameCount = s.frameCount := rfl
@[simp] theorem flagResult_mem (i : Nat) : (flagResult i s).mem = s.mem := rfl
@[simp] theorem flagResult_spb (i : Nat) : (flagResult i s).spb = s.spb := rfl
@[simp] theorem flagResult_fade (i : Nat) : (flagResult i s).fade = s.fade := rfl
@[simp] theorem flagResult_breathe (i : Nat) : (flagResult i s).breathe = s.breathe := rfl
@[simp] theorem flagResult_rainbow (i : Nat) : (flagResult i s).rainbow = s.rainbow := rfl
@[simp] theorem flagResult_swap (i : Nat) : (flagResult i s).swap = s.swap := rfl
@[simp] theorem flagResult_rain (i : Nat) : (flagResult i s).rain = s.rain := rfl
@[simp] theorem flagResult_wipe (i : Nat) : (flagResult i s).wipe = s.wipe := rfl
@[simp] theorem flagResult_gatePrev (i : Nat) : (flagResult i s).gatePrev = s.gatePrev := rfl
@[simp] theorem flagResult_enc (i : Nat) : (flagResult i s).enc = s.enc := rfl

@[simp] theorem drawRand_cfg : (drawRand s).cfg = s.cfg := rfl
@[simp] theorem drawRand_env : (drawRand s).env = { s.env with rands := s.env.rands.tail, draws := s.env.draws + 1 } := rfl
@[simp] theorem drawRand_arg0 : (drawRand s).arg0 = s.arg0 := rfl
@[simp] theorem drawRand_arg1 : (drawRand s).arg1 = s.arg1 := rfl
@[simp] theorem drawRand_arg2 : (drawRand s).arg2 = s.arg2 := rfl
@[simp] theorem drawRand_arg3 : (drawRand s).arg3 = s.arg3 := rfl
@[simp] theorem drawRand_cmdLast : (drawRand s).cmdLast = s.cmdLast := rfl
@[simp] theorem drawRand_sticky : (drawRand s).sticky = s.sticky := rfl
@[simp] theorem drawRand_lastErr : (drawRand s).lastErr = s.lastErr := rfl
@[simp] theorem drawRand_result : (drawRand s).result = s.result := rfl
@[simp] theorem drawRand_active : (drawRand s).active = s.active := rfl
@[simp] theorem drawRand_segCount : (drawRand s).segCount = s.segCount := rfl
@[simp] theorem drawRand_palLen : (drawRand s).palLen = s.palLen := rfl
@[simp] theorem drawRand_frameCount : (drawRand s).frameCount = s.frameCount := rfl
@[simp] theorem drawRand_mem : (drawRand s).mem = s.mem := rfl
@[simp] theorem drawRand_spb : (drawRand s).spb = s.spb := rfl
@[simp] theorem drawRand_fade : (drawRand s).fade = s.fade := rfl
@[simp] theorem drawRand_breathe : (drawRand s).breathe = s.breathe := rfl
@[simp] theorem drawRand_rainbow : (drawRand s).rainbow = s.rainbow := rfl
@[simp] theorem drawRand_swap : (drawRand s).swap = s.swap := rfl
@[simp] theorem drawRand_rain : (drawRand s).rain = s.rain := rfl
@[simp] theorem drawRand_wipe : (drawRand s).wipe = s.wipe := rfl
@[simp] theorem drawRand_gatePrev : (drawRand s).gatePrev = s.gatePrev := rfl
@[simp] theorem drawRand_enc : (drawRand s).enc = s.enc := rfl

@[simp] theorem emit_cfg (F : List Byte) : (emit F s).cfg = s.cfg := rfl
@[simp] theorem emit_env (F : List Byte) : (emit F s).env = s.env := rfl
@[simp] theorem emit_arg0 (F : List Byte) : (emit F s).arg0 = s.arg0 := rfl
@[simp] theorem emit_arg1 (F : List Byte) : (emit F s).arg1 = s.arg1 := rfl
@[simp] theorem emit_arg2 (F : List Byte) : (emit F s).arg2 = s.arg2 := rfl
@[simp] theorem emit_arg3 (F : List Byte) : (emit F s).arg3 = s.arg3 := rfl
@[simp] theorem emit_cmdLast (F : List Byte) : (emit F s).cmdLast = s.cmdLast := rfl
@[simp] theorem emit_sticky (F : List Byte) : (emit F s).sticky = s.sticky := rfl
@[simp] theorem emit_lastErr (F : List Byte) : (emit F s).lastErr = s.lastErr := rfl
@[simp] theorem emit_result (F : List Byte) : (emit F s).result = s.result := rfl
@[simp] theorem emit_active (F : List Byte) : (emit F s).active = s.active := rfl
@[simp] theorem emit_segCount (F : List Byte) : (emit F s).segCount = s.segCount := rfl
@[simp] theorem emit_palLen (F : List Byte) : (emit F s).palLen = s.palLen := rfl
@[simp] theorem emit_frameCount (F : List Byte) : (emit F s).frameCount = s.frameCount + 1#32 := rfl
@[simp] theorem emit_mem (F : List Byte) : (emit F s).mem = s.mem := rfl
@[simp] theorem emit_spb (F : List Byte) : (emit F s).spb = s.spb := rfl
@[simp] theorem emit_fade (F : List Byte) : (emit F s).fade = s.fade := rfl
@[simp] theorem emit_breathe (F : List Byte) : (emit F s).breathe = s.breathe := rfl
@[simp] theorem emit_rainbow (F : List Byte) : (emit F s).rainbow = s.rainbow := rfl
@[simp] theorem emit_swap (F : List Byte) : (emit F s).swap = s.swap := rfl
@[simp] theorem emit_rain (F : List Byte) : (emit F s).rain = s.rain := rfl
@[simp] theorem emit_wipe (F : List Byte) : (emit F s).wipe = s.wipe := rfl
@[simp] theorem emit_gatePrev (F : List Byte) : (emit F s).gatePrev = s.gatePrev := rfl
@[simp] theorem emit_enc (F : List Byte) : (emit F s).enc = startFrame s.cfg F := rfl

@[simp] theorem showPixels_cfg (px : List RGB) : (showPixels px s).cfg = s.cfg := rfl
@[simp] theorem showPixels_env (px : List RGB) : (showPixels px s).env = s.env := rfl
@[simp] theorem showPixels_arg0 (px : List RGB) : (showPixels px s).arg0 = s.arg0 := rfl
@[simp] theorem showPixels_arg1 (px : List RGB) : (showPixels px s).arg1 = s.arg1 := rfl
@[simp] theorem showPixels_arg2 (px : List RGB) : (showPixels px s).arg2 = s.arg2 := rfl
@[simp] theorem showPixels_arg3 (px : List RGB) : (showPixels px s).arg3 = s.arg3 := rfl
@[simp] theorem showPixels_cmdLast (px : List RGB) : (showPixels px s).cmdLast = s.cmdLast := rfl
@[simp] theorem showPixels_sticky (px : List RGB) : (showPixels px s).sticky = s.sticky := rfl
@[simp] theorem showPixels_lastErr (px : List RGB) : (showPixels px s).lastErr = s.lastErr := rfl
@[simp] theorem showPixels_result (px : List RGB) : (showPixels px s).result = s.result := rfl
@[simp] theorem showPixels_active (px : List RGB) : (showPixels px s).active = s.active := rfl
@[simp] theorem showPixels_segCount (px : List RGB) : (showPixels px s).segCount = s.segCount := rfl
@[simp] theorem showPixels_palLen (px : List RGB) : (showPixels px s).palLen = s.palLen := rfl
@[simp] theorem showPixels_frameCount (px : List RGB) : (showPixels px s).frameCount = s.frameCount + 1#32 := rfl
@[simp] theorem showPixels_mem (px : List RGB) : (showPixels px s).mem = s.mem := rfl
@[simp] theorem showPixels_spb (px : List RGB) : (showPixels px s).spb = s.spb := rfl
@[simp] theorem showPixels_fade (px : List RGB) : (showPixels px s).fade = s.fade := rfl
@[simp] theorem showPixels_breathe (px : List RGB) : (showPixels px s).breathe = s.breathe := rfl
@[simp] theorem showPixels_rainbow (px : List RGB) : (showPixels px s).rainbow = s.rainbow := rfl
@[simp] theorem showPixels_swap (px : List RGB) : (showPixels px s).swap = s.swap := rfl
@[simp] theorem showPixels_rain (px : List RGB) : (showPixels px s).rain = s.rain := rfl
@[simp] theorem showPixels_wipe (px : List RGB) : (showPixels px s).wipe = s.wipe := rfl
@[simp] theorem showPixels_gatePrev (px : List RGB) : (showPixels px s).gatePrev = s.gatePrev := rfl
@[simp] theorem showPixels_enc (px : List RGB) : (showPixels px s).enc = startFrame s.cfg (frameOf s.cfg (px.map fun c => applyBrightness c (opBr s))) := rfl

@[simp] theorem sampleGate_cfg (a : Anim) : (sampleGate a s).cfg = s.cfg := rfl
@[simp] theorem sampleGate_env (a : Anim) : (sampleGate a s).env = s.env := rfl
@[simp] theorem sampleGate_arg0 (a : Anim) : (sampleGate a s).arg0 = s.arg0 := rfl
@[simp] theorem sampleGate_arg1 (a : Anim) : (sampleGate a s).arg1 = s.arg1 := rfl
@[simp] theorem sampleGate_arg2 (a : Anim) : (sampleGate a s).arg2 = s.arg2 := rfl
@[simp] theorem sampleGate_arg3 (a : Anim) : (sampleGate a s).arg3 = s.arg3 := rfl
@[simp] theorem sampleGate_cmdLast (a : Anim) : (sampleGate a s).cmdLast = s.cmdLast := rfl
@[simp] theorem sampleGate_sticky (a : Anim) : (sampleGate a s).sticky = s.sticky := rfl
@[simp] theorem sampleGate_lastErr (a : Anim) : (sampleGate a s).lastErr = s.lastErr := rfl
@[simp] theorem sampleGate_result (a : Anim) : (sampleGate a s).result = s.result := rfl
@[simp] theorem sampleGate_active (a : Anim) : (sampleGate a s).active = s.active := rfl
@[simp] theorem sampleGate_segCount (a : Anim) : (sampleGate a s).segCount = s.segCount := rfl
@[simp] theorem sampleGate_palLen (a : Anim) : (sampleGate a s).palLen = s.palLen := rfl
@[simp] theorem sampleGate_frameCount (a : Anim) : (sampleGate a s).frameCount = s.frameCount := rfl
@[simp] theorem sampleGate_mem (a : Anim) : (sampleGate a s).mem = s.mem := rfl
@[simp] theorem sampleGate_spb (a : Anim) : (sampleGate a s).spb = s.spb := rfl
@[simp] theorem sampleGate_fade (a : Anim) : (sampleGate a s).fade = s.fade := rfl
@[simp] theorem sampleGate_breathe (a : Anim) : (sampleGate a s).breathe = s.breathe := rfl
@[simp] theorem sampleGate_rainbow (a : Anim) : (sampleGate a s).rainbow = s.rainbow := rfl
@[simp] theorem sampleGate_swap (a : Anim) : (sampleGate a s).swap = s.swap := rfl
@[simp] theorem sampleGate_rain (a : Anim) : (sampleGate a s).rain = s.rain := rfl
@[simp] theorem sampleGate_wipe (a : Anim) : (sampleGate a s).wipe = s.wipe := rfl
@[simp] theorem sampleGate_gatePrev (a : Anim) : (sampleGate a s).gatePrev = setGateBit s.gatePrev (animIndex a) s.gate := rfl
@[simp] theorem sampleGate_enc (a : Anim) : (sampleGate a s).enc = s.enc := rfl

@[simp] theorem acceptWord_cfg (w : Word) : (acceptWord w s).cfg = s.cfg := rfl
@[simp] theorem acceptWord_env (w : Word) : (acceptWord w s).env = s.env := rfl
@[simp] theorem acceptWord_arg0 (w : Word) : (acceptWord w s).arg0 = s.arg0 := rfl
@[simp] theorem acceptWord_arg1 (w : Word) : (acceptWord w s).arg1 = s.arg1 := rfl
@[simp] theorem acceptWord_arg2 (w : Word) : (acceptWord w s).arg2 = s.arg2 := rfl
@[simp] theorem acceptWord_arg3 (w : Word) : (acceptWord w s).arg3 = s.arg3 := rfl
@[simp] theorem acceptWord_cmdLast (w : Word) : (acceptWord w s).cmdLast = w := rfl
@[simp] theorem acceptWord_sticky (w : Word) : (acceptWord w s).sticky = s.sticky := rfl
@[simp] theorem acceptWord_lastErr (w : Word) : (acceptWord w s).lastErr = s.lastErr := rfl
@[simp] theorem acceptWord_result (w : Word) : (acceptWord w s).result = 0#32 := rfl
@[simp] theorem acceptWord_active (w : Word) : (acceptWord w s).active = s.active := rfl
@[simp] theorem acceptWord_segCount (w : Word) : (acceptWord w s).segCount = s.segCount := rfl
@[simp] theorem acceptWord_palLen (w : Word) : (acceptWord w s).palLen = s.palLen := rfl
@[simp] theorem acceptWord_frameCount (w : Word) : (acceptWord w s).frameCount = s.frameCount := rfl
@[simp] theorem acceptWord_mem (w : Word) : (acceptWord w s).mem = s.mem := rfl
@[simp] theorem acceptWord_spb (w : Word) : (acceptWord w s).spb = s.spb := rfl
@[simp] theorem acceptWord_fade (w : Word) : (acceptWord w s).fade = s.fade := rfl
@[simp] theorem acceptWord_breathe (w : Word) : (acceptWord w s).breathe = s.breathe := rfl
@[simp] theorem acceptWord_rainbow (w : Word) : (acceptWord w s).rainbow = s.rainbow := rfl
@[simp] theorem acceptWord_swap (w : Word) : (acceptWord w s).swap = s.swap := rfl
@[simp] theorem acceptWord_rain (w : Word) : (acceptWord w s).rain = s.rain := rfl
@[simp] theorem acceptWord_wipe (w : Word) : (acceptWord w s).wipe = s.wipe := rfl
@[simp] theorem acceptWord_gatePrev (w : Word) : (acceptWord w s).gatePrev = s.gatePrev := rfl
@[simp] theorem acceptWord_enc (w : Word) : (acceptWord w s).enc = s.enc := rfl

@[simp] theorem sampleInputs_cfg : (sampleInputs s).cfg = s.cfg := rfl
@[simp] theorem sampleInputs_env : (sampleInputs s).env = { s.env with samples := s.env.samples + 1 } := rfl
@[simp] theorem sampleInputs_arg0 : (sampleInputs s).arg0 = s.arg0 := rfl
@[simp] theorem sampleInputs_arg1 : (sampleInputs s).arg1 = s.arg1 := rfl
@[simp] theorem sampleInputs_arg2 : (sampleInputs s).arg2 = s.arg2 := rfl
@[simp] theorem sampleInputs_arg3 : (sampleInputs s).arg3 = s.arg3 := rfl
@[simp] theorem sampleInputs_cmdLast : (sampleInputs s).cmdLast = s.cmdLast := rfl
@[simp] theorem sampleInputs_sticky : (sampleInputs s).sticky = s.sticky := rfl
@[simp] theorem sampleInputs_lastErr : (sampleInputs s).lastErr = s.lastErr := rfl
@[simp] theorem sampleInputs_result : (sampleInputs s).result = s.result := rfl
@[simp] theorem sampleInputs_active : (sampleInputs s).active = s.active := rfl
@[simp] theorem sampleInputs_segCount : (sampleInputs s).segCount = s.segCount := rfl
@[simp] theorem sampleInputs_palLen : (sampleInputs s).palLen = s.palLen := rfl
@[simp] theorem sampleInputs_frameCount : (sampleInputs s).frameCount = s.frameCount := rfl
@[simp] theorem sampleInputs_mem : (sampleInputs s).mem = s.mem := rfl
@[simp] theorem sampleInputs_spb : (sampleInputs s).spb = s.spb := rfl
@[simp] theorem sampleInputs_fade : (sampleInputs s).fade = s.fade := rfl
@[simp] theorem sampleInputs_breathe : (sampleInputs s).breathe = s.breathe := rfl
@[simp] theorem sampleInputs_rainbow : (sampleInputs s).rainbow = s.rainbow := rfl
@[simp] theorem sampleInputs_swap : (sampleInputs s).swap = s.swap := rfl
@[simp] theorem sampleInputs_rain : (sampleInputs s).rain = s.rain := rfl
@[simp] theorem sampleInputs_wipe : (sampleInputs s).wipe = s.wipe := rfl
@[simp] theorem sampleInputs_gatePrev : (sampleInputs s).gatePrev = s.gatePrev := rfl
@[simp] theorem sampleInputs_enc : (sampleInputs s).enc = s.enc := rfl

@[simp] theorem encoderCycle_cfg : (encoderCycle s).cfg = s.cfg := rfl
@[simp] theorem encoderCycle_env : (encoderCycle s).env = s.env := rfl
@[simp] theorem encoderCycle_arg0 : (encoderCycle s).arg0 = s.arg0 := rfl
@[simp] theorem encoderCycle_arg1 : (encoderCycle s).arg1 = s.arg1 := rfl
@[simp] theorem encoderCycle_arg2 : (encoderCycle s).arg2 = s.arg2 := rfl
@[simp] theorem encoderCycle_arg3 : (encoderCycle s).arg3 = s.arg3 := rfl
@[simp] theorem encoderCycle_cmdLast : (encoderCycle s).cmdLast = s.cmdLast := rfl
@[simp] theorem encoderCycle_sticky : (encoderCycle s).sticky = s.sticky := rfl
@[simp] theorem encoderCycle_lastErr : (encoderCycle s).lastErr = s.lastErr := rfl
@[simp] theorem encoderCycle_result : (encoderCycle s).result = s.result := rfl
@[simp] theorem encoderCycle_active : (encoderCycle s).active = s.active := rfl
@[simp] theorem encoderCycle_segCount : (encoderCycle s).segCount = s.segCount := rfl
@[simp] theorem encoderCycle_palLen : (encoderCycle s).palLen = s.palLen := rfl
@[simp] theorem encoderCycle_frameCount : (encoderCycle s).frameCount = s.frameCount := rfl
@[simp] theorem encoderCycle_mem : (encoderCycle s).mem = s.mem := rfl
@[simp] theorem encoderCycle_spb : (encoderCycle s).spb = s.spb := rfl
@[simp] theorem encoderCycle_fade : (encoderCycle s).fade = s.fade := rfl
@[simp] theorem encoderCycle_breathe : (encoderCycle s).breathe = s.breathe := rfl
@[simp] theorem encoderCycle_rainbow : (encoderCycle s).rainbow = s.rainbow := rfl
@[simp] theorem encoderCycle_swap : (encoderCycle s).swap = s.swap := rfl
@[simp] theorem encoderCycle_rain : (encoderCycle s).rain = s.rain := rfl
@[simp] theorem encoderCycle_wipe : (encoderCycle s).wipe = s.wipe := rfl
@[simp] theorem encoderCycle_gatePrev : (encoderCycle s).gatePrev = s.gatePrev := rfl
@[simp] theorem encoderCycle_enc : (encoderCycle s).enc = encStep s.cfg s.enc := rfl

@[simp] theorem returnData_cfg (v : Word) : (returnData v s).cfg = s.cfg := rfl
@[simp] theorem returnData_env (v : Word) : (returnData v s).env = { s.env with rdata := v } := rfl
@[simp] theorem returnData_arg0 (v : Word) : (returnData v s).arg0 = s.arg0 := rfl
@[simp] theorem returnData_arg1 (v : Word) : (returnData v s).arg1 = s.arg1 := rfl
@[simp] theorem returnData_arg2 (v : Word) : (returnData v s).arg2 = s.arg2 := rfl
@[simp] theorem returnData_arg3 (v : Word) : (returnData v s).arg3 = s.arg3 := rfl
@[simp] theorem returnData_cmdLast (v : Word) : (returnData v s).cmdLast = s.cmdLast := rfl
@[simp] theorem returnData_sticky (v : Word) : (returnData v s).sticky = s.sticky := rfl
@[simp] theorem returnData_lastErr (v : Word) : (returnData v s).lastErr = s.lastErr := rfl
@[simp] theorem returnData_result (v : Word) : (returnData v s).result = s.result := rfl
@[simp] theorem returnData_active (v : Word) : (returnData v s).active = s.active := rfl
@[simp] theorem returnData_segCount (v : Word) : (returnData v s).segCount = s.segCount := rfl
@[simp] theorem returnData_palLen (v : Word) : (returnData v s).palLen = s.palLen := rfl
@[simp] theorem returnData_frameCount (v : Word) : (returnData v s).frameCount = s.frameCount := rfl
@[simp] theorem returnData_mem (v : Word) : (returnData v s).mem = s.mem := rfl
@[simp] theorem returnData_spb (v : Word) : (returnData v s).spb = s.spb := rfl
@[simp] theorem returnData_fade (v : Word) : (returnData v s).fade = s.fade := rfl
@[simp] theorem returnData_breathe (v : Word) : (returnData v s).breathe = s.breathe := rfl
@[simp] theorem returnData_rainbow (v : Word) : (returnData v s).rainbow = s.rainbow := rfl
@[simp] theorem returnData_swap (v : Word) : (returnData v s).swap = s.swap := rfl
@[simp] theorem returnData_rain (v : Word) : (returnData v s).rain = s.rain := rfl
@[simp] theorem returnData_wipe (v : Word) : (returnData v s).wipe = s.wipe := rfl
@[simp] theorem returnData_gatePrev (v : Word) : (returnData v s).gatePrev = s.gatePrev := rfl
@[simp] theorem returnData_enc (v : Word) : (returnData v s).enc = s.enc := rfl

@[simp] theorem withPending_cfg (es : List Event) : (withPending es s).cfg = s.cfg := rfl
@[simp] theorem withPending_env (es : List Event) : (withPending es s).env = { s.env with pending := es } := rfl
@[simp] theorem withPending_arg0 (es : List Event) : (withPending es s).arg0 = s.arg0 := rfl
@[simp] theorem withPending_arg1 (es : List Event) : (withPending es s).arg1 = s.arg1 := rfl
@[simp] theorem withPending_arg2 (es : List Event) : (withPending es s).arg2 = s.arg2 := rfl
@[simp] theorem withPending_arg3 (es : List Event) : (withPending es s).arg3 = s.arg3 := rfl
@[simp] theorem withPending_cmdLast (es : List Event) : (withPending es s).cmdLast = s.cmdLast := rfl
@[simp] theorem withPending_sticky (es : List Event) : (withPending es s).sticky = s.sticky := rfl
@[simp] theorem withPending_lastErr (es : List Event) : (withPending es s).lastErr = s.lastErr := rfl
@[simp] theorem withPending_result (es : List Event) : (withPending es s).result = s.result := rfl
@[simp] theorem withPending_active (es : List Event) : (withPending es s).active = s.active := rfl
@[simp] theorem withPending_segCount (es : List Event) : (withPending es s).segCount = s.segCount := rfl
@[simp] theorem withPending_palLen (es : List Event) : (withPending es s).palLen = s.palLen := rfl
@[simp] theorem withPending_frameCount (es : List Event) : (withPending es s).frameCount = s.frameCount := rfl
@[simp] theorem withPending_mem (es : List Event) : (withPending es s).mem = s.mem := rfl
@[simp] theorem withPending_spb (es : List Event) : (withPending es s).spb = s.spb := rfl
@[simp] theorem withPending_fade (es : List Event) : (withPending es s).fade = s.fade := rfl
@[simp] theorem withPending_breathe (es : List Event) : (withPending es s).breathe = s.breathe := rfl
@[simp] theorem withPending_rainbow (es : List Event) : (withPending es s).rainbow = s.rainbow := rfl
@[simp] theorem withPending_swap (es : List Event) : (withPending es s).swap = s.swap := rfl
@[simp] theorem withPending_rain (es : List Event) : (withPending es s).rain = s.rain := rfl
@[simp] theorem withPending_wipe (es : List Event) : (withPending es s).wipe = s.wipe := rfl
@[simp] theorem withPending_gatePrev (es : List Event) : (withPending es s).gatePrev = s.gatePrev := rfl
@[simp] theorem withPending_enc (es : List Event) : (withPending es s).enc = s.enc := rfl

end Sys2Proof.Machine
end

