-- ==== Sys2Proof/Laws/Bus.lean ====
section
/-! SUPPORT. The address map, and what a write of each target does to what is read (20_memory.md). -/

namespace Sys2Proof.Machine

/-- A register is at its address (20_memory.md R64). -/
theorem targetAt_reg (c : Config) (r : Reg) : targetAt c (BitVec.ofNat 16 (regAddr r)) = .reg r := by
  have : regAt (BitVec.ofNat 16 (regAddr r)).toNat = some r := by cases r <;> decide
  simp only [targetAt, this]

/-- No register lies beyond GATE_PREV (20_memory.md R64). -/
theorem regAt_none {a : Nat} (h : 0x141 ≤ a) : regAt a = none := by
  simp only [regAt, List.find?_eq_none]
  intro r _
  have : regAddr r < 0x141 := by cases r <;> decide
  simp; omega

/-- The register found at an address is at that address (20_memory.md R64). -/
theorem regAt_some {a : Nat} {r : Reg} (h : regAt a = some r) : regAddr r = a := by
  have := List.find?_some h
  simpa using this

/-- What an aligned address names in a valid configuration exists and is at that address (20_memory.md R64, R65). -/
theorem targetAt_mapped {c : Config} (hv : c.Valid) {a : Half} (ha : a.toNat % 4 = 0) (hu : targetAt c a ≠ .unmapped) :
    Mapped c (targetAt c a) ∧ targetAddr (targetAt c a) = a.toNat := by
  have hc := valid_sizes hv
  unfold targetAt at *
  cases h : regAt a.toNat with
  | some r => simp only [h] at hu ⊢; exact ⟨trivial, regAt_some h⟩
  | none =>
    simp only [h] at *
    unfold windowAt pairTarget at *
    repeat' split
    all_goals simp_all [Mapped, targetAddr]
    all_goals omega

/-- Two aligned addresses that name the same existing target are one address. -/
theorem targetAt_injective {c : Config} (hv : c.Valid) {a b : Half} (ha : a.toNat % 4 = 0) (hb : b.toNat % 4 = 0)
    (hu : targetAt c a ≠ .unmapped) (h : targetAt c a = targetAt c b) : a = b := by
  have h1 := (targetAt_mapped hv ha hu).2
  have h2 := (targetAt_mapped hv hb (h ▸ hu)).2
  exact BitVec.eq_of_toNat_eq (by rw [← h1, ← h2, h])

/-- The only addresses of CMD and STATUS (20_memory.md R64). -/
theorem targetAt_cmd_iff {c : Config} (hv : c.Valid) {a : Half} (ha : a.toNat % 4 = 0) :
    (targetAt c a = .reg .cmd ↔ a.toNat = 0) ∧ (targetAt c a = .reg .status ↔ a.toNat = 4) := by
  constructor <;> constructor
  · intro h
    have := (targetAt_mapped hv ha (by rw [h]; simp)).2
    rw [h] at this; simpa [targetAddr, regAddr] using this.symm
  · intro h
    have : a = BitVec.ofNat 16 (regAddr .cmd) := BitVec.eq_of_toNat_eq (by rw [h]; rfl)
    rw [this]; exact targetAt_reg c _
  · intro h
    have := (targetAt_mapped hv ha (by rw [h]; simp)).2
    rw [h] at this; simpa [targetAddr, regAddr] using this.symm
  · intro h
    have : a = BitVec.ofNat 16 (regAddr .status) := BitVec.eq_of_toNat_eq (by rw [h]; rfl)
    rw [this]; exact targetAt_reg c _

/-- A write while BUSY = 1 that is not of STATUS (20_memory.md R71). -/
theorem busWrite_busy {s : State} {a : Half} {v : Word} (hb : busy s.enc = true) (ha : a.toNat ≠ 4) :
    busWrite a v s = .next (raiseErr .busy s) := by
  unfold busWrite; rw [if_pos ⟨hb, ha⟩]

/-- A write of STATUS, busy or not (20_memory.md R71, 10_state.md R26). -/
theorem busWrite_status (s : State) (v : Word) : busWrite 0x004 v s = .next (clearErrors v s) := by
  unfold busWrite
  rw [if_neg (by simp [regAddr]), if_neg (by simp [regAddr])]
  have := targetAt_reg s.cfg .status
  rw [show BitVec.ofNat 16 (regAddr .status) = 0x004 from rfl] at this
  rw [this]; rfl

/-- A write of anything but CMD while BUSY = 0 (20_memory.md R70). -/
theorem busWrite_idle {s : State} {a : Half} {v : Word} (hb : busy s.enc = false) (ha : a.toNat ≠ 0) :
    busWrite a v s = .next (writeTarget (targetAt s.cfg a) v s) := by
  unfold busWrite
  rw [if_neg (by simp [hb]), if_neg (by simpa [regAddr] using ha)]

/-- A write of CMD while BUSY = 0 (30_encoding.md R98). -/
theorem busWrite_cmd {s : State} {v : Word} (hb : busy s.enc = false) : busWrite 0x000 v s = acceptCommand v s := by
  unfold busWrite
  rw [if_neg (by simp [hb]), if_pos (by simp [regAddr])]

/-- No write of a target changes the configuration, the encoder or the environment. -/
theorem writeTarget_frame (t : Target) (v : Word) (s : State) :
    (writeTarget t v s).cfg = s.cfg ∧ (writeTarget t v s).enc = s.enc ∧ (writeTarget t v s).env = s.env := by
  unfold writeTarget writeReg
  split
  · split <;> exact ⟨rfl, rfl, rfl⟩
  all_goals exact ⟨rfl, rfl, rfl⟩

/-- A write of a target leaves every other existing target reading as before, but STATUS when it is written
(20_memory.md R65). -/
theorem readTarget_writeTarget_ne {s : State} (hv : s.cfg.Valid) (hm : s.mem.wf) {t u : Target} (ht : Mapped s.cfg t)
    (hu : Mapped s.cfg u) (hne : u ≠ t) (hs : t ≠ .reg .status) (v : Word) :
    readTarget (writeTarget t v s) u = readTarget s u := by
  have hc := valid_sizes hv
  cases t <;> simp only [Mapped] at ht
  case reg r =>
    cases r
    case status => exact absurd rfl hs
    all_goals
      cases u with
      | reg r' => cases r' <;> first | rfl | exact absurd rfl hne
      | _ => rfl
  case segLen k =>
    cases u <;> simp only [Mapped] at hu
    case segLen j =>
      have hne' : j ≠ k := fun h => hne (by rw [h])
      simp only [readTarget, writeTarget, segLen_setSegLen hm, if_neg hne']
    case segColor j => simp only [readTarget, writeTarget, segColor_setSegLen hm]
    case pal j => simp only [readTarget, writeTarget, pal_setSegLen hm (by omega : k < 255)]
    case reg r => cases r <;> rfl
    all_goals rfl
  case segColor k =>
    cases u <;> simp only [Mapped] at hu
    case segLen j => simp only [readTarget, writeTarget, segLen_setSegColor hm]
    case segColor j =>
      have hne' : j ≠ k := fun h => hne (by rw [h])
      simp only [readTarget, writeTarget, segColor_setSegColor hm, if_neg hne']
    case pal j => simp only [readTarget, writeTarget, pal_setSegColor hm (by omega : k < 255)]
    case reg r => cases r <;> rfl
    all_goals rfl
  case pal k =>
    cases u <;> simp only [Mapped] at hu
    case segLen j => simp only [readTarget, writeTarget, segLen_setPal hm k (by omega : j < 255)]
    case segColor j => simp only [readTarget, writeTarget, segColor_setPal hm k (by omega : j < 255)]
    case pal j =>
      have hne' : j ≠ k := fun h => hne (by rw [h])
      simp only [readTarget, writeTarget, pal_setPal hm, if_neg hne']
    case reg r => cases r <;> rfl
    all_goals rfl
  all_goals rfl

/-- A write of a target that is not writable does nothing (20_memory.md R66). -/
theorem writeTarget_readonly {t : Target} (h : writable t = false) (v : Word) (s : State) : writeTarget t v s = s := by
  cases t
  case reg r => cases r <;> first | rfl | simp [writable] at h
  all_goals first | rfl | simp [writable] at h

end Sys2Proof.Machine
end

