-- ==== Sys2Proof/Laws/Ops.lean ====
section
/-! SUPPORT. Activation, the gate sample and the shape the animations share, each said once (42_animation.md R221 to
R226). -/

namespace Sys2Proof.Machine

theorem setGateBit_get (g : BitVec 6) (i : Nat) (b : Bool) {j : Nat} (hi : i < 6) (hj : j < 6) :
    (setGateBit g i b).getLsbD j = if j = i then b else g.getLsbD j := by
  interval_cases i <;> interval_cases j <;> cases b <;> simp [setGateBit]

theorem animIndex_lt (a : Anim) : animIndex a < 6 := by cases a <;> decide

variable (a : Anim) (t : Trig) (s : State)

/-- A command of the active key activates nothing (42_animation.md R221). -/
theorem switchTo_same (h : continues a t s = true) : switchTo a t s = s := by
  have h' : s.active = some ⟨a, t⟩ := by simpa using h
  simp only [switchTo, h', if_true]
  rw [← h']

/-- A command of another key activates its animation (42_animation.md R221). -/
theorem switchTo_new (h : continues a t s = false) :
    switchTo a t s = { activate a s with active := some ⟨a, t⟩ } := by
  have h' : s.active ≠ some ⟨a, t⟩ := by simpa using h
  simp only [switchTo, if_neg h']

@[simp] theorem switchTo_active : (switchTo a t s).active = some ⟨a, t⟩ := rfl

@[simp] theorem activate_cfg : (activate a s).cfg = s.cfg := by cases a <;> rfl
@[simp] theorem switchTo_cfg : (switchTo a t s).cfg = s.cfg := by
  simp only [switchTo]; split <;> simp

@[simp] theorem activate_arg0 : (activate a s).arg0 = s.arg0 := by cases a <;> rfl
@[simp] theorem switchTo_arg0 : (switchTo a t s).arg0 = s.arg0 := by
  simp only [switchTo]; split <;> simp

@[simp] theorem activate_arg1 : (activate a s).arg1 = s.arg1 := by cases a <;> rfl
@[simp] theorem switchTo_arg1 : (switchTo a t s).arg1 = s.arg1 := by
  simp only [switchTo]; split <;> simp

@[simp] theorem activate_arg2 : (activate a s).arg2 = s.arg2 := by cases a <;> rfl
@[simp] theorem switchTo_arg2 : (switchTo a t s).arg2 = s.arg2 := by
  simp only [switchTo]; split <;> simp

@[simp] theorem activate_arg3 : (activate a s).arg3 = s.arg3 := by cases a <;> rfl
@[simp] theorem switchTo_arg3 : (switchTo a t s).arg3 = s.arg3 := by
  simp only [switchTo]; split <;> simp

@[simp] theorem activate_cmdLast : (activate a s).cmdLast = s.cmdLast := by cases a <;> rfl
@[simp] theorem switchTo_cmdLast : (switchTo a t s).cmdLast = s.cmdLast := by
  simp only [switchTo]; split <;> simp

@[simp] theorem activate_sticky : (activate a s).sticky = s.sticky := by cases a <;> rfl
@[simp] theorem switchTo_sticky : (switchTo a t s).sticky = s.sticky := by
  simp only [switchTo]; split <;> simp

@[simp] theorem activate_lastErr : (activate a s).lastErr = s.lastErr := by cases a <;> rfl
@[simp] theorem switchTo_lastErr : (switchTo a t s).lastErr = s.lastErr := by
  simp only [switchTo]; split <;> simp

@[simp] theorem activate_result : (activate a s).result = s.result := by cases a <;> rfl
@[simp] theorem switchTo_result : (switchTo a t s).result = s.result := by
  simp only [switchTo]; split <;> simp

@[simp] theorem activate_segCount : (activate a s).segCount = s.segCount := by cases a <;> rfl
@[simp] theorem switchTo_segCount : (switchTo a t s).segCount = s.segCount := by
  simp only [switchTo]; split <;> simp

@[simp] theorem activate_palLen : (activate a s).palLen = s.palLen := by cases a <;> rfl
@[simp] theorem switchTo_palLen : (switchTo a t s).palLen = s.palLen := by
  simp only [switchTo]; split <;> simp

@[simp] theorem activate_frameCount : (activate a s).frameCount = s.frameCount := by cases a <;> rfl
@[simp] theorem switchTo_frameCount : (switchTo a t s).frameCount = s.frameCount := by
  simp only [switchTo]; split <;> simp

@[simp] theorem activate_mem : (activate a s).mem = s.mem := by cases a <;> rfl
@[simp] theorem switchTo_mem : (switchTo a t s).mem = s.mem := by
  simp only [switchTo]; split <;> simp

@[simp] theorem activate_spb : (activate a s).spb = s.spb := by cases a <;> rfl
@[simp] theorem switchTo_spb : (switchTo a t s).spb = s.spb := by
  simp only [switchTo]; split <;> simp

@[simp] theorem activate_enc : (activate a s).enc = s.enc := by cases a <;> rfl
@[simp] theorem switchTo_enc : (switchTo a t s).enc = s.enc := by
  simp only [switchTo]; split <;> simp

/-- The record of the fade after activation (42_animation.md R222). -/
theorem switchTo_fade : (switchTo a t s).fade = if a = .fade ∧ continues a t s = false then ⟨red, .redGreen⟩ else s.fade := by
  by_cases h : continues a t s = true
  · rw [switchTo_same a t s h]; simp [h]
  · have h' : continues a t s = false := by simpa using h
    rw [switchTo_new a t s h']
    cases a <;> simp [h', activate, drawRand]

/-- The record of the breathe after activation (42_animation.md R222). -/
theorem switchTo_breathe : (switchTo a t s).breathe = if a = .breathe ∧ continues a t s = false then ⟨0, .hold, s.now⟩ else s.breathe := by
  by_cases h : continues a t s = true
  · rw [switchTo_same a t s h]; simp [h]
  · have h' : continues a t s = false := by simpa using h
    rw [switchTo_new a t s h']
    cases a <;> simp [h', activate, drawRand]

/-- The record of the rainbow after activation (42_animation.md R222). -/
theorem switchTo_rainbow : (switchTo a t s).rainbow = if a = .rainbow ∧ continues a t s = false then ⟨red, .redGreen, s.now⟩ else s.rainbow := by
  by_cases h : continues a t s = true
  · rw [switchTo_same a t s h]; simp [h]
  · have h' : continues a t s = false := by simpa using h
    rw [switchTo_new a t s h']
    cases a <;> simp [h', activate, drawRand]

/-- The record of the swap after activation (42_animation.md R222). -/
theorem switchTo_swap : (switchTo a t s).swap = if a = .swap ∧ continues a t s = false then ⟨0, s.now⟩ else s.swap := by
  by_cases h : continues a t s = true
  · rw [switchTo_same a t s h]; simp [h]
  · have h' : continues a t s = false := by simpa using h
    rw [switchTo_new a t s h']
    cases a <;> simp [h', activate, drawRand]

/-- The record of the wipe after activation (42_animation.md R222). -/
theorem switchTo_wipe : (switchTo a t s).wipe = if a = .wipe ∧ continues a t s = false then ⟨0, black, s.now⟩ else s.wipe := by
  by_cases h : continues a t s = true
  · rw [switchTo_same a t s h]; simp [h]
  · have h' : continues a t s = false := by simpa using h
    rw [switchTo_new a t s h']
    cases a <;> simp [h', activate, drawRand]

/-- The record of the rain after activation (42_animation.md R222). -/
theorem switchTo_rain : (switchTo a t s).rain = if a = .rain ∧ continues a t s = false then ⟨[], s.now, s.now, spawnGap s s.randValue⟩ else s.rain := by
  by_cases h : continues a t s = true
  · rw [switchTo_same a t s h]; simp [h]
  · have h' : continues a t s = false := by simpa using h
    rw [switchTo_new a t s h']
    cases a <;> simp [h', activate, drawRand]

/-- Activation draws once, for the first gap of the rain (42_animation.md R222). -/
theorem switchTo_env : (switchTo a t s).env = if a = .rain ∧ continues a t s = false then afterDraws s 1 else s.env := by
  by_cases h : continues a t s = true
  · rw [switchTo_same a t s h]; simp [h]
  · have h' : continues a t s = false := by simpa using h
    rw [switchTo_new a t s h']
    cases a <;> simp [h', activate, drawRand, afterDraws]

/-- Activation changes neither sample of the command. -/
@[simp] theorem switchTo_now : (switchTo a t s).now = s.now := by
  simp only [State.now, switchTo_env]; split <;> rfl

@[simp] theorem switchTo_gate : (switchTo a t s).gate = s.gate := by
  simp only [State.gate, switchTo_env]; split <;> rfl

/-- Activation clears the gate sample of its animation and no other (42_animation.md R222). -/
theorem switchTo_gatePrev : (switchTo a t s).gatePrev =
    if continues a t s then s.gatePrev else setGateBit s.gatePrev (animIndex a) false := by
  by_cases h : continues a t s = true
  · rw [switchTo_same a t s h, if_pos h]
  · have h' : continues a t s = false := by simpa using h
    rw [switchTo_new a t s h', if_neg h]
    cases a <;> rfl

/-- The edge of a command (42_animation.md R225). -/
theorem gateEdge_switchTo : gateEdge a (switchTo a t s) = risingEdge a t s := by
  have hi := animIndex_lt a
  simp only [gateEdge, switchTo_gate, switchTo_gatePrev, risingEdge]
  cases h : continues a t s
  · rw [if_neg (by simp), setGateBit_get _ _ _ hi hi, if_pos rfl]; simp
  · rw [if_pos rfl]; simp

/-- The gate sample of the animation is this command's sample (42_animation.md R225). -/
theorem sampleGate_noted : GateNoted a s (sampleGate a (switchTo a t s)).gatePrev := by
  intro i hi
  simp only [sampleGate_gatePrev, switchTo_gate, switchTo_gatePrev]
  rw [setGateBit_get _ _ _ (animIndex_lt a) hi]
  by_cases h : i = animIndex a
  · simp [h]
  · rw [if_neg h, if_neg h]
    split
    · rfl
    · rw [setGateBit_get _ _ _ (animIndex_lt a) hi, if_neg h]

/-- The shape of an animation command: activation, the gate sample, then the update, which is given the edge
(42_animation.md R226). -/
theorem animStep_eq (f : Bool → State → State) :
    animStep a t f s = f (risingEdge a t s) (sampleGate a (switchTo a t s)) := by
  rw [animStep, gateEdge_switchTo]

@[simp] theorem sampleGate_now : (sampleGate a s).now = s.now := rfl
@[simp] theorem sampleGate_gate : (sampleGate a s).gate = s.gate := rfl

/-- The draws of `Rand()` one after another (10_state.md R22). -/
theorem randAt_zero : randAt s 0 = s.randValue := by
  cases h : s.env.rands <;> simp [randAt, State.randValue, h]

theorem randAt_succ (n : Nat) : randAt s (n + 1) = randAt (drawRand s) n := by
  cases h : s.env.rands <;> simp [randAt, drawRand, h, Nat.add_assoc, Nat.add_comm 1 n]

theorem afterDraws_succ (n : Nat) : afterDraws (drawRand s) n = afterDraws s (n + 1) := by
  simp [afterDraws, drawRand, Nat.add_assoc, Nat.add_comm 1 n]

/-! The state an animation's update starts from (42_animation.md R226 steps 2 and 3), one lemma per animation. -/

theorem ready_fade : sampleGate .fade (switchTo .fade t s) =
    { s with
      active := some ⟨.fade, t⟩
      gatePrev := (sampleGate .fade (switchTo .fade t s)).gatePrev
      fade := if continues .fade t s then s.fade else ⟨red, .redGreen⟩ } := by
  cases hc : continues .fade t s
  · rw [switchTo_new _ _ _ hc]; rfl
  · have ha : s.active = some ⟨.fade, t⟩ := by simpa using hc
    rw [switchTo_same _ _ _ hc, ← ha]; rfl

theorem ready_breathe : sampleGate .breathe (switchTo .breathe t s) =
    { s with
      active := some ⟨.breathe, t⟩
      gatePrev := (sampleGate .breathe (switchTo .breathe t s)).gatePrev
      breathe := if continues .breathe t s then s.breathe else ⟨0, .hold, s.now⟩ } := by
  cases hc : continues .breathe t s
  · rw [switchTo_new _ _ _ hc]; rfl
  · have ha : s.active = some ⟨.breathe, t⟩ := by simpa using hc
    rw [switchTo_same _ _ _ hc, ← ha]; rfl

theorem ready_rainbow : sampleGate .rainbow (switchTo .rainbow t s) =
    { s with
      active := some ⟨.rainbow, t⟩
      gatePrev := (sampleGate .rainbow (switchTo .rainbow t s)).gatePrev
      rainbow := if continues .rainbow t s then s.rainbow else ⟨red, .redGreen, s.now⟩ } := by
  cases hc : continues .rainbow t s
  · rw [switchTo_new _ _ _ hc]; rfl
  · have ha : s.active = some ⟨.rainbow, t⟩ := by simpa using hc
    rw [switchTo_same _ _ _ hc, ← ha]; rfl

theorem ready_swap : sampleGate .swap (switchTo .swap t s) =
    { s with
      active := some ⟨.swap, t⟩
      gatePrev := (sampleGate .swap (switchTo .swap t s)).gatePrev
      swap := if continues .swap t s then s.swap else ⟨0, s.now⟩ } := by
  cases hc : continues .swap t s
  · rw [switchTo_new _ _ _ hc]; rfl
  · have ha : s.active = some ⟨.swap, t⟩ := by simpa using hc
    rw [switchTo_same _ _ _ hc, ← ha]; rfl

theorem ready_wipe : sampleGate .wipe (switchTo .wipe t s) =
    { s with
      active := some ⟨.wipe, t⟩
      gatePrev := (sampleGate .wipe (switchTo .wipe t s)).gatePrev
      wipe := if continues .wipe t s then s.wipe else ⟨0, black, s.now⟩ } := by
  cases hc : continues .wipe t s
  · rw [switchTo_new _ _ _ hc]; rfl
  · have ha : s.active = some ⟨.wipe, t⟩ := by simpa using hc
    rw [switchTo_same _ _ _ hc, ← ha]; rfl

theorem ready_rain : sampleGate .rain (switchTo .rain t s) =
    { s with
      active := some ⟨.rain, t⟩
      gatePrev := (sampleGate .rain (switchTo .rain t s)).gatePrev
      env := if continues .rain t s then s.env else afterDraws s 1
      rain := if continues .rain t s then s.rain else ⟨[], s.now, s.now, spawnGap s s.randValue⟩ } := by
  cases hc : continues .rain t s
  · rw [switchTo_new _ _ _ hc, show afterDraws s 1 = (drawRand s).env by simp [afterDraws, drawRand]]; rfl
  · have ha : s.active = some ⟨.rain, t⟩ := by simpa using hc
    rw [switchTo_same _ _ _ hc, ← ha]; rfl

end Sys2Proof.Machine
end

