-- ==== Sys2Proof/Laws/Calls.lean ====
section
/-! SUPPORT. What one call of ANIM_SWAP and ANIM_WIPE does to its record while its pattern stays active, with and without
an event: the steps of the laws over many calls (42_animation.md R239). -/

namespace Sys2Proof.Machine

/-- An active swap call rotates by one and restarts the timer exactly when it has its event (42_animation.md R234). -/
theorem animSwap_call {t : Trig} {s : State} (ha : continues .swap t s = true) (hb : paletteBad s (opN s) = false) :
    (animSwap t s).swap =
      if swapEvent t s then ⟨BitVec.ofNat 8 ((s.swap.rot.toNat + 1) % opN s), s.now⟩ else s.swap := by
  rw [animSwap, if_neg (by simp [hb]), showPixels_swap, animStep_eq, switchTo_same _ _ _ ha]
  unfold swapUpdate
  by_cases he : swapEvent t s = true
  · rw [if_pos (by exact he), if_pos he]
    rfl
  · rw [if_neg (by exact he), if_neg he]
    rfl

/-- The count of an active wipe call: one more pixel when it has its event (42_animation.md R236). -/
def wipeCount (t : Trig) (s : State) : Half := if wipeEvent t s then s.wipe.k + 1#16 else s.wipe.k

/-- An active wipe call reveals one pixel when it has its event, and completes when the count is P (42_animation.md R236). -/
theorem animWipe_call {t : Trig} {s : State} (ha : continues .wipe t s = true) :
    (animWipe t s).wipe =
        ⟨if (wipeCount t s).toNat = s.cfg.pixels then 0 else wipeCount t s,
          if (wipeCount t s).toNat = s.cfg.pixels then opColour s else s.wipe.bg,
          if wipeEvent t s then s.now else s.wipe.mark⟩ ∧
      (animWipe t s).result =
        if (wipeCount t s).toNat = s.cfg.pixels then setBitWord s.result 0 else s.result := by
  have hu : wipeUpdate t (risingEdge .wipe t s) (sampleGate .wipe s) =
      { sampleGate .wipe s with
        wipe := ⟨wipeCount t s, s.wipe.bg, if wipeEvent t s then s.now else s.wipe.mark⟩ } := by
    unfold wipeUpdate wipeCount
    by_cases he : wipeEvent t s = true
    · rw [if_pos (by exact he), if_pos he, if_pos he]
      rfl
    · rw [if_neg (by exact he), if_neg he, if_neg he]
      rfl
  unfold animWipe
  rw [animStep_eq, switchTo_same _ _ _ ha, hu]
  simp only [showPixels_wipe, showPixels_result]
  unfold wipeFinish
  by_cases h : (wipeCount t s).toNat = s.cfg.pixels
  · rw [if_pos (by exact h), if_pos h, if_pos h, if_pos h]
    exact ⟨rfl, rfl⟩
  · rw [if_neg (by exact h), if_neg h, if_neg h, if_neg h]
    exact ⟨rfl, rfl⟩

end Sys2Proof.Machine
end

