-- ==== Sys2Proof/Laws/Decode.lean ====
section
/-! SUPPORT. What the decoder's tables say, row by row: each lookup that finds something found that row's code. -/

namespace Sys2Proof

open Machine (Trig Anim)

/-- A command word is its three fields (30_encoding.md R90). -/
theorem word_fields (w : Word) :
    w = (w.extractLsb' 10 22 ++ w.extractLsb' 8 2 ++ w.extractLsb' 0 8 : BitVec (22 + 2 + 8)) := by
  apply BitVec.eq_of_getLsbD_eq
  intro i hi
  simp only [BitVec.getLsbD_append, BitVec.getLsbD_extractLsb']
  split
  · simp; omega
  · split
    · rename_i h1 h2
      have : 8 + (i - 8) = i := by omega
      simp [this]; omega
    · have : 10 + (i - 8 - 2) = i := by omega
      rw [this]; simp; omega

/-- Only the code of a trigger mode names it. -/
theorem trigOf_some {t : BitVec 2} {x : Trig} (h : trigOf t = some x) : t = trigCode x := by
  revert h; revert t; cases x <;> decide

/-- Only the code of an animation finds it. -/
theorem animRows_some {b : Byte} {a : Anim} (h : animRows.lookup b = some a) : b = animCode a := by
  revert h; revert b; cases a <;> decide

/-- A row with OPC < 0x10 is found only by the opcode of its command's word. -/
theorem plainRows_some {b : Byte} {i : Instr} (h : plainRows.lookup b = some i) : encode i = commandWord b 0 := by
  revert h; revert b; cases i <;> decide

/-- The word of an animation command (30_encoding.md R93). -/
theorem encode_animInstr (a : Anim) (t : Trig) : encode (animInstr a t) = commandWord (animCode a) (trigCode t) := by
  cases a <;> cases t <;> rfl

/-- Every command is a pipeline command, ANIM_RESET, or an animation with a trigger mode. -/
theorem instr_cases (i : Instr) :
    (∃ a t, i = animInstr a t) ∨ i ∈ plainRows.map Prod.snd := by
  cases i
  case nop | scale | renderUniform | renderSegments | renderSparse | segBuildEven | spbClear | spbPut | spbDecay | spbPurge | animReset =>
    right; decide
  case animFade => exact .inl ⟨.fade, .time, rfl⟩
  case animFadeEdge => exact .inl ⟨.fade, .edge, rfl⟩
  case animFadeEither => exact .inl ⟨.fade, .either, rfl⟩
  case animBreathe => exact .inl ⟨.breathe, .time, rfl⟩
  case animBreatheEdge => exact .inl ⟨.breathe, .edge, rfl⟩
  case animBreatheEither => exact .inl ⟨.breathe, .either, rfl⟩
  case animRainbow => exact .inl ⟨.rainbow, .time, rfl⟩
  case animRainbowEdge => exact .inl ⟨.rainbow, .edge, rfl⟩
  case animRainbowEither => exact .inl ⟨.rainbow, .either, rfl⟩
  case animSwap => exact .inl ⟨.swap, .time, rfl⟩
  case animSwapEdge => exact .inl ⟨.swap, .edge, rfl⟩
  case animSwapEither => exact .inl ⟨.swap, .either, rfl⟩
  case animRain => exact .inl ⟨.rain, .time, rfl⟩
  case animRainEdge => exact .inl ⟨.rain, .edge, rfl⟩
  case animRainEither => exact .inl ⟨.rain, .either, rfl⟩
  case animWipe => exact .inl ⟨.wipe, .time, rfl⟩
  case animWipeEdge => exact .inl ⟨.wipe, .edge, rfl⟩
  case animWipeEither => exact .inl ⟨.wipe, .either, rfl⟩

end Sys2Proof
end

