-- ==== Sys2Proof/Laws/Encoder.lean ====
section
/-! SUPPORT. The encoder, from one step to a whole bit, and the invariant it keeps (40_encoder.md R127 to R134). -/

namespace Sys2Proof.Machine

theorem encRun_add (c : Config) (m n : Nat) (e : Encoder) : encRun c (m + n) e = encRun c n (encRun c m e) := by
  induction m generalizing e with
  | zero => simp [encRun]
  | succ m ih => rw [Nat.succ_add]; exact ih _

theorem encTrace_add (c : Config) (m n : Nat) (e : Encoder) :
    encTrace c (m + n) e = encTrace c m e ++ encTrace c n (encRun c m e) := by
  induction m generalizing e with
  | zero => simp [encRun, encTrace]
  | succ m ih => rw [Nat.succ_add]; simp only [encTrace, encRun, ih, List.cons_append]

theorem encTrace_length (c : Config) (n : Nat) (e : Encoder) : (encTrace c n e).length = n := by
  induction n generalizing e with
  | zero => rfl
  | succ n ih => simp [encTrace, ih]

/-- The output after `q` steps is entry `q` of the trace (40_encoder.md R127). -/
theorem encTrace_get (c : Config) {n q : Nat} (h : q < n) (e : Encoder) :
    (encTrace c n e)[q]? = some (dout (encRun c q e)) := by
  induction n generalizing e q with
  | zero => omega
  | succ n ih =>
    cases q with
    | zero => rfl
    | succ q => simpa [encTrace, encRun] using ih (by omega) (encStep c e)

/-- In a state that only counts, `cnt` steps pass with one output and lead where the last step leads. -/
theorem encRun_count {c : Config} {e : Encoder} (hi : e.est ≠ .idle) {q : Nat} (h : q < e.cnt) :
    encRun c q e = { e with cnt := e.cnt - q } := by
  induction q generalizing e with
  | zero => rfl
  | succ q ih =>
    have hstep : encStep c e = { e with cnt := e.cnt - 1 } := by
      unfold encStep
      have : e.cnt - 1 ≠ 0 := by omega
      cases he : e.est <;> simp_all
    rw [encRun, hstep, ih (by exact hi) (by simp only; omega)]
    simp only [Encoder.mk.injEq, true_and, and_true]
    omega

/-- The same for the outputs. -/
theorem encTrace_count {c : Config} {e : Encoder} (hi : e.est ≠ .idle) {q : Nat} (h : q ≤ e.cnt) :
    encTrace c q e = List.replicate q (dout e) := by
  induction q generalizing e with
  | zero => rfl
  | succ q ih =>
    by_cases hq : q = 0
    · subst hq; rfl
    · have hstep : encStep c e = { e with cnt := e.cnt - 1 } := by
        unfold encStep
        have : e.cnt - 1 ≠ 0 := by omega
        cases he : e.est <;> simp_all
      rw [encTrace, hstep, ih (by exact hi) (by simp only; omega), List.replicate_succ]
      rfl

theorem encStep_idle {c : Config} {e : Encoder} (h : e.est = .idle) : encStep c e = e := by
  simp [encStep, h]

theorem encRun_idle {c : Config} {e : Encoder} (h : e.est = .idle) (n : Nat) : encRun c n e = e := by
  induction n with
  | zero => rfl
  | succ n ih => rw [encRun, encStep_idle h, ih]

theorem encTrace_idle {c : Config} {e : Encoder} (h : e.est = .idle) (n : Nat) :
    encTrace c n e = List.replicate n false := by
  induction n with
  | zero => rfl
  | succ n ih =>
    rw [encTrace, encStep_idle h, ih, List.replicate_succ]
    simp [dout, h]

/-- A bit takes NBIT steps: NH(b) high, then the rest low, then what follows the bit (40_encoder.md R130, R131). -/
theorem encRun_bit {c : Config} (hv : c.Valid) (e : Encoder) :
    encRun c (nbit c) (enterHigh c e) = afterBit c { e with est := .low, cnt := 0 } ∧
      encTrace c (nbit c) (enterHigh c e) = symbol c (currentBit e) ∧
      (∀ q < nh c (currentBit e), (encRun c q (enterHigh c e)).est = .high) ∧
      (∀ q < nbit c, nh c (currentBit e) ≤ q → (encRun c q (enterHigh c e)).est = .low) := by
  have hn := valid_nh hv (currentBit e)
  generalize hH : nh c (currentBit e) = H at *
  -- the high part
  have e1 : enterHigh c e = { e with est := .high, cnt := H } := by rw [← hH]; rfl
  have r1 : ∀ q < H, encRun c q { e with est := .high, cnt := H } = { e with est := .high, cnt := H - q } :=
    fun q hq => encRun_count (e := { e with est := .high, cnt := H }) (by simp) hq
  have s1 : encRun c H { e with est := .high, cnt := H } = { e with est := .low, cnt := nbit c - H } := by
    have := encRun_add c (H - 1) 1 { e with est := .high, cnt := H }
    rw [show H - 1 + 1 = H by omega, r1 (H - 1) (by omega)] at this
    rw [this]
    have hc1 : H - (H - 1) = 1 := by omega
    simp only [encRun, encStep, hc1, Nat.sub_self, if_true]
    rw [← hH]
    rfl
  -- the low part
  generalize hL : nbit c - H = L at *
  have r2 : ∀ q < L, encRun c q { e with est := .low, cnt := L } = { e with est := .low, cnt := L - q } :=
    fun q hq => encRun_count (e := { e with est := .low, cnt := L }) (by simp) hq
  have s2 : encRun c L { e with est := .low, cnt := L } = afterBit c { e with est := .low, cnt := 0 } := by
    have := encRun_add c (L - 1) 1 { e with est := .low, cnt := L }
    rw [show L - 1 + 1 = L by omega, r2 (L - 1) (by omega)] at this
    rw [this]
    have hc1 : L - (L - 1) = 1 := by omega
    simp only [encRun, encStep, hc1, Nat.sub_self, if_true]
  have hsum : nbit c = H + L := by omega
  rw [e1]
  refine ⟨?_, ?_, ?_, ?_⟩
  · rw [hsum, encRun_add, s1, s2]
  · rw [hsum, encTrace_add, s1, encTrace_count (e := { e with est := .high, cnt := H }) (by simp) (le_refl _),
      encTrace_count (e := { e with est := .low, cnt := L }) (by simp) (le_refl _), symbol, hH, hL]
    rfl
  · intro q hq
    rw [r1 q hq]
  · intro q hq hHq
    obtain ⟨p, rfl⟩ : ∃ p, q = H + p := ⟨q - H, by omega⟩
    rw [encRun_add, s1, r2 p (by omega)]

/-- The latch takes its count of steps with the line low and ends idle (40_encoder.md R133). -/
theorem encRun_latch {c : Config} {e : Encoder} (h : e.est = .latch) (hc : 1 ≤ e.cnt) :
    encRun c e.cnt e = encIdle ∧ encTrace c e.cnt e = List.replicate e.cnt false ∧
      ∀ q < e.cnt, (encRun c q e).est = .latch := by
  have hne : e.est ≠ .idle := by rw [h]; simp
  have r1 : ∀ q < e.cnt, encRun c q e = { e with cnt := e.cnt - q } := fun q hq => encRun_count hne hq
  refine ⟨?_, ?_, fun q hq => by rw [r1 q hq]; exact h⟩
  · have := encRun_add c (e.cnt - 1) 1 e
    rw [show e.cnt - 1 + 1 = e.cnt by omega, r1 (e.cnt - 1) (by omega)] at this
    rw [this]
    have hc1 : e.cnt - (e.cnt - 1) = 1 := by omega
    simp [encRun, encStep, h, hc1]
  · rw [encTrace_count hne (le_refl _)]
    simp [dout, h]

/-- The encoder as it enters bit `j` of byte `i` of the frame (40_encoder.md R121, R122). -/
abbrev atBit (c : Config) (F : List Byte) (i : Nat) (j : Fin 8) : Encoder := enterHigh c ⟨.high, 0, F, i, j⟩

/-- After a bit other than the last of its byte comes the next lower bit (40_encoder.md R131). -/
theorem afterBit_bit (c : Config) (F : List Byte) (i : Nat) (j : Fin 8) (hj : j.val ≠ 0) (x : EncPhase) (n : Nat) :
    afterBit c ⟨x, n, F, i, j⟩ = atBit c F i ⟨j.val - 1, by omega⟩ := by
  simp [afterBit, hj, enterHigh, currentBit]

/-- After the last bit of a byte comes bit 7 of the next, or the latch (40_encoder.md R131). -/
theorem afterBit_byte (c : Config) (F : List Byte) (i : Nat) (x : EncPhase) (n : Nat) :
    afterBit c ⟨x, n, F, i, 0⟩ =
      if i + 1 < F.length then atBit c F (i + 1) 7 else ⟨.latch, nreset c, F, i, 0⟩ := by
  simp [afterBit, enterHigh, currentBit]

/-- What one byte takes: 8 bits of NBIT steps, bit 7 first (40_encoder.md R122). -/
theorem encRun_byte {c : Config} (hv : c.Valid) (F : List Byte) (i : Nat) :
    (∀ j ≤ 7, encRun c (j * nbit c) (atBit c F i 7) = atBit c F i ⟨7 - j, by omega⟩) ∧
      encRun c (8 * nbit c) (atBit c F i 7) =
        (if i + 1 < F.length then atBit c F (i + 1) 7 else ⟨.latch, nreset c, F, i, 0⟩) ∧
      encTrace c (8 * nbit c) (atBit c F i 7) = (bitsOut (F.getD i 0)).flatMap (symbol c) := by
  have hb := fun j : Fin 8 => encRun_bit hv ⟨.high, 0, F, i, j⟩
  have hstep : ∀ j : Fin 8, j.val ≠ 0 →
      encRun c (nbit c) (atBit c F i j) = atBit c F i ⟨j.val - 1, by omega⟩ := fun j hj => by
    rw [(hb j).1]; exact afterBit_bit c F i j hj _ _
  have hpos : ∀ j ≤ 7, encRun c (j * nbit c) (atBit c F i 7) = atBit c F i ⟨7 - j, by omega⟩ := by
    intro j hj
    induction j with
    | zero => simp [encRun]
    | succ j ih =>
      rw [Nat.succ_mul, encRun_add, ih (by omega), hstep _ (by simp only; omega)]
      congr 1
  have htr : ∀ j ≤ 7, encTrace c (j * nbit c) (atBit c F i 7) =
      (([7, 6, 5, 4, 3, 2, 1, 0].take j).map fun b => (F.getD i 0).getLsbD b).flatMap (symbol c) := by
    intro j hj
    induction j with
    | zero => simp [encTrace]
    | succ j ih =>
      rw [Nat.succ_mul, encTrace_add, ih (by omega), hpos j (by omega), (hb _).2.1]
      have : ∀ j ≤ 6, [7, 6, 5, 4, 3, 2, 1, 0].take (j + 1) = [7, 6, 5, 4, 3, 2, 1, 0].take j ++ [7 - j] := by decide
      rw [this j (by omega), List.map_append, List.flatMap_append]
      simp [currentBit]
  refine ⟨hpos, ?_, ?_⟩
  · rw [show 8 * nbit c = 7 * nbit c + nbit c by omega, encRun_add, hpos 7 (by omega), (hb _).1]
    exact afterBit_byte c F i _ _
  · rw [show 8 * nbit c = 7 * nbit c + nbit c by omega, encTrace_add, hpos 7 (by omega), (hb _).2.1, htr 7 (by omega)]
    simp [currentBit, bitsOut]

/-- Where the encoder stands after whole bytes (40_encoder.md R121). -/
theorem encRun_bytes {c : Config} (hv : c.Valid) (F : List Byte) {i : Nat} (hi : i < F.length) :
    encRun c (8 * i * nbit c) (startFrame c F) = atBit c F i 7 := by
  induction i with
  | zero => simp only [Nat.mul_zero, Nat.zero_mul]; rfl
  | succ i ih =>
    rw [show 8 * (i + 1) * nbit c = 8 * i * nbit c + 8 * nbit c by ring, encRun_add, ih (by omega),
      (encRun_byte hv F i).2.1, if_pos hi]

/-- After the last bit of the frame the encoder is in its latch (40_encoder.md R131). -/
theorem encRun_frame {c : Config} (hv : c.Valid) {F : List Byte} (hF : F ≠ []) :
    encRun c (8 * F.length * nbit c) (startFrame c F) = ⟨.latch, nreset c, F, F.length - 1, 0⟩ := by
  have hl : 0 < F.length := List.length_pos_iff.2 hF
  rw [show 8 * F.length * nbit c = 8 * (F.length - 1) * nbit c + 8 * nbit c by
      rw [show 8 * (F.length - 1) = 8 * F.length - 8 by omega, ← Nat.add_mul]; congr 1; omega,
    encRun_add, encRun_bytes hv F (by omega), (encRun_byte hv F _).2.1, if_neg (by omega)]

/-- Every encoder step keeps the encoder consistent and its frame a whole frame (10_state.md R38). -/
theorem EncOk_encStep {c : Config} (hv : c.Valid) {e : Encoder} (h : EncOk c e) : EncOk c (encStep c e) := by
  have hn := fun b => valid_nh hv b
  have ht := valid_timing hv
  have hE : ∀ x : Encoder, x.bi < x.frame.length → EncOk c (enterHigh c x) := fun x hx =>
    ⟨hx, (hn (currentBit x)).1, le_refl _⟩
  unfold encStep
  cases he : e.est
  case idle => exact h
  case high =>
    simp only [EncOk, he] at h
    dsimp only
    split
    · exact ⟨h.1, by have := hn (currentBit e); show 1 ≤ nbit c - nh c (currentBit e); omega, le_refl _⟩
    · simp only [EncOk]
      refine ⟨h.1, by omega, ?_⟩
      have h3 := h.2.2
      show e.cnt - 1 ≤ nh c (currentBit e)
      omega
  case low =>
    simp only [EncOk, he] at h
    dsimp only
    split
    · unfold afterBit
      split
      · exact hE _ h.1
      · split
        · rename_i h2; exact hE _ h2
        · exact ⟨ht.2.2.2, le_refl _⟩
    · simp only [EncOk]
      refine ⟨h.1, by omega, ?_⟩
      have h3 := h.2.2
      show e.cnt - 1 ≤ nbit c - nh c (currentBit e)
      omega
  case latch =>
    simp only [EncOk, he] at h
    dsimp only
    split
    · rfl
    · simp only [EncOk]; omega

theorem FrameOk_encStep {c : Config} {e : Encoder} (h : FrameOk c e) : FrameOk c (encStep c e) := by
  unfold encStep afterBit
  cases e.est <;> dsimp only [enterHigh, encIdle] <;> repeat' split
  all_goals first | exact h | exact .inl rfl

/-- A started frame of P pixels is consistent (40_encoder.md R128). -/
theorem EncOk_startFrame {c : Config} (hv : c.Valid) {F : List Byte} (hF : F.length = 3 * c.pixels) :
    EncOk c (startFrame c F) ∧ FrameOk c (startFrame c F) :=
  ⟨⟨by have := (valid_sizes hv).1; show 0 < F.length; omega, (valid_nh hv _).1, le_refl _⟩, .inr hF⟩

end Sys2Proof.Machine
end

