-- ==== Sys2Proof/Laws/Flags.lean ====
section
/-! SUPPORT. STATUS bit by bit, and the error bits (10_state.md R26, 60_exceptions.md R301). -/

namespace Sys2Proof.Machine

/-- The bits of STATUS (10_state.md R26). -/
theorem statusWord_get (s : State) (i : Nat) : (statusWord s).getLsbD i =
    if i = 0 then busy s.enc else if i = 1 then latching s.enc else if i = 2 then irqMask s.enc
    else if 8 ≤ i ∧ i < 14 then s.sticky.getLsbD (i - 8)
    else if 16 ≤ i ∧ i < 24 then s.lastErr.getLsbD (i - 16) else false := by
  by_cases hi : i < 32
  · simp only [statusWord, BitVec.getLsbD_append, bit]
    interval_cases i <;> simp
  · rw [BitVec.getLsbD_of_ge _ _ (by omega)]
    repeat rw [if_neg (by omega)]

/-- The sticky field of STATUS (10_state.md R26). -/
theorem statusWord_sticky (s : State) : (statusWord s).extractLsb' 8 6 = s.sticky := by
  apply BitVec.eq_of_getLsbD_eq
  intro i hi
  simp only [BitVec.getLsbD_extractLsb', statusWord_get]
  interval_cases i <;> simp

/-- The LAST_ERR field of STATUS (10_state.md R26). -/
theorem statusWord_lastErr (s : State) : (statusWord s).extractLsb' 16 8 = s.lastErr := by
  apply BitVec.eq_of_getLsbD_eq
  intro i hi
  simp only [BitVec.getLsbD_extractLsb', statusWord_get]
  interval_cases i <;> simp

/-- Each error has a sticky bit of its own (60_exceptions.md R300, R301). -/
theorem errBit_get (e : ErrCode) (i : Nat) : (errBit e).getLsbD i = decide (i + 1 = errCode e) := by
  by_cases hi : i < 6
  · interval_cases i <;> cases e <;> decide
  · rw [BitVec.getLsbD_of_ge _ _ (by omega)]
    cases e <;> simp [errCode] <;> omega

/-- Reporting an error leaves one pending (60_exceptions.md R301). -/
theorem sticky_or_errBit_ne_zero (w : BitVec 6) (e : ErrCode) : w ||| errBit e ≠ 0 := by
  revert w; cases e <;> decide

end Sys2Proof.Machine
end

