-- ==== Sys2Proof/Laws/Frames.lean ====
section
/-! SUPPORT. Frames: their length, their bytes, and what `showPixels` does (41_pipeline.md R163 to R168). -/

namespace Sys2Proof.Machine

/-- `Scale` as a number: the quotient fits in 8 bits (41_pipeline.md R164). -/
theorem scale_toNat (x b : Byte) : (scale x b).toNat = (x.toNat * b.toNat + 127) / 255 := by
  have hx := x.isLt
  have hb := b.isLt
  have : x.toNat * b.toNat ≤ 255 * 255 := Nat.mul_le_mul (by omega) (by omega)
  simp only [scale, BitVec.toNat_ofNat]
  omega

/-- Scaling a colour scales each channel (41_pipeline.md R163). -/
theorem channel_applyBrightness (c : RGB) (b : Byte) (ch : Fin 3) :
    channel (applyBrightness c b) ch = scale (channel c ch) b := by
  match ch with
  | 0 | 1 | 2 => rfl

/-- The number of a colour word: its three channels in place (00_scope.md R9). -/
theorem colourWord_toNat (c : RGB) : (colourWord c).toNat = 2 ^ 16 * c.r.toNat + 2 ^ 8 * c.g.toNat + c.b.toNat := by
  have hr := c.r.isLt
  have hg := c.g.isLt
  have hb := c.b.isLt
  simp only [colourWord, BitVec.toNat_append, BitVec.toNat_ofNat, Nat.shiftLeft_eq]
  rw [← Nat.shiftLeft_eq, ← Nat.shiftLeft_eq, ← Nat.shiftLeft_eq, ← Nat.shiftLeft_add_eq_or_of_lt (by omega),
    ← Nat.shiftLeft_add_eq_or_of_lt (by omega), ← Nat.shiftLeft_add_eq_or_of_lt (by omega)]
  simp only [Nat.shiftLeft_eq]
  omega

/-- A list of three-byte blocks, byte by byte. -/
theorem flatMap_three {α β : Type} (f : α → List β) (hf : ∀ x, (f x).length = 3) (xs : List α) :
    (xs.flatMap f).length = 3 * xs.length ∧
      ∀ (i : Nat) (h : i < xs.length), ∀ j < 3, (xs.flatMap f)[3 * i + j]? = (f xs[i])[j]? := by
  induction xs with
  | nil => simp
  | cons x xs ih =>
    constructor
    · simp only [List.flatMap_cons, List.length_append, hf, ih.1, List.length_cons]; omega
    · intro i h j hj
      rw [List.flatMap_cons]
      cases i with
      | zero => rw [List.getElem?_append_left (by rw [hf]; omega)]; simp
      | succ i =>
        rw [List.getElem?_append_right (by rw [hf]; omega)]
        have e : 3 * (i + 1) + j - (f x).length = 3 * i + j := by rw [hf]; omega
        rw [e]
        exact ih.2 i (by simpa using h) j hj

/-- The frame of a pixel list (41_pipeline.md R167). -/
theorem frameOf_spec (c : Config) (px : List RGB) :
    (frameOf c px).length = 3 * px.length ∧
      ∀ (i : Nat) (h : i < px.length), ∀ j < 3, (frameOf c px)[3 * i + j]? = (pixelBytes c.wiring px[i])[j]? :=
  flatMap_three _ (fun _ => pixelBytes_length _ _) px

/-- The frame of a list of P pixels shows them (41_pipeline.md R168). -/
theorem frameOf_shows (c : Config) (br : Byte) (px : List RGB) (f : Nat → RGB) (hl : px.length = c.pixels)
    (hf : ∀ (i : Nat) (h : i < px.length), px[i] = f i) :
    Shows c br f (frameOf c (px.map fun x => applyBrightness x br)) := by
  have hs := frameOf_spec c (px.map fun x => applyBrightness x br)
  refine ⟨by rw [hs.1, List.length_map, hl], fun i hi j => ?_⟩
  have hj : j.val < (perm c.wiring).length := by rw [perm_length]; exact j.isLt
  refine ⟨(perm c.wiring)[j.val], List.getElem?_eq_getElem hj, ?_⟩
  rw [hs.2 i (by simp; omega) j.val j.isLt, pixelBytes, List.getElem?_map, List.getElem?_eq_getElem hj]
  simp [channel_applyBrightness, hf i (by omega)]

/-- What `showPixels` does with P pixels: it emits the frame that shows them, and nothing else (40_encoder.md R128). -/
theorem showPixels_emits (s : State) (px : List RGB) (f : Nat → RGB) (hl : px.length = s.cfg.pixels)
    (hf : ∀ (i : Nat) (h : i < px.length), px[i] = f i) : Emits s (showPixels px s) f :=
  ⟨_, frameOf_shows s.cfg (opBr s) px f hl hf, rfl⟩

end Sys2Proof.Machine
end

