-- ==== Sys2Proof/Laws/Hue.lean ====
section
/-! SUPPORT. Ramps and hue steps as numbers (42_animation.md R227 to R229). -/

namespace Sys2Proof.Machine

theorem rampDown_toNat (x s : Byte) : (rampDown x s).toNat = x.toNat - s.toNat := by
  have hx := x.isLt
  have hs := s.isLt
  unfold rampDown
  by_cases h : x < x - s
  · rw [if_pos h]; rw [BitVec.lt_def, BitVec.toNat_sub] at h; simp; omega
  · rw [if_neg h]; rw [BitVec.lt_def, BitVec.toNat_sub] at h; rw [BitVec.toNat_sub]; omega

theorem rampUp_toNat (x s : Byte) : (rampUp x s).toNat = min (x.toNat + s.toNat) 255 := by
  have hx := x.isLt
  have hs := s.isLt
  unfold rampUp
  by_cases h : x + s < x
  · rw [if_pos h]; rw [BitVec.lt_def, BitVec.toNat_add] at h; simp; omega
  · rw [if_neg h]; rw [BitVec.lt_def, BitVec.toNat_add] at h; rw [BitVec.toNat_add]; omega

theorem byte_eq_zero {x : Byte} : x = 0#8 ↔ x.toNat = 0 :=
  ⟨fun h => by rw [h]; rfl, fun h => BitVec.eq_of_toNat_eq h⟩

theorem coStep_ne_zero (x : Byte) : coStep x ≠ 0#8 := by
  have := x.isLt
  intro h
  have h2 := congrArg BitVec.toNat h
  simp only [coStep, co, BitVec.toNat_ofNat] at h2
  omega

/-- Two channels that sum to 255 still do after a step: both clamps act together (42_animation.md R228). -/
theorem ramp_pair {l g : Byte} (h : l.toNat + g.toNat = 255) (s : Byte) :
    (rampDown l s).toNat + (rampUp g s).toNat = 255 := by
  rw [rampDown_toNat, rampUp_toNat]; omega

/-- Where the losing channel reaches 0 the gaining one is not 0 (42_animation.md R228). -/
theorem rampUp_ne_zero {l g : Byte} (h : l.toNat + g.toNat = 255) {s : Byte} (hz : rampDown l s = 0#8) :
    rampUp g s ≠ 0#8 := by
  intro hu
  have := ramp_pair h s
  rw [hz, hu] at this
  simp at this

/-- A hue step keeps the state on the circle (42_animation.md R228, R229). -/
theorem hueStep_ok {c : RGB} {ph : HuePhase} (h : HueOk c ph) (s : Byte) :
    HueOk (hueStep c ph s).1 (hueStep c ph s).2 := by
  obtain ⟨r, g, b⟩ := c
  cases ph
  all_goals
    obtain ⟨hsum, h0, hn⟩ := h
    have hp := ramp_pair hsum s
    have hu := fun hz => rampUp_ne_zero hsum (s := s) hz
    simp only [hueStep, phaseAfter]
    split
    · rename_i hz
      refine ⟨?_, hz, hu hz⟩
      have h0' := congrArg BitVec.toNat h0
      have hz' := congrArg BitVec.toNat hz
      simp only [BitVec.ofNat_eq_ofNat, BitVec.toNat_ofNat] at *
      omega
    · rename_i hz
      exact ⟨hp, h0, hz⟩

/-- On the hue circle the channels sum to 255 (42_animation.md R229). -/
theorem hueOk_sum {c : RGB} {ph : HuePhase} (h : HueOk c ph) : c.r.toNat + c.g.toNat + c.b.toNat = 255 := by
  cases ph <;> obtain ⟨h1, h2, _⟩ := h <;> simp [h2] <;> omega

theorem hueOk_red : HueOk red .redGreen := by decide

end Sys2Proof.Machine
end

