-- ==== Sys2Proof/Laws/PerInstr.lean ====
section
/-! SUPPORT. A statement about every command as syntax: it is well formed, and its word is the "match" word of its row of
spec/opcode_table.json (30_encoding.md R93). -/

namespace Sys2Proof.Laws.Encoding

open Sys2Proof Sys2Proof.Machine

/-- The command is well formed and its word is its row's (30_encoding.md R93). -/
def Statement (i : Instr) : Prop := i.wellFormed = true ∧ ((encode i).toNat, i) ∈ opcodeRows

theorem nop : Statement .nop := by unfold Statement; decide
theorem scale : Statement .scale := by unfold Statement; decide
theorem renderUniform : Statement .renderUniform := by unfold Statement; decide
theorem renderSegments : Statement .renderSegments := by unfold Statement; decide
theorem renderSparse : Statement .renderSparse := by unfold Statement; decide
theorem segBuildEven : Statement .segBuildEven := by unfold Statement; decide
theorem spbClear : Statement .spbClear := by unfold Statement; decide
theorem spbPut : Statement .spbPut := by unfold Statement; decide
theorem spbDecay : Statement .spbDecay := by unfold Statement; decide
theorem spbPurge : Statement .spbPurge := by unfold Statement; decide
theorem animReset : Statement .animReset := by unfold Statement; decide
theorem animFade : Statement .animFade := by unfold Statement; decide
theorem animFadeEdge : Statement .animFadeEdge := by unfold Statement; decide
theorem animFadeEither : Statement .animFadeEither := by unfold Statement; decide
theorem animBreathe : Statement .animBreathe := by unfold Statement; decide
theorem animBreatheEdge : Statement .animBreatheEdge := by unfold Statement; decide
theorem animBreatheEither : Statement .animBreatheEither := by unfold Statement; decide
theorem animRainbow : Statement .animRainbow := by unfold Statement; decide
theorem animRainbowEdge : Statement .animRainbowEdge := by unfold Statement; decide
theorem animRainbowEither : Statement .animRainbowEither := by unfold Statement; decide
theorem animSwap : Statement .animSwap := by unfold Statement; decide
theorem animSwapEdge : Statement .animSwapEdge := by unfold Statement; decide
theorem animSwapEither : Statement .animSwapEither := by unfold Statement; decide
theorem animRain : Statement .animRain := by unfold Statement; decide
theorem animRainEdge : Statement .animRainEdge := by unfold Statement; decide
theorem animRainEither : Statement .animRainEither := by unfold Statement; decide
theorem animWipe : Statement .animWipe := by unfold Statement; decide
theorem animWipeEdge : Statement .animWipeEdge := by unfold Statement; decide
theorem animWipeEither : Statement .animWipeEither := by unfold Statement; decide

end Sys2Proof.Laws.Encoding
end

