-- ==== Sys2Proof/Laws/Runs.lean ====
section
/-! SUPPORT. Runs (70_reset_and_hazards.md R349): the observation does not depend on how many steps are allowed, its state is
the first at which the run has ended, and every run of admitted events ends. -/

namespace Sys2Proof.Machine

/-- A run that has ended is observed as it stands. -/
theorem observe_ended {s : State} (h : ended s = true) (n : Nat) : observe n s = some ⟨s, []⟩ := by
  cases n <;> simp [observe, h]

/-- One step of a run that has not ended. -/
theorem observe_step {s t : State} (h : ended s = false) (ha : advance s = .next t) (n : Nat) :
    observe (n + 1) s = (observe n t).map fun o => ⟨o.state, stepWave s ++ o.dout⟩ := by
  simp [observe, h, ha]

/-- A run that is observed and has not ended takes a step. -/
theorem observe_some {s : State} {n : Nat} {o : Observation} (h : ended s = false) (ho : observe n s = some o) :
    ∃ m t o', n = m + 1 ∧ advance s = .next t ∧ observe m t = some o' ∧ o = ⟨o'.state, stepWave s ++ o'.dout⟩ := by
  cases n with
  | zero => simp [observe, h] at ho
  | succ m =>
    cases ha : advance s with
    | next t =>
      rw [observe_step h ha] at ho
      obtain ⟨o', h1, h2⟩ := Option.map_eq_some_iff.1 ho
      exact ⟨m, t, o', rfl, rfl, h1, h2.symm⟩
    | fault r => simp [observe, h, ha] at ho
    | refused r => simp [observe, h, ha] at ho

/-- More steps than needed make no difference. -/
theorem observe_mono {n : Nat} : ∀ {s : State} {o : Observation}, observe n s = some o → ∀ m, observe (n + m) s = some o := by
  induction n with
  | zero =>
    intro s o ho m
    cases h : ended s with
    | true => rw [observe_ended h] at ho ⊢; exact ho
    | false => simp [observe, h] at ho
  | succ n ih =>
    intro s o ho m
    cases h : ended s with
    | true => rw [observe_ended h] at ho ⊢; exact ho
    | false =>
      obtain ⟨k, t, o', hk, ha, h1, h2⟩ := observe_some h ho
      obtain rfl : n = k := by omega
      rw [show n + 1 + m = n + m + 1 by omega, observe_step h ha, ih h1 m, h2]
      rfl

/-- A run has one observation. -/
theorem Observed_unique {c : Config} {env : Env} {o o' : Observation} (h : Observed c env o) (h' : Observed c env o') :
    o = o' := by
  obtain ⟨n, hn⟩ := h
  obtain ⟨m, hm⟩ := h'
  have h1 := observe_mono hn m
  rw [Nat.add_comm, observe_mono hm n] at h1
  exact (Option.some.inj h1).symm

/-- The observed state is one at which the run has ended, and the observed waveform is that of the steps up to it. -/
theorem observe_spec {n : Nat} : ∀ {s : State} {o : Observation}, observe n s = some o →
    ended o.state = true ∧ ∃ k ≤ n, o.dout = waveform k s := by
  induction n with
  | zero =>
    intro s o ho
    cases h : ended s with
    | true => rw [observe_ended h] at ho; cases ho; exact ⟨h, 0, by omega, rfl⟩
    | false => simp [observe, h] at ho
  | succ n ih =>
    intro s o ho
    cases h : ended s with
    | true => rw [observe_ended h] at ho; cases ho; exact ⟨h, 0, by omega, rfl⟩
    | false =>
      obtain ⟨k, t, o', hk, ha, h1, rfl⟩ := observe_some h ho
      obtain rfl : n = k := by omega
      obtain ⟨h2, j, hj, h3⟩ := ih h1
      exact ⟨h2, j + 1, by omega, by simp [waveform, ha, h3]⟩

/-! ## The encoder comes to rest -/

/-- The encoder of configuration `c` reaches IDLE from `e`. -/
def ComesToRest (c : Config) (e : Encoder) : Prop := ∃ n, busy (encRun c n e) = false

theorem ComesToRest_step {c : Config} {e : Encoder} (h : ComesToRest c (encStep c e)) : ComesToRest c e := by
  obtain ⟨n, hn⟩ := h
  exact ⟨n + 1, hn⟩

/-- Counting down ends: what follows the last cycle of a state comes to rest, so the state does. -/
theorem comesToRest_count {c : Config} {x : EncPhase} {F : List Byte} {bi : Nat} {bt : Fin 8}
    (hx : x ≠ .idle) (h : ∀ k, k - 1 = 0 → ComesToRest c (encStep c ⟨x, k, F, bi, bt⟩)) :
    ∀ k, ComesToRest c ⟨x, k, F, bi, bt⟩ := by
  intro k
  induction k with
  | zero => exact ComesToRest_step (h 0 rfl)
  | succ k ih =>
    by_cases hk : k = 0
    · subst hk; exact ComesToRest_step (h 1 rfl)
    · refine ComesToRest_step ?_
      have : encStep c ⟨x, k + 1, F, bi, bt⟩ = ⟨x, k, F, bi, bt⟩ := by cases x <;> simp_all [encStep]
      rw [this]
      exact ih

theorem comesToRest_latch (c : Config) (k : Nat) (F : List Byte) (bi : Nat) (bt : Fin 8) :
    ComesToRest c ⟨.latch, k, F, bi, bt⟩ :=
  comesToRest_count (by decide) (fun k hk => ⟨0, by simp only [encRun, encStep]; rw [if_pos hk]; rfl⟩) k

/-- In HIGH and LOW, by the number of bits that follow the current one. -/
theorem comesToRest_bits (c : Config) (F : List Byte) : ∀ (n bi : Nat) (bt : Fin 8), 8 * (F.length - bi) + bt.val ≤ n →
    (∀ k, ComesToRest c ⟨.low, k, F, bi, bt⟩) ∧ ∀ k, ComesToRest c ⟨.high, k, F, bi, bt⟩ := by
  intro n
  induction n with
  | zero =>
    intro bi bt hn
    have hl : ∀ k, ComesToRest c ⟨.low, k, F, bi, bt⟩ := comesToRest_count (by decide) fun k hk => by
      simp only [encStep, if_pos hk, afterBit, if_neg (by omega : ¬ bt.val ≠ 0), if_neg (by omega : ¬ bi + 1 < F.length)]
      exact comesToRest_latch ..
    exact ⟨hl, comesToRest_count (by decide) fun k hk => by simp only [encStep, if_pos hk]; exact hl _⟩
  | succ n ih =>
    intro bi bt hn
    have hl : ∀ k, ComesToRest c ⟨.low, k, F, bi, bt⟩ := comesToRest_count (by decide) fun k hk => by
      simp only [encStep, if_pos hk, afterBit]
      by_cases h0 : bt.val ≠ 0
      · rw [if_pos h0]
        exact (ih bi ⟨bt.val - 1, by omega⟩ (by simp only; omega)).2 _
      · rw [if_neg h0]
        by_cases h1 : bi + 1 < F.length
        · rw [if_pos h1]
          exact (ih (bi + 1) 7 (by show 8 * (F.length - (bi + 1)) + 7 ≤ n; omega)).2 _
        · rw [if_neg h1]
          exact comesToRest_latch ..
    exact ⟨hl, comesToRest_count (by decide) fun k hk => by simp only [encStep, if_pos hk]; exact hl _⟩

/-- BUSY falls: no polling loop hangs (93_implementation_defined.md I16). -/
theorem comesToRest (c : Config) (e : Encoder) : ComesToRest c e := by
  obtain ⟨x, k, F, bi, bt⟩ := e
  cases x with
  | idle => exact ⟨0, rfl⟩
  | high => exact (comesToRest_bits c F _ bi bt (Nat.le_refl _)).2 k
  | low => exact (comesToRest_bits c F _ bi bt (Nat.le_refl _)).1 k
  | latch => exact comesToRest_latch ..

/-! ## Every run ends -/

/-- `t` has the configuration of `s` and the same events to come. -/
abbrev SameWorld (s t : State) : Prop := t.cfg = s.cfg ∧ t.env.pending = s.env.pending

theorem animStep_world (a : Anim) (t : Trig) {f : Bool → State → State} (hf : ∀ b s, SameWorld s (f b s)) (s : State) :
    SameWorld s (animStep a t f s) := by
  have h : SameWorld s (switchTo a t s) := by
    refine ⟨by simp, ?_⟩
    rw [switchTo_env]
    split <;> rfl
  rw [animStep_eq]
  exact ⟨(hf _ _).1.trans h.1, (hf _ _).2.trans h.2⟩

theorem fadeUpdate_world (t : Trig) (b : Bool) (s : State) : SameWorld s (fadeUpdate t b s) := by
  unfold fadeUpdate; dsimp only; split <;> try split
  all_goals exact ⟨rfl, rfl⟩

theorem breatheUpdate_world (t : Trig) (b : Bool) (s : State) : SameWorld s (breatheUpdate t b s) := by
  have hh : SameWorld s (breatheHold t b s) := by unfold breatheHold; split <;> exact ⟨rfl, rfl⟩
  have hr : ∀ u, SameWorld u (breatheRamp u) := by
    intro u; unfold breatheRamp; dsimp only; split <;> try split
    all_goals exact ⟨rfl, rfl⟩
  exact ⟨(hr _).1.trans hh.1, (hr _).2.trans hh.2⟩

theorem rainbowUpdate_world (t : Trig) (b : Bool) (s : State) : SameWorld s (rainbowUpdate t b s) := by
  unfold rainbowUpdate; split <;> exact ⟨rfl, rfl⟩

theorem swapUpdate_world (t : Trig) (b : Bool) (s : State) : SameWorld s (swapUpdate t b s) := by
  unfold swapUpdate; split <;> exact ⟨rfl, rfl⟩

theorem rainUpdate_world (t : Trig) (b : Bool) (s : State) : SameWorld s (rainUpdate t b s) := by
  have hd : SameWorld s (rainDecay (rainPurge s)) := by unfold rainDecay; split <;> exact ⟨rfl, rfl⟩
  have hs : ∀ u, SameWorld u (rainSpawn t b u) := by intro u; unfold rainSpawn; split <;> exact ⟨rfl, rfl⟩
  exact ⟨(hs _).1.trans hd.1, (hs _).2.trans hd.2⟩

theorem wipeUpdate_world (t : Trig) (b : Bool) (s : State) : SameWorld s (wipeUpdate t b s) := by
  unfold wipeUpdate; split <;> exact ⟨rfl, rfl⟩

theorem animSwap_world (t : Trig) (s : State) : SameWorld s (animSwap t s) := by
  unfold animSwap
  split
  · exact ⟨rfl, rfl⟩
  · exact animStep_world _ _ (swapUpdate_world t) s

theorem animWipe_world (t : Trig) (s : State) : SameWorld s (animWipe t s) := by
  have hf : ∀ u, SameWorld u (wipeFinish u) := by intro u; unfold wipeFinish; split <;> exact ⟨rfl, rfl⟩
  have h := animStep_world .wipe t (wipeUpdate_world t) s
  exact ⟨(hf _).1.trans h.1, (hf _).2.trans h.2⟩

/-- A command answers a next state of the same world: it neither takes nor adds an event. -/
theorem exec_world (i : Instr) (s : State) : ∃ t, exec i s = .next t ∧ SameWorld s t := by
  cases i
  case renderSegments =>
    show ∃ t, execRenderSegments s = _ ∧ _
    unfold execRenderSegments
    split
    · exact ⟨_, rfl, rfl, rfl⟩
    · split <;> exact ⟨_, rfl, rfl, rfl⟩
  case segBuildEven =>
    show ∃ t, execSegBuildEven s = _ ∧ _
    unfold execSegBuildEven
    split <;> exact ⟨_, rfl, rfl, rfl⟩
  case spbPut =>
    show ∃ t, execSpbPut s = _ ∧ _
    unfold execSpbPut
    split
    · exact ⟨_, rfl, rfl, rfl⟩
    · split <;> exact ⟨_, rfl, rfl, rfl⟩
  case animFade | animFadeEdge | animFadeEither => exact ⟨_, rfl, animStep_world _ _ (fadeUpdate_world _) s⟩
  case animBreathe | animBreatheEdge | animBreatheEither => exact ⟨_, rfl, animStep_world _ _ (breatheUpdate_world _) s⟩
  case animRainbow | animRainbowEdge | animRainbowEither => exact ⟨_, rfl, animStep_world _ _ (rainbowUpdate_world _) s⟩
  case animSwap | animSwapEdge | animSwapEither => exact ⟨_, rfl, animSwap_world _ s⟩
  case animRain | animRainEdge | animRainEither => exact ⟨_, rfl, animStep_world _ _ (rainUpdate_world _) s⟩
  case animWipe | animWipeEdge | animWipeEither => exact ⟨_, rfl, animWipe_world _ s⟩
  all_goals exact ⟨_, rfl, rfl, rfl⟩

/-- A write answers a next state of the same world. -/
theorem busWrite_world (a : Half) (v : Word) (s : State) : ∃ t, busWrite a v s = .next t ∧ SameWorld s t := by
  unfold busWrite
  split
  · exact ⟨_, rfl, rfl, rfl⟩
  · split
    · unfold acceptCommand
      split
      · exact ⟨_, rfl, rfl, rfl⟩
      · exact exec_world _ _
    · refine ⟨_, rfl, ?_⟩
      cases targetAt s.cfg a with
      | reg r => cases r <;> exact ⟨rfl, rfl⟩
      | _ => exact ⟨rfl, rfl⟩

/-- Some number of steps observes the run from `s`. -/
def Ends (s : State) : Prop := ∃ n o, observe n s = some o

theorem Ends_step {s t : State} (ha : advance s = .next t) (h : Ends t) : Ends s := by
  cases he : ended s with
  | true => exact ⟨0, _, observe_ended he 0⟩
  | false =>
    obtain ⟨n, o, hn⟩ := h
    exact ⟨n + 1, _, by rw [observe_step he ha, hn]; rfl⟩

/-- A run whose every step is a cycle until BUSY = 0 ends if it ends from there on. -/
theorem Ends_cycles {P : State → Prop} (hc : ∀ s, P s → busy s.enc = true → advance s = .next (encoderCycle s) ∧ P (encoderCycle s))
    (hi : ∀ s, P s → busy s.enc = false → Ends s) : ∀ (n : Nat) (s : State), P s → busy (encRun s.cfg n s.enc) = false → Ends s := by
  intro n
  induction n with
  | zero => exact hi
  | succ n ih =>
    intro s hp hb
    cases h : busy s.enc with
    | false => exact hi s hp h
    | true => exact Ends_step (hc s hp h).1 (ih _ (hc s hp h).2 hb)

/-- Every run of admitted events on a configuration that is built has an observation (70_reset_and_hazards.md R349). -/
theorem run_ends : ∀ (es : List Event) (s : State), s.cfg.Valid → s.env.pending = es → (∀ e ∈ es, e.wellFormed = true) →
    Ends s := by
  intro es
  induction es with
  | nil =>
    intro s hv hp _
    obtain ⟨n, hn⟩ := comesToRest s.cfg s.enc
    refine Ends_cycles (P := fun u => u.cfg.Valid ∧ u.env.pending = []) ?_ ?_ n s ⟨hv, hp⟩ hn
    · rintro u ⟨h1, h2⟩ _
      exact ⟨by unfold advance; rw [if_pos h1, h2], h1, h2⟩
    · rintro u ⟨_, h2⟩ hb
      exact ⟨0, _, observe_ended (by simp [ended, h2, hb]) 0⟩
  | cons e rest ih =>
    intro s hv hp hw
    have hr : ∀ t : State, SameWorld (withPending rest s) t → Ends t := fun t ht =>
      ih t (by rw [ht.1]; exact hv) ht.2 fun x hx => hw x (List.mem_cons_of_mem _ hx)
    have he : e.wellFormed = true := hw e List.mem_cons_self
    have ha : advance s = hostEvent e (withPending rest s) := by unfold advance; rw [if_pos hv, hp]
    cases e with
    | read n a =>
      refine Ends_step (ha.trans ?_) (hr (returnData (busRead (withPending rest s) a) (withPending rest s)) ⟨rfl, rfl⟩)
      show (if _ then _ else _) = _
      rw [if_pos (by exact he)]
    | write n a v =>
      obtain ⟨t, h1, h2⟩ := busWrite_world a v (withPending rest s)
      refine Ends_step (ha.trans ?_) (hr t h2)
      show (if _ then _ else _) = _
      rw [if_pos (by exact he), h1]
    | cycle => exact Ends_step ha (hr _ ⟨rfl, rfl⟩)
    | driveTick v => exact Ends_step ha (hr _ ⟨rfl, rfl⟩)
    | driveGate b => exact Ends_step ha (hr _ ⟨rfl, rfl⟩)
    | giveRand vs => exact Ends_step ha (hr _ ⟨rfl, rfl⟩)
    | reset => exact Ends_step ha (hr _ ⟨rfl, rfl⟩)
    | wait =>
      obtain ⟨n, hn⟩ := comesToRest s.cfg s.enc
      refine Ends_cycles (P := fun u => u.cfg.Valid ∧ u.env.pending = .wait :: rest) ?_ ?_ n s ⟨hv, hp⟩ hn
      · rintro u ⟨h1, h2⟩ hb
        refine ⟨?_, h1, h2⟩
        unfold advance
        rw [if_pos h1, h2]
        show (if _ then _ else _) = _
        rw [if_pos (by exact hb)]
        show Host.Outcome.next { u with env := { u.env with pending := .wait :: rest }, enc := _ } = _
        rw [← h2]
        rfl
      · rintro u ⟨h1, h2⟩ hb
        refine Ends_step (t := returnData (statusWord (withPending rest u)) (withPending rest u)) ?_
          (ih _ h1 rfl fun x hx => hw x (List.mem_cons_of_mem _ hx))
        unfold advance
        rw [if_pos h1, h2]
        show (if _ then _ else _) = _
        rw [if_neg (by simp [hb])]

/-- Every host and environment of admitted accesses is observed on every block that is built. -/
theorem Observed_exists {c : Config} {env : Env} (hv : c.Valid) (hw : ∀ e ∈ env.pending, e.wellFormed = true) :
    ∃ o, Observed c env o := by
  obtain ⟨n, o, h⟩ := run_ends env.pending (State.resetIn c env) hv rfl hw
  exact ⟨o, n, h⟩

end Sys2Proof.Machine
end

