-- ==== Sys2Proof/Laws/Segments.lean ====
section
/-! SUPPORT. Segment lists: how many pixels they have and what colour each pixel is (41_pipeline.md R169, R170). -/

namespace Sys2Proof.Machine

theorem segPixels_length (segs : List (Nat × RGB)) : (segPixels segs).length = (segs.map Prod.fst).sum := by
  induction segs with
  | nil => rfl
  | cons x xs ih => simp [segPixels] at ih ⊢

/-- Pixel `q` of segment `k` is pixel `q` after the segments before it (41_pipeline.md R170). -/
theorem segPixels_get {segs : List (Nat × RGB)} {k : Nat} (hk : k < segs.length) {q : Nat} (hq : q < segs[k].1) :
    (segPixels segs)[((segs.take k).map Prod.fst).sum + q]? = some segs[k].2 := by
  induction segs generalizing k with
  | nil => simp at hk
  | cons x xs ih =>
    cases k with
    | zero =>
      simp only [List.getElem_cons_zero] at hq
      simp only [segPixels, List.flatMap_cons, List.take_zero, List.map_nil, List.sum_nil, Nat.zero_add,
        List.getElem_cons_zero]
      rw [List.getElem?_append_left (by simpa using hq)]
      simp [hq]
    | succ k =>
      have hk' : k < xs.length := by simpa using hk
      have := ih hk' (by simpa using hq)
      simp only [segPixels, List.flatMap_cons, List.take_succ_cons, List.map_cons, List.sum_cons,
        List.getElem_cons_succ] at this ⊢
      rw [List.getElem?_append_right (by simp; omega)]
      simp only [List.length_replicate]
      rw [show x.1 + ((xs.take k).map Prod.fst).sum + q - x.1 = ((xs.take k).map Prod.fst).sum + q by omega]
      exact this

/-- The even lengths before segment `k` of `n` (41_pipeline.md R169). -/
theorem evenLen_sum_before {n p : Nat} (k : Nat) (hk : k < n) :
    (((List.range k).map fun j => evenLen j n p)).sum = k * (p / n) := by
  induction k with
  | zero => simp
  | succ k ih =>
    rw [List.range_succ, List.map_append, List.sum_append, ih (by omega)]
    simp only [List.map_cons, List.map_nil, List.sum_cons, List.sum_nil, evenLen]
    rw [if_neg (by omega)]
    ring

/-- The even lengths sum to the pixel count (41_pipeline.md R187). -/
theorem evenLen_sum {n p : Nat} (hn : 1 ≤ n) : (((List.range n).map fun j => evenLen j n p)).sum = p := by
  obtain ⟨m, rfl⟩ : ∃ m, n = m + 1 := ⟨n - 1, by omega⟩
  rw [List.range_succ, List.map_append, List.sum_append, evenLen_sum_before m (by omega)]
  simp only [List.map_cons, List.map_nil, List.sum_cons, List.sum_nil, evenLen, if_true, Nat.add_sub_cancel]
  have h1 : m * (p / (m + 1)) ≤ (m + 1) * (p / (m + 1)) := Nat.mul_le_mul (by omega) (le_refl _)
  have h2 := Nat.mul_div_le p (m + 1)
  omega

/-- The even segment that covers a pixel (41_pipeline.md R169, R170): `i div (P div N)`, at most the last. -/
theorem evenPixels_get {n p : Nat} (hn : 1 ≤ n) (col : Nat → RGB) {i : Nat} (hi : i < p) :
    (segPixels ((List.range n).map fun k => (evenLen k n p, col k)))[i]? =
      some (col (if p / n = 0 then n - 1 else min (i / (p / n)) (n - 1))) := by
  generalize hk : (if p / n = 0 then n - 1 else min (i / (p / n)) (n - 1)) = k
  have hkn : k < n := by
    rw [← hk]; split
    · omega
    · have := Nat.min_le_right (i / (p / n)) (n - 1); omega
  have hki : k * (p / n) ≤ i := by
    rw [← hk]; split
    · rename_i h; rw [h]; omega
    · have h1 := Nat.mul_le_mul_right (p / n) (Nat.min_le_left (i / (p / n)) (n - 1))
      exact le_trans h1 (Nat.div_mul_le_self _ _)
  have hq : i - k * (p / n) < evenLen k n p := by
    unfold evenLen
    by_cases hl : k + 1 = n
    · rw [if_pos hl]
      have : n - 1 = k := by omega
      rw [this]; omega
    · rw [if_neg hl]
      have hkd : k = i / (p / n) := by
        by_cases h0 : p / n = 0
        · rw [if_pos h0] at hk; omega
        · rw [if_neg h0] at hk; omega
      have hpos : 0 < p / n := by
        by_contra hc
        rw [if_pos (Nat.eq_zero_of_not_pos hc)] at hk; omega
      have := Nat.mod_lt i hpos
      have h2 := Nat.div_add_mod i (p / n)
      rw [← hkd, Nat.mul_comm] at h2
      omega
  have hsum : (((((List.range n).map fun k => (evenLen k n p, col k))).take k).map Prod.fst).sum = k * (p / n) := by
    rw [← List.map_take, List.map_map, List.take_range, Nat.min_eq_left (by omega)]
    exact evenLen_sum_before k hkn
  have h := segPixels_get (segs := (List.range n).map fun k => (evenLen k n p, col k)) (k := k) (by simpa using hkn)
    (q := i - k * (p / n)) (by simpa using hq)
  rw [hsum, show k * (p / n) + (i - k * (p / n)) = i by omega] at h
  simpa using h

/-- An even division has as many pixels as the strip (41_pipeline.md R187). -/
theorem evenPixels_length {n p : Nat} (hn : 1 ≤ n) (col : Nat → RGB) :
    (segPixels ((List.range n).map fun k => (evenLen k n p, col k))).length = p := by
  rw [segPixels_length, List.map_map]
  exact evenLen_sum hn

end Sys2Proof.Machine
end

