-- ==== Sys2Proof/Laws/Sparse.lean ====
section
/-! SUPPORT. Sparse buffers: what each operation does, and that it keeps the buffer sorted and within its bounds
(41_pipeline.md R171 to R175, R186). -/

namespace Sys2Proof.Machine

theorem insertEntry_length (e : Entry) (S : List Entry) : (insertEntry e S).length = S.length + 1 := by
  induction S with
  | nil => rfl
  | cons x xs ih => unfold insertEntry; split <;> simp [ih]

theorem mem_insertEntry {e f : Entry} {S : List Entry} : f ∈ insertEntry e S ↔ f = e ∨ f ∈ S := by
  induction S with
  | nil => simp [insertEntry]
  | cons x xs ih =>
    unfold insertEntry
    split
    · simp
    · simp only [List.mem_cons, ih]; tauto

/-- Inserting a new position keeps the order (41_pipeline.md R173). -/
theorem insertEntry_sorted {e : Entry} {S : List Entry} (h : S.Pairwise fun x y => x.pos.toNat < y.pos.toNat)
    (hn : ∀ x ∈ S, x.pos ≠ e.pos) : (insertEntry e S).Pairwise fun x y => x.pos.toNat < y.pos.toNat := by
  induction S with
  | nil => simp [insertEntry]
  | cons x xs ih =>
    have hx := List.pairwise_cons.1 h
    have hne : x.pos.toNat ≠ e.pos.toNat := fun he => hn x (by simp) (BitVec.eq_of_toNat_eq he)
    unfold insertEntry
    split
    · rename_i hlt
      refine List.pairwise_cons.2 ⟨fun y hy => ?_, h⟩
      rcases List.mem_cons.1 hy with rfl | hy
      · exact hlt
      · have := hx.1 y hy; omega
    · refine List.pairwise_cons.2 ⟨fun y hy => ?_, ih hx.2 fun z hz => hn z (by simp [hz])⟩
      rcases mem_insertEntry.1 hy with rfl | hy
      · omega
      · exact hx.1 y hy

theorem occupied_iff {S : List Entry} {p : Half} : occupied S p = true ↔ ∃ e ∈ S, e.pos = p := by
  simp [occupied]

/-- A free position is occupied by no entry. -/
theorem occupied_false {S : List Entry} {p : Half} : occupied S p = false ↔ ∀ e ∈ S, e.pos ≠ p := by
  simp [occupied]

/-- The three outcomes of `Put` (41_pipeline.md R173). -/
theorem put_cases (S : List Entry) (p : Half) (c : RGB) (cap : Nat) :
    (occupied S p = true ∧ put S p c cap = (S.map fun e => if e.pos = p then ⟨e.pos, c⟩ else e, .updated)) ∨
    (occupied S p = false ∧ S.length < cap ∧ put S p c cap = (insertEntry ⟨p, c⟩ S, .inserted)) ∨
    (occupied S p = false ∧ cap ≤ S.length ∧ put S p c cap = (S, .dropped)) := by
  unfold put
  by_cases h : occupied S p = true
  · left; simp [h]
  · right
    rw [if_neg h]
    have h' : occupied S p = false := by simpa using h
    by_cases hl : S.length < cap
    · left; exact ⟨h', hl, by rw [if_pos hl]⟩
    · right; exact ⟨h', by omega, by rw [if_neg hl]⟩

/-- Replacing colours keeps a sparse buffer in order and in bounds. -/
theorem SparseOk_map {P cap : Nat} {S : List Entry} (h : SparseOk P cap S) (f : Entry → Entry) (hf : ∀ e, (f e).pos = e.pos) :
    SparseOk P cap (S.map f) := by
  refine ⟨?_, ?_, by simpa using h.2.2⟩
  · rw [List.pairwise_map]; simpa [hf] using h.1
  · intro e he
    obtain ⟨x, hx, rfl⟩ := List.mem_map.1 he
    rw [hf]; exact h.2.1 x hx

/-- Removing entries keeps a sparse buffer in order and in bounds. -/
theorem SparseOk_filter {P cap : Nat} {S : List Entry} (h : SparseOk P cap S) (p : Entry → Bool) : SparseOk P cap (S.filter p) :=
  ⟨h.1.filter _, fun e he => h.2.1 e (List.mem_filter.1 he).1, le_trans (List.length_filter_le _ _) h.2.2⟩

/-- An entry inserted at a free position of the strip, with room, keeps the buffer in order and in bounds. -/
theorem SparseOk_insert {P cap : Nat} {S : List Entry} (h : SparseOk P cap S) {e : Entry} (hp : e.pos.toNat < P)
    (hn : ∀ x ∈ S, x.pos ≠ e.pos) (hl : S.length < cap) : SparseOk P cap (insertEntry e S) :=
  ⟨insertEntry_sorted h.1 hn, fun f hf => by
    rcases mem_insertEntry.1 hf with rfl | hf
    · exact hp
    · exact h.2.1 f hf, by rw [insertEntry_length]; omega⟩

theorem SparseOk_decay {P cap : Nat} {S : List Entry} (h : SparseOk P cap S) : SparseOk P cap (decay S) :=
  SparseOk_map h _ fun _ => rfl

theorem SparseOk_purge {P cap : Nat} {S : List Entry} (h : SparseOk P cap S) : SparseOk P cap (purge S) :=
  SparseOk_filter h _

theorem SparseOk_nil (P cap : Nat) : SparseOk P cap [] := ⟨.nil, by simp, by simp⟩

/-- `Put` keeps the invariant for a position of the strip (41_pipeline.md R171). -/
theorem SparseOk_put {P cap : Nat} {S : List Entry} (h : SparseOk P cap S) {p : Half} (hp : p.toNat < P) (c : RGB) :
    SparseOk P cap (put S p c cap).1 := by
  rcases put_cases S p c cap with ⟨_, he⟩ | ⟨hf, hl, he⟩ | ⟨_, _, he⟩ <;> rw [he]
  · exact SparseOk_map h _ fun e => by split <;> rfl
  · exact SparseOk_insert h hp (occupied_false.1 hf) hl
  · exact h

/-- Positions of a sorted buffer name their entries. -/
theorem sorted_unique {S : List Entry} (h : S.Pairwise fun x y => x.pos.toNat < y.pos.toNat) {e f : Entry} (he : e ∈ S)
    (hf : f ∈ S) (hp : e.pos = f.pos) : e = f := by
  induction S with
  | nil => simp at he
  | cons x xs ih =>
    have hx := List.pairwise_cons.1 h
    rcases List.mem_cons.1 he with h1 | h1 <;> rcases List.mem_cons.1 hf with h2 | h2
    · rw [h1, h2]
    · have := hx.1 f h2; rw [← h1, hp] at this; omega
    · have := hx.1 e h1; rw [← h2, hp] at this; omega
    · exact ih hx.2 h1 h2

theorem sparseWalk_length (n i : Nat) (S : List Entry) : (sparseWalk n i S).length = n := by
  induction n generalizing i S with
  | zero => rfl
  | succ n ih => cases S <;> simp only [sparseWalk] <;> first | simp [ih] | (split <;> simp [ih])

/-- The forward walk finds what stands at a position (41_pipeline.md R172). -/
theorem sparseWalk_get {n i : Nat} {S : List Entry} (h : S.Pairwise fun x y => x.pos.toNat < y.pos.toNat)
    (hi : ∀ e ∈ S, i ≤ e.pos.toNat) (q : Nat) (hq : q < n) :
    (∀ e ∈ S, e.pos.toNat = i + q → (sparseWalk n i S)[q]? = some e.color) ∧
      ((∀ e ∈ S, e.pos.toNat ≠ i + q) → (sparseWalk n i S)[q]? = some black) := by
  induction n generalizing i S q with
  | zero => omega
  | succ n ih =>
    cases S with
    | nil =>
      refine ⟨by simp, fun _ => ?_⟩
      cases q with
      | zero => simp [sparseWalk]
      | succ q =>
        have := (ih (i := i + 1) List.Pairwise.nil (by simp) q (by omega)).2 (by simp)
        simpa [sparseWalk] using this
    | cons x xs =>
      have hx := List.pairwise_cons.1 h
      have hxi := hi x (by simp)
      by_cases hc : x.pos.toNat = i
      · cases q with
        | zero =>
          simp only [sparseWalk, if_pos hc]
          refine ⟨fun e he hp => ?_, fun hn => absurd hc (by simpa using hn x (by simp))⟩
          have : e = x := sorted_unique h he (by simp) (BitVec.eq_of_toNat_eq (by omega))
          simp [this]
        | succ q =>
          have := ih (i := i + 1) hx.2 (fun e he => by have := hx.1 e he; omega) q (by omega)
          simp only [sparseWalk, if_pos hc, List.getElem?_cons_succ]
          have e1 : i + (q + 1) = i + 1 + q := by omega
          rw [e1]
          refine ⟨fun e he hp => ?_, fun hn => this.2 fun e he => hn e (by simp [he])⟩
          rcases List.mem_cons.1 he with rfl | he
          · omega
          · exact this.1 e he hp
      · cases q with
        | zero =>
          simp only [sparseWalk, if_neg hc]
          refine ⟨fun e he hp => ?_, fun _ => by simp⟩
          rcases List.mem_cons.1 he with rfl | he
          · omega
          · have := hx.1 e he; omega
        | succ q =>
          have := ih (i := i + 1) h (fun e he => by
            rcases List.mem_cons.1 he with rfl | he
            · omega
            · have := hx.1 e he; omega) q (by omega)
          simp only [sparseWalk, if_neg hc, List.getElem?_cons_succ]
          have e1 : i + (q + 1) = i + 1 + q := by omega
          rw [e1]
          exact this

theorem sparsePixels_length (S : List Entry) (P : Nat) : (sparsePixels S P).length = P := sparseWalk_length _ _ _

/-- The pixels of a sorted buffer (41_pipeline.md R172). -/
theorem sparsePixels_spec {P cap : Nat} {S : List Entry} (h : SparseOk P cap S) :
    (∀ e ∈ S, (sparsePixels S P).getD e.pos.toNat black = e.color) ∧
      (∀ i, (∀ e ∈ S, e.pos.toNat ≠ i) → (sparsePixels S P).getD i black = black) := by
  constructor
  · intro e he
    have := (sparseWalk_get h.1 (i := 0) (by simp) e.pos.toNat (h.2.1 e he)).1 e he (by omega)
    simp [sparsePixels, List.getD_eq_getElem?_getD, this]
  · intro i hi
    by_cases hP : i < P
    · have := (sparseWalk_get h.1 (i := 0) (by simp) i hP).2 (by simpa using hi)
      simp [sparsePixels, List.getD_eq_getElem?_getD, this]
    · rw [List.getD_eq_default]
      rw [sparsePixels_length]; omega

/-- The free positions count what the entries leave (42_animation.md R235: m = P - len). -/
theorem freePositions_length {P cap : Nat} {S : List Entry} (h : SparseOk P cap S) (hP : P ≤ 65535) :
    (freePositions S P).length = P - S.length ∧ S.length ≤ P := by
  have hnd : (S.map fun e => e.pos.toNat).Nodup := by
    rw [List.nodup_iff_pairwise_ne, List.pairwise_map]
    exact h.1.imp fun h => by omega
  have hocc : ∀ i ∈ List.range P, occupied S (BitVec.ofNat 16 i) = decide (i ∈ S.map fun e => e.pos.toNat) := by
    intro i hi
    have hi' : i < P := by simpa using hi
    rw [Bool.eq_iff_iff, occupied_iff, decide_eq_true_iff, List.mem_map]
    constructor
    · rintro ⟨e, he, hp⟩
      exact ⟨e, he, by rw [hp, BitVec.toNat_ofNat]; omega⟩
    · rintro ⟨e, he, hp⟩
      exact ⟨e, he, by rw [← hp]; simp⟩
  have hsub : ((List.range P).filter (fun i => decide (i ∈ S.map fun e => e.pos.toNat))).Perm (S.map fun e => e.pos.toNat) := by
    refine (List.perm_ext_iff_of_nodup (List.nodup_range.filter _) hnd).2 fun i => ?_
    simp only [List.mem_filter, List.mem_range, decide_eq_true_eq]
    refine ⟨fun h => h.2, fun hm => ⟨?_, hm⟩⟩
    obtain ⟨e, he, rfl⟩ := List.mem_map.1 hm
    exact h.2.1 e he
  have hl := hsub.length_eq
  have h2 := List.length_eq_length_filter_add (l := List.range P) (fun i => decide (i ∈ S.map fun e => e.pos.toNat))
  have h3 : freePositions S P = (List.range P).filter fun i => !decide (i ∈ S.map fun e => e.pos.toNat) :=
    List.filter_congr fun i hi => by rw [hocc i hi]
  rw [h3]
  simp only [List.length_range, List.length_map] at *
  omega

/-- The `q`-th free position: a free position of the strip with exactly `q` free positions below it
(42_animation.md R235). -/
theorem freePositions_get {P cap : Nat} {S : List Entry} (h : SparseOk P cap S) (hP : P ≤ 65535) {q : Nat}
    (hq : q < P - S.length) :
    (freePositions S P).getD q 0 < P ∧ (∀ e ∈ S, e.pos.toNat ≠ (freePositions S P).getD q 0) ∧
      ((List.range ((freePositions S P).getD q 0)).filter fun i => S.all fun e => e.pos.toNat ≠ i).length = q := by
  have hl := freePositions_length h hP
  have hq' : q < (freePositions S P).length := by omega
  have hg : (freePositions S P).getD q 0 = (freePositions S P)[q] := by simp [List.getD_eq_getElem?_getD, hq']
  rw [hg]
  have hmem := List.mem_filter.1 (List.getElem_mem hq')
  have hlt : (freePositions S P)[q] < P := by simpa using hmem.1
  refine ⟨hlt, ?_, ?_⟩
  · intro e he hp
    have : occupied S (BitVec.ofNat 16 (freePositions S P)[q]) = false := by simpa using hmem.2
    exact occupied_false.1 this e he (by rw [← hp]; simp)
  · -- the free positions below the q-th are the first q
    have hsort : (freePositions S P).Pairwise (· < ·) := List.pairwise_lt_range.filter _
    have hperm : ((List.range (freePositions S P)[q]).filter fun i => S.all fun e => e.pos.toNat ≠ i).Perm
        ((freePositions S P).take q) := by
      refine (List.perm_ext_iff_of_nodup (List.nodup_range.filter _)
        (((List.nodup_range).filter _).sublist (List.take_sublist _ _))).2 fun i => ?_
      have hfree : ∀ i < P, (S.all fun e => e.pos.toNat ≠ i) = !occupied S (BitVec.ofNat 16 i) := by
        intro i hi
        rw [Bool.eq_iff_iff]
        simp only [List.all_eq_true, decide_eq_true_eq, Bool.not_eq_true', occupied_false]
        constructor
        · intro hn e he hp
          exact hn e he (by rw [hp, BitVec.toNat_ofNat]; omega)
        · intro hn e he hp
          exact hn e he (by rw [← hp]; simp)
      rw [List.mem_filter, List.mem_range, List.mem_take_iff_getElem]
      constructor
      · rintro ⟨hi, ha⟩
        have him : i ∈ freePositions S P := by
          refine List.mem_filter.2 ⟨by simp; omega, ?_⟩
          rw [← hfree i (by omega)]; exact ha
        obtain ⟨j, hj, rfl⟩ := List.getElem_of_mem him
        refine ⟨j, lt_min ?_ hj, rfl⟩
        by_contra hc
        have hqj : q ≤ j := by omega
        rcases Nat.eq_or_lt_of_le hqj with rfl | hlt2
        · omega
        · have h4 : (freePositions S P)[q] < (freePositions S P)[j] := List.pairwise_iff_getElem.1 hsort q j hq' hj hlt2
          omega
      · rintro ⟨j, hj, rfl⟩
        have hjl : j < (freePositions S P).length := lt_of_lt_of_le hj (Nat.min_le_right _ _)
        have hlt2 : (freePositions S P)[j] < (freePositions S P)[q] :=
          List.pairwise_iff_getElem.1 hsort j q hjl hq' (lt_of_lt_of_le hj (Nat.min_le_left _ _))
        refine ⟨hlt2, ?_⟩
        refine (hfree _ (lt_trans hlt2 hlt)).trans ?_
        exact (List.mem_filter.1 (List.getElem_mem hjl)).2
    rw [hperm.length_eq, List.length_take]; omega

end Sys2Proof.Machine
end

