-- ==== Sys2Proof/Tests/Slice0.lean ====
section
/-! SUPPORT. Tests: the checks of WellFormed refuse, every command's word written out from 30_encoding.md R90 and R93, single
steps with the values of 95_test_vectors.md and of the rules' own examples, and a witness for the hypotheses of each
statement. -/

namespace Sys2Proof.Tests

open Sys2Proof Sys2Proof.Machine

/-! ## Helpers -/

/-- The example configuration with `p` pixels and wiring `w`. -/
def cfg (p w : Nat) : Config := { Config.example60 with pixels := p, wiring := w }

/-- The world with TICK_I and GATE_I driven and the answers `rs` of the oracle. -/
def world (now : Word) (gate : Bool) (rs : List Word) : Env := { Env.quiet with tick := some now, gate := some gate, rands := rs }

/-- An idle block with the given arguments, at TICK_I = now and GATE_I = 0. -/
def idle (c : Config) (now a0 a1 a2 a3 : Word) : State :=
  { State.resetIn c (world now false []) with enc := encIdle, arg0 := a0, arg1 := a1, arg2 := a2, arg3 := a3 }

/-- The state after a command. -/
def run (i : Instr) (s : State) : State :=
  match exec i s with
  | .next t => t
  | .fault _ => s
  | .refused _ => s

/-- The state after a step. -/
def next (s : State) : State :=
  match step s with
  | .next t => t
  | .fault _ => s
  | .refused _ => s

/-- The idle block again, one command later, at another time and with RESULT cleared by the acceptance. -/
def again (now : Word) (gate : Bool) (s : State) : State :=
  { s with env := world now gate s.env.rands, enc := encIdle, result := 0 }

/-- Two pixels of palette 0x0A, 0x0B, 0x0C (V7). -/
def withPalette (s : State) : State :=
  { s with palLen := 3, mem := setPal 0 0x0A (setPal 1 0x0B (setPal 2 0x0C [])) }

/-! ## WellFormed (V4, R313, R63) -/

theorem test_wf_example : Config.example60.wellFormed = true := by decide
theorem test_wf_clock_zero : { Config.example60 with fClkHz := 0 }.wellFormed = false := by decide
theorem test_wf_target_zero : { Config.example60 with t0hMaxNs := 0 }.wellFormed = false := by decide
theorem test_wf_v1_no_zero_pulse : { Config.example60 with t0hNs := 0 }.wellFormed = false := by decide
theorem test_wf_v2_clock_too_slow : { Config.example60 with fClkHz := 1000000 }.wellFormed = false := by decide
theorem test_wf_v3_pulses_alike : { Config.example60 with t1hNs := 400 }.wellFormed = false := by decide
theorem test_wf_v4_no_low_part : { Config.example60 with tbitNs := 800 }.wellFormed = false := by decide
theorem test_wf_v5_no_latch : { Config.example60 with tresetNs := 0 }.wellFormed = false := by decide
theorem test_wf_wiring : { Config.example60 with wiring := 6 }.wellFormed = false := by decide
theorem test_wf_port_same : { Config.example60 with portLo := 0x01 }.wellFormed = false := by decide
theorem test_wf_port_two_bits : { Config.example60 with portHi := 0x03 }.wellFormed = false := by decide
theorem test_wf_port_low_bit : { Config.example60 with portHi := 0x00, portLo := 0x01 }.wellFormed = false := by decide
theorem test_wf_pixels : { Config.example60 with pixels := 0 }.wellFormed = false ∧
    { Config.example60 with pixels := 65536 }.wellFormed = false := by decide
theorem test_wf_seg_cap : { Config.example60 with segCap := 0 }.wellFormed = false ∧
    { Config.example60 with segCap := 256 }.wellFormed = false := by decide
theorem test_wf_pal_cap : { Config.example60 with palCap := 0 }.wellFormed = false ∧
    { Config.example60 with palCap := 256 }.wellFormed = false := by decide
theorem test_wf_spb_cap : { Config.example60 with spbCap := 0 }.wellFormed = false ∧
    { Config.example60 with spbCap := 2561 }.wellFormed = false := by decide
theorem test_wf_rain_cap : { Config.example60 with rainCap := 0 }.wellFormed = false ∧
    { Config.example60 with rainCap := 256 }.wellFormed = false := by decide
theorem test_wf_read_width : (Event.read 2 0x010).wellFormed = false := by decide
theorem test_wf_write_misaligned : (Event.write 4 0x012 0).wellFormed = false := by decide
/-- V4: the cycle counts at 20 MHz and at 16 MHz. -/
theorem test_ncyc : (n0h Config.example60, n1h Config.example60, nbit Config.example60, nreset Config.example60) =
    (8, 16, 25, 1000) ∧ n0h { Config.example60 with fClkHz := 16000000 } = 7 := by decide

/-! ## Decoding: each word written out from R90 (TRIG 9:8, OPC 7:0) and R93 -/

theorem test_decode_nop : decode 0b0000000000000000000000_00_00000000 = .ok .nop := by decide
theorem test_decode_scale : decode 0b0000000000000000000000_00_00000001 = .ok .scale := by decide
theorem test_decode_renderUniform : decode 0b0000000000000000000000_00_00000010 = .ok .renderUniform := by decide
theorem test_decode_renderSegments : decode 0b0000000000000000000000_00_00000011 = .ok .renderSegments := by decide
theorem test_decode_renderSparse : decode 0b0000000000000000000000_00_00000100 = .ok .renderSparse := by decide
theorem test_decode_segBuildEven : decode 0b0000000000000000000000_00_00000101 = .ok .segBuildEven := by decide
theorem test_decode_spbClear : decode 0b0000000000000000000000_00_00000110 = .ok .spbClear := by decide
theorem test_decode_spbPut : decode 0b0000000000000000000000_00_00000111 = .ok .spbPut := by decide
theorem test_decode_spbDecay : decode 0b0000000000000000000000_00_00001000 = .ok .spbDecay := by decide
theorem test_decode_spbPurge : decode 0b0000000000000000000000_00_00001001 = .ok .spbPurge := by decide
theorem test_decode_animReset : decode 0b0000000000000000000000_00_00001111 = .ok .animReset := by decide
theorem test_decode_animFade : decode 0b0000000000000000000000_00_00010000 = .ok .animFade := by decide
theorem test_decode_animFadeEdge : decode 0b0000000000000000000000_01_00010000 = .ok .animFadeEdge := by decide
theorem test_decode_animFadeEither : decode 0b0000000000000000000000_10_00010000 = .ok .animFadeEither := by decide
theorem test_decode_animBreathe : decode 0b0000000000000000000000_00_00010001 = .ok .animBreathe := by decide
theorem test_decode_animBreatheEdge : decode 0b0000000000000000000000_01_00010001 = .ok .animBreatheEdge := by decide
theorem test_decode_animBreatheEither : decode 0b0000000000000000000000_10_00010001 = .ok .animBreatheEither := by decide
theorem test_decode_animRainbow : decode 0b0000000000000000000000_00_00010010 = .ok .animRainbow := by decide
theorem test_decode_animRainbowEdge : decode 0b0000000000000000000000_01_00010010 = .ok .animRainbowEdge := by decide
theorem test_decode_animRainbowEither : decode 0b0000000000000000000000_10_00010010 = .ok .animRainbowEither := by decide
theorem test_decode_animSwap : decode 0b0000000000000000000000_00_00010011 = .ok .animSwap := by decide
theorem test_decode_animSwapEdge : decode 0b0000000000000000000000_01_00010011 = .ok .animSwapEdge := by decide
theorem test_decode_animSwapEither : decode 0b0000000000000000000000_10_00010011 = .ok .animSwapEither := by decide
theorem test_decode_animRain : decode 0b0000000000000000000000_00_00010100 = .ok .animRain := by decide
theorem test_decode_animRainEdge : decode 0b0000000000000000000000_01_00010100 = .ok .animRainEdge := by decide
theorem test_decode_animRainEither : decode 0b0000000000000000000000_10_00010100 = .ok .animRainEither := by decide
theorem test_decode_animWipe : decode 0b0000000000000000000000_00_00010101 = .ok .animWipe := by decide
theorem test_decode_animWipeEdge : decode 0b0000000000000000000000_01_00010101 = .ok .animWipeEdge := by decide
theorem test_decode_animWipeEither : decode 0b0000000000000000000000_10_00010101 = .ok .animWipeEither := by decide

/-- V6: the words it rejects. -/
theorem test_decode_illegal :
    decode 0x0000000A = .error .unknownOpcode ∧ decode 0x0000000E = .error .unknownOpcode ∧
    decode 0x00000016 = .error .unknownOpcode ∧ decode 0x000000FF = .error .unknownOpcode ∧
    decode 0x00000101 = .error .trigOnPipeline ∧ decode 0x00000310 = .error .illegalTrig ∧
    decode 0x00000410 = .error .reservedBits ∧ decode 0x80000010 = .error .reservedBits := by decide
theorem test_decodeTableWord : decodeTableWord 32 0x215 = some .animWipeEither ∧ decodeTableWord 32 0x315 = none := by decide

/-- Right after reset with a command placed, the very next step accepts it: CMD_LAST is its word (R25). -/
theorem test_withFetchWord_runs :
    (next (State.reset.withFetchWord 32 0x00000009)).cmdLast = 0x00000009 ∧
    (next (State.reset.withFetchWord 32 0x0000000A)).lastErr = 2 := by decide

/-! ## Single steps -/

/-- R176: RESULT = 5 before leaves RESULT = 0. -/
theorem test_nop : (next { (idle (cfg 2 0) 0 0 0 0 0).withFetchWord 32 0 with result := 5 }).result = 0 := by decide
/-- V1, R177. -/
theorem test_scale : (run .scale (idle (cfg 2 0) 0 0x00FF8001 0x80 0 0)).result = 0x00804001 := by decide
/-- R178's example: P = 2, GRB. -/
theorem test_renderUniform : (run .renderUniform (idle (cfg 2 2) 0 0x00102030 0xFF 0 0)).enc.frame =
    [0x20, 0x10, 0x30, 0x20, 0x10, 0x30] := by decide
/-- V5: the first bit of the frame 80 00 01 is a 1. -/
theorem test_emit : (run .renderUniform (idle (cfg 1 0) 0 0x00800001 0xFF 0 0)).enc =
    ⟨.high, 16, [0x80, 0x00, 0x01], 0, 7⟩ := by decide
/-- V7: SEG_COUNT = 2 with lengths 0 + 0. -/
theorem test_renderSegments_segsum :
    statusWord (run .renderSegments { idle (cfg 2 0) 0 0 0xFF 0 0 with segCount := 2 }) = 0x00051000 := by decide
/-- V7: SEG_LEN = [0, 0, 2], then RENDER_SEGMENTS sends 00 00 0C twice. -/
theorem test_renderSegments_frame :
    (run .renderSegments (run .segBuildEven (withPalette (idle (cfg 2 0) 0 0 0xFF 0x3 0)))).enc.frame =
      [0x00, 0x00, 0x0C, 0x00, 0x00, 0x0C] := by decide
/-- R180's example. -/
theorem test_renderSparse :
    (run .renderSparse { idle (cfg 4 0) 0 0 0xFF 0 0 with spb := [⟨1, ⟨9, 8, 7⟩⟩, ⟨3, ⟨1, 2, 3⟩⟩] }).enc.frame =
      [0, 0, 0, 9, 8, 7, 0, 0, 0, 1, 2, 3] := by decide
/-- V7: N = 3, ROT = 1. -/
theorem test_segBuildEven :
    (fun s : State => ((List.range 4).map (segLen s.mem), (List.range 4).map (segColor s.mem), s.segCount))
        (run .segBuildEven (withPalette (idle (cfg 10 0) 0 0 0 0x103 0))) =
      ([3, 3, 4, 0], [0x0B, 0x0C, 0x0A, 0], 3) := by decide
/-- V7: N = 4 exceeds PAL_LEN. -/
theorem test_segBuildEven_palette :
    statusWord (run .segBuildEven (withPalette (idle (cfg 10 0) 0 0 0 4 0))) = 0x00030400 := by decide
/-- R182's example. -/
theorem test_spbClear : (run .spbClear { idle (cfg 4 0) 0 0 0 0 0 with spb := [⟨1, red⟩, ⟨2, red⟩, ⟨3, red⟩] }).spb = [] := by
  decide
/-- R183's example: (0, Y) goes in front of (2, X). -/
theorem test_spbPut_insert :
    (fun s : State => (s.spb, s.result)) (run .spbPut { idle (cfg 8 0) 0 0x00010203 0 0 0 with spb := [⟨2, red⟩] }) =
      ([⟨0, ⟨1, 2, 3⟩⟩, ⟨2, red⟩], 1) := by decide
/-- P2 line 6: a new position into a full buffer. -/
theorem test_spbPut_full :
    statusWord (run .spbPut { idle { cfg 8 0 with spbCap := 1 } 0 9 0 0 0 with spb := [⟨2, red⟩] }) = 0x00062000 := by decide
/-- R184's example. -/
theorem test_spbDecay : (run .spbDecay { idle (cfg 8 0) 0 0 0 0 0 with spb := [⟨5, ⟨1, 0, 200⟩⟩] }).spb =
    [⟨5, ⟨0, 0, 199⟩⟩] := by decide
/-- R185's example. -/
theorem test_spbPurge :
    (fun s : State => (s.spb, s.result))
        (run .spbPurge { idle (cfg 8 0) 0 0 0 0 0 with spb := [⟨0, black⟩, ⟨4, ⟨0, 0, 1⟩⟩, ⟨7, black⟩] }) =
      ([⟨4, ⟨0, 0, 1⟩⟩], 2) := by decide
/-- R230's example. -/
theorem test_animReset :
    (fun s : State => (activeWord s, s.fade.color))
        (run .animReset { idle (cfg 1 0) 0 0 0 0 0 with active := some ⟨.fade, .time⟩, fade := ⟨⟨10, 245, 0⟩, .redGreen⟩ }) =
      (0, ⟨255, 0, 0⟩) := by decide
/-- V9: STEP = 100, the third call completes the transition. -/
theorem test_animFade :
    (fun s : State => (s.fade, s.result))
        (run .animFade { idle (cfg 1 0) 0 0 0x64FF 0 0 with
          active := some ⟨.fade, .time⟩, fade := ⟨⟨55, 200, 0⟩, .redGreen⟩ }) =
      (⟨⟨0, 255, 0⟩, .greenBlue⟩, 1) := by decide
/-- V15, call 1: a gate already high counts as an edge on activation. -/
theorem test_animFadeEdge :
    (fun s : State => (s.fade.color, s.gatePrev)) (run .animFadeEdge (again 0 true (idle (cfg 1 0) 0 0 0x80FF 0 0))) =
      (⟨127, 128, 0⟩, 0b000001) := by decide
/-- V9 with TRIG = TIME_OR_EDGE: the fade's time condition is always true (R231). -/
theorem test_animFadeEither :
    (run .animFadeEither (idle (cfg 1 0) 0 0 0x05FF 0 0)).fade.color = ⟨250, 5, 0⟩ := by decide
/-- W5: at now = 3000 the hold ends and the first step is taken. -/
theorem test_animBreathe :
    (run .animBreathe { idle (cfg 1 0) 3000 0xFFFFFF 0x64FF 0 0 with
      active := some ⟨.breathe, .time⟩, breathe := ⟨0, .hold, 1000⟩ }).breathe = ⟨100, .up, 3000⟩ := by decide
/-- W5: at now = 3005 the level returns to 0 and the cycle is complete. -/
theorem test_animBreathe_cycle :
    (fun s : State => (s.breathe, s.result))
        (run .animBreathe { idle (cfg 1 0) 3005 0xFFFFFF 0x64FF 0 0 with
          active := some ⟨.breathe, .time⟩, breathe := ⟨55, .down, 3000⟩ }) =
      (⟨0, .hold, 3005⟩, 1) := by decide
/-- R232: TRIG = EDGE ends the hold on a rising edge whatever the time. -/
theorem test_animBreatheEdge :
    (run .animBreatheEdge (again 7 true { idle (cfg 1 0) 0 0xFFFFFF 0x64FF 0 0 with
      active := some ⟨.breathe, .edge⟩, breathe := ⟨0, .hold, 0⟩ })).breathe = ⟨100, .up, 7⟩ := by decide
/-- R225: either condition ends the hold; here neither does. -/
theorem test_animBreatheEither :
    (run .animBreatheEither { idle (cfg 1 0) 1999 0xFFFFFF 0x64FF 0 0 with
      active := some ⟨.breathe, .either⟩, breathe := ⟨0, .hold, 0⟩ }).breathe = ⟨0, .hold, 0⟩ := by decide
/-- R233's example: P = 3, PIXSTEP = 255. -/
theorem test_animRainbow : (run .animRainbow (idle (cfg 3 0) 0 0 0x00FFFF 50 0)).enc.frame =
    [255, 0, 0, 0, 255, 0, 0, 0, 255] := by decide
/-- V11: at now = 50 the base advances. -/
theorem test_animRainbow_event :
    (fun s : State => (s.rainbow, s.result, s.enc.frame.drop 9))
        (run .animRainbow { idle (cfg 4 0) 50 0 0x000155FF 50 0 with
          active := some ⟨.rainbow, .time⟩, rainbow := ⟨red, .redGreen, 0⟩ }) =
      (⟨⟨254, 1, 0⟩, .redGreen, 50⟩, 1, [0, 255, 0]) := by decide
/-- R225: with TRIG = EDGE the expired timer does nothing. -/
theorem test_animRainbowEdge :
    (run .animRainbowEdge { idle (cfg 1 0) 50 0 0x000155FF 50 0 with
      active := some ⟨.rainbow, .edge⟩, rainbow := ⟨red, .redGreen, 0⟩ }).rainbow = ⟨red, .redGreen, 0⟩ := by decide
/-- R225: with TRIG = TIME_OR_EDGE it advances the base. -/
theorem test_animRainbowEither :
    (run .animRainbowEither { idle (cfg 1 0) 50 0 0x000155FF 50 0 with
      active := some ⟨.rainbow, .either⟩, rainbow := ⟨red, .redGreen, 0⟩ }).rainbow = ⟨⟨254, 1, 0⟩, .redGreen, 50⟩ := by decide
/-- V12: A A B B becomes B B A A when the pot interval 1020 has passed (W8, POT = 0). -/
theorem test_animSwap :
    (fun s : State => (s.swap, s.enc.frame))
        (run .animSwap { withPalette (idle (cfg 4 0) 1020 0 0x000100FF 2 0) with active := some ⟨.swap, .time⟩ }) =
      (⟨1, 1020⟩, [0, 0, 0x0B, 0, 0, 0x0B, 0, 0, 0x0A, 0, 0, 0x0A]) := by decide
/-- V17: a swap that raises E_PALETTE leaves ACTIVE. -/
theorem test_animSwap_palette :
    (fun s : State => (statusWord s, s.active))
        (run .animSwap { idle (cfg 4 0) 0 0 0xFF 2 0 with active := some ⟨.fade, .time⟩ }) =
      (0x00030400, some ⟨.fade, .time⟩) := by decide
/-- W8: POT = 255 gives the interval 1. -/
theorem test_animSwapEdge : opSwapInterval (idle (cfg 4 0) 0 0 0x0001FF00 2 9) = 1 ∧
    (run .animSwapEdge (again 5 true { withPalette (idle (cfg 4 0) 0 0 0xFF 2 0) with
      active := some ⟨.swap, .edge⟩ })).swap = ⟨1, 5⟩ := by decide
/-- R225: neither condition holds. -/
theorem test_animSwapEither :
    (run .animSwapEither { withPalette (idle (cfg 4 0) 8 0 0xFF 2 9) with active := some ⟨.swap, .either⟩ }).swap = ⟨0, 0⟩ := by
  decide
/-- R235's example: P = 5, drops [(1, X)], r = 7 gives position 4; V13: the gap of 3 in 10..20 is 13. -/
theorem test_animRain :
    (fun s : State => (s.rain, s.result))
        (run .animRain { idle (cfg 5 0) 14 3 0x2FF 0x0014000A 0xFFFF with
          env := world 14 false [7, 3], active := some ⟨.rain, .time⟩, rain := ⟨[⟨1, red⟩], 0, 0, 14⟩ }) =
      (⟨[⟨1, red⟩, ⟨4, ⟨0, 0, 3⟩⟩], 0, 14, 13⟩, 1) := by decide
/-- P4: the call at now = 33 removes the droplet that had reached black, and draws nothing. -/
theorem test_animRain_purge :
    (fun s : State => (s.rain.drops, s.env.draws))
        (run .animRain { idle (cfg 5 0) 33 3 0x2FF 0x0014000A 5 with
          active := some ⟨.rain, .time⟩, rain := ⟨[⟨1, ⟨0, 0, 2⟩⟩, ⟨2, black⟩], 32, 27, 18⟩ }) =
      ([⟨1, ⟨0, 0, 2⟩⟩], 0) := by decide
/-- V13: MAXD = 0 never spawns and draws nothing after the gap at activation, Gap(4) = 14. -/
theorem test_animRainEdge :
    (fun s : State => (s.rain, s.env.draws))
        (run .animRainEdge { idle (cfg 5 0) 0 3 0x0FF 0x0014000A 5 with env := world 6 true [4, 7] }) =
      (⟨[], 6, 6, 14⟩, 1) := by decide
/-- R235: decay stays on its timer whatever the trigger; RESULT[1]. -/
theorem test_animRainEither :
    (fun s : State => (s.rain.drops, s.result))
        (run .animRainEither { idle (cfg 5 0) 5 3 0x2FF 0x0014000A 5 with
          active := some ⟨.rain, .either⟩, rain := ⟨[⟨1, ⟨0, 0, 2⟩⟩], 0, 0, 18⟩ }) =
      ([⟨1, ⟨0, 0, 1⟩⟩], 2) := by decide
/-- V14: the call at now = 30 lights the last pixel and completes. -/
theorem test_animWipe :
    (fun s : State => (s.wipe, s.result, s.enc.frame))
        (run .animWipe { idle (cfg 3 0) 30 0x11 0xFF 10 0 with active := some ⟨.wipe, .time⟩, wipe := ⟨2, black, 20⟩ }) =
      (⟨0, ⟨0, 0, 0x11⟩, 30⟩, 1, [0, 0, 0x11, 0, 0, 0x11, 0, 0, 0x11]) := by decide
/-- P3 line 9: one pixel revealed. -/
theorem test_animWipe_first :
    (fun s : State => (s.wipe.k, s.enc.frame.take 6))
        (run .animWipe { idle (cfg 4 2) 210 0xFF 0xFF 10 0 with active := some ⟨.wipe, .time⟩, wipe := ⟨0, black, 200⟩ }) =
      (1, [0, 0, 0xFF, 0, 0, 0]) := by decide
/-- R225: with TRIG = EDGE a rising edge reveals a pixel and resets the timer. -/
theorem test_animWipeEdge :
    (run .animWipeEdge (again 3 true { idle (cfg 3 0) 0 0x11 0xFF 10 0 with active := some ⟨.wipe, .edge⟩ })).wipe =
      ⟨1, black, 3⟩ := by decide
/-- R225: a gate that stays high is no edge, and the timer has not run. -/
theorem test_animWipeEither :
    (run .animWipeEither (again 3 true { idle (cfg 3 0) 0 0x11 0xFF 10 0 with
      active := some ⟨.wipe, .either⟩, gatePrev := 0b100000 })).wipe = ⟨0, black, 0⟩ := by decide

/-! ## The bus and the rest -/

/-- V2: premultiplied store. -/
theorem test_rgba : storedColour { cfg 1 0 with rgbaInput := true } 0x80FF4002 = 0x00802001 ∧
    storedColour (cfg 1 0) 0x80FF4002 = 0x80FF4002 := by decide
/-- V3: the six wiring orders. -/
theorem test_wiring : (List.range 6).map (fun w => pixelBytes w ⟨0x11, 0x22, 0x33⟩) =
    [[0x11, 0x22, 0x33], [0x11, 0x33, 0x22], [0x22, 0x11, 0x33], [0x22, 0x33, 0x11], [0x33, 0x11, 0x22], [0x33, 0x22, 0x11]] := by
  decide
/-- V10: ramps. -/
theorem test_ramps : (rampDown 5 3, rampDown 2 3, rampDown 127 128, rampUp 250 3, rampUp 254 3, rampUp 128 128) =
    (2, 0, 0, 253, 255, 255) := by decide
/-- V9: phase 2 loses blue and gains red. -/
theorem test_hueStep : hueStep ⟨0, 0, 255⟩ .blueRed 3 = (⟨3, 0, 252⟩, .blueRed) := by decide
/-- V16: a timer across the wrap of TICK_I. -/
theorem test_timer_wrap : expired (idle (cfg 1 0) 5 0 0 0 0) 0xFFFFFFF0 20 = true ∧
    expired (idle (cfg 1 0) 5 0 0 0 0) 0xFFFFFFF0 22 = false := by decide
/-- V18: clearing E_OPCODE leaves E_BUSY and LAST_ERR = 1; clearing that leaves 0. -/
theorem test_status_w1c :
    statusWord (clearErrors 0x200 { idle (cfg 1 0) 0 0 0 0 0 with sticky := 0b000011, lastErr := 1 }) = 0x00010100 ∧
    statusWord (clearErrors 0x100 { idle (cfg 1 0) 0 0 0 0 0 with sticky := 0b000001, lastErr := 1 }) = 0x00000000 := by decide
/-- V19: right after reset a write of ARG0 is ignored and STATUS reads 0x00010103. -/
theorem test_busy_after_reset :
    (fun s : State => (s.arg0, statusWord s)) (next (withPending [wr (.reg .arg0) 0x123] State.reset)) = (0, 0x00010103) := by
  decide
/-- R64: the last register and the first entry of each window. -/
theorem test_address_map : (List.map (targetAt (cfg 1 0)) [0x140, 0x144, 0x1000, 0x1004, 0x2004, 0x3000, 0x8004]) =
    [.reg .gatePrev, .unmapped, .segLen 0, .segColor 0, .pal 1, .spbPos 0, .rainColor 0] := by decide
/-- R100: `clr` and `wait` as the events they stand for; a poll while BUSY = 0 reads STATUS. -/
theorem test_notation : clr = .write 4 0x004 0x00003F00 ∧ rd (.pal 1) = .read 4 0x2004 ∧
    runCmd .scale (some 1) (some 2) none none = [.write 4 0x010 1, .write 4 0x014 2, .write 4 0x000 1, .wait] ∧
    (next (withPending [.wait] (idle (cfg 1 0) 0 0 0 0 0))).env.pending = [] := by decide
/-- R349: a run ends at the first point after its last access with BUSY = 0, whatever cycles and settings are left; a poll
or a write still to come holds it. -/
theorem test_run_ends :
    ended (withPending [.cycle, .driveTick 5] (idle (cfg 1 0) 0 0 0 0 0)) = true ∧
    ended (withPending [.driveGate true, .wait] (idle (cfg 1 0) 0 0 0 0 0)) = false ∧ ended State.reset = false ∧
    (observe 3 (withPending [.cycle, wr (.reg .arg1) 7, .cycle] (idle (cfg 1 0) 0 0 0 0 0))).map
      (fun o => (o.state.arg1, o.dout, o.state.env.pending)) = some (7, [false], [.cycle]) := by decide
/-- V5: a 1 bit of the example configuration is 16 high cycles, then 9 low. -/
theorem test_symbol : symbol (cfg 1 0) true = List.replicate 16 true ++ List.replicate 9 false := by decide

/-! ## Witnesses: states and operands that meet the hypotheses of the statements, at the edges of their ranges -/

/-- The idle block with four pixels. -/
def calm : State := idle (cfg 4 0) 0 0 0 0 0

/-- The same with pending events. -/
def calmWith (es : List Event) : State := withPending es calm

/-- Four pixels of sparse buffers: an entry at the first and at the last pixel. -/
def spotted : State := { calm with spb := [⟨0, red⟩, ⟨3, black⟩], rain := ⟨[⟨0, red⟩, ⟨3, black⟩], 0, 0, 0⟩ }

theorem calm_inv : Inv calm where
  cfg := by decide
  mem := by decide
  spb := by decide
  drops := by decide
  fade := hueOk_red
  rainbow := hueOk_red
  breathe := by rfl
  rot := by decide
  wipe := by decide
  errors := by decide
  enc := by rfl
  frame := by decide

theorem reset_inv : Inv State.reset where
  cfg := by decide
  mem := by decide
  spb := by decide
  drops := by decide
  fade := hueOk_red
  rainbow := hueOk_red
  breathe := by rfl
  rot := by decide
  wipe := by decide
  errors := by decide
  enc := ⟨by decide, le_refl _⟩
  frame := by decide

theorem witness_OpcodeTableRowsDecode : decode 0x215 = .ok .animWipeEither ∧ (0x215, Instr.animWipeEither) ∈ opcodeRows := by
  decide
theorem witness_IllegalWordsReportOpcodeError : decode 0x0000000A = .error .unknownOpcode ∧ busy calm.enc = false := by decide
theorem witness_UnreadArgumentBitsAreIgnored :
    (0xFF000000 : Word) &&& (argMasks .scale).1 = calm.arg0 &&& (argMasks .scale).1 ∧
    (0xFFFFFF00 : Word) &&& (argMasks .scale).2.1 = calm.arg1 &&& (argMasks .scale).2.1 ∧
    (0xFFFFFFFF : Word) &&& (argMasks .scale).2.2.1 = calm.arg2 &&& (argMasks .scale).2.2.1 ∧
    (0xFFFFFFFF : Word) &&& (argMasks .scale).2.2.2 = calm.arg3 &&& (argMasks .scale).2.2.2 := by decide
theorem witness_StepRunsTheAcceptedCommand :
    calm.cfg.Valid ∧ (calmWith [.write 4 0x000 0x215]).env.pending = .write 4 0x000 0x215 :: [] ∧ calm.enc.est = .idle ∧
    decode 0x215 = .ok .animWipeEither ∧ ∀ i, decode 0x315 ≠ .ok i := by
  refine ⟨by decide, by decide, by decide, by decide, fun i => ?_⟩
  cases i <;> decide
theorem witness_AddressMapIsOneToOne :
    Config.example60.Valid ∧ Mapped Config.example60 (.spbColor 15) ∧ (0x307C : Half).toNat % 4 = 0 ∧
    targetAt Config.example60 0x307C ≠ .unmapped := ⟨by decide, show 15 < 16 by omega, by decide, by decide⟩
theorem witness_OnlyAccessesOutsideTheInterfaceAreRefused :
    ¬ { Config.example60 with fClkHz := 1000000 }.Valid ∧ calm.cfg.Valid ∧
    (calmWith [.read 1 0x010]).env.pending = .read 1 0x010 :: [] ∧
    (calmWith [.write 4 0x001 0]).env.pending = .write 4 0x001 0 :: [] ∧ (0x001 : Half).toNat % 4 ≠ 0 ∧
    Event.wellFormed (.write 4 0xFFFC 0) = true := by decide
theorem witness_UnmappedAndReadOnlyPlaces :
    targetAt calm.cfg 0x1040 = .unmapped ∧ writable (targetAt calm.cfg 0x803C) = false ∧ busy calm.enc = false ∧
    calm.mem.wf ∧ targetAt calm.cfg 0x1038 = .segLen 7 := by decide
theorem witness_WritesWhileBusyAreIgnored :
    busy State.reset.enc = true ∧ (0xFFFC : Half) ≠ 0x004 ∧ State.reset.cfg.Valid ∧ (0x004 : Half).toNat % 4 = 0 ∧
    (withPending [.read 4 0x004] State.reset).env.pending = .read 4 0x004 :: [] := by decide
theorem witness_ReadsHaveNoSideEffect :
    calm.cfg.Valid ∧ (0x140 : Half).toNat % 4 = 0 ∧ (calmWith [.read 4 0x140]).env.pending = .read 4 0x140 :: [] := by decide
theorem witness_ColourWordsAreStored :
    calm.cfg.Valid ∧ calm.mem.wf ∧ busy calm.enc = false ∧ Mapped calm.cfg (.reg .arg0) ∧ Mapped calm.cfg (.segColor 7) ∧
    Mapped calm.cfg (.pal 7) :=
  ⟨by decide, by decide, by decide, trivial, show 7 < 8 by omega, show 7 < 8 by omega⟩
theorem witness_WritesAreLocal :
    Inv calm ∧ busy calm.enc = false ∧ (0x1000 : Half).toNat % 4 = 0 ∧ (0x1000 : Half) ≠ 0x000 ∧ (0x1000 : Half) ≠ 0x004 ∧
    (0x1004 : Half) ≠ 0x1000 := ⟨calm_inv, by decide, by decide, by decide, by decide, by decide⟩
theorem witness_ArgumentRegistersHoldWhatIsWritten :
    busy calm.enc = false ∧ exec .animWipe calm = .next (run .animWipe calm) := ⟨by decide, rfl⟩
theorem witness_WindowsShowTheSparseBuffers :
    spotted.cfg.Valid ∧ SparseOk spotted.cfg.pixels spotted.cfg.spbCap spotted.spb ∧
    SparseOk spotted.cfg.pixels spotted.cfg.rainCap spotted.rain.drops ∧ spotted.spb[1]? = some ⟨3, black⟩ ∧
    spotted.spb.length ≤ 15 ∧ 15 < spotted.cfg.spbCap ∧ spotted.rain.drops.length ≤ 7 ∧ 7 < spotted.cfg.rainCap := by decide
theorem witness_ConfigurationNeverChanges : step calm = .next (next calm) ∧ calm.cfg.Valid := ⟨rfl, by decide⟩
theorem witness_EncoderStepsAsTheTablesSay :
    ([0x80] : List Byte) ≠ [] ∧ encIdle.est = .idle ∧ (startFrame (cfg 1 0) [0x80]).est = .high ∧
    (encRun (cfg 1 0) 16 (startFrame (cfg 1 0) [0x80])).est = .low ∧ (encReset (cfg 1 0)).est = .latch := by decide
theorem witness_EncoderStepsAsTheTablesSay_ok :
    EncOk (cfg 1 0) encIdle ∧ EncOk (cfg 1 0) (startFrame (cfg 1 0) [0x80]) ∧
    EncOk (cfg 1 0) (encRun (cfg 1 0) 16 (startFrame (cfg 1 0) [0x80])) ∧ EncOk (cfg 1 0) (encReset (cfg 1 0)) :=
  ⟨rfl, (by decide : 0 < 1 ∧ 1 ≤ 16 ∧ 16 ≤ 16), (by decide : 0 < 1 ∧ 1 ≤ 9 ∧ 9 ≤ 9), (by decide : 1 ≤ 1000 ∧ 1000 ≤ 1000)⟩
theorem witness_WaveformOfAFrameIsExact : (cfg 1 0).Valid ∧ ([0x80] : List Byte) ≠ [] := by decide
theorem witness_EveryBitHasItsPulse :
    (cfg 1 0).Valid ∧ 0 < ([0x80] : List Byte).length ∧ 7 < 8 ∧ 24 < nbit (cfg 1 0) ∧ 0 < nbit (cfg 1 0) := by decide
theorem witness_BusyAndMaskLastAsLongAsTheFrame :
    (cfg 1 0).Valid ∧ ([0x80, 0x00, 0x01] : List Byte).length = 3 * (cfg 1 0).pixels := by decide
theorem witness_EveryCommandEmitsAtMostOneFrame :
    calm.cfg.Valid ∧ Instr.animSwapEdge = animInstr .swap .edge ∧ paletteBad { withPalette calm with arg2 := 3 } 3 = false ∧
    Instr.spbPut ∈ [Instr.nop, .scale, .segBuildEven, .spbClear, .spbPut, .spbDecay, .spbPurge, .animReset] := by decide
theorem witness_AFrameRunsToItsEnd :
    step State.reset = .next (next State.reset) ∧ busy State.reset.enc = true ∧
    ∀ rest, State.reset.env.pending ≠ .reset :: rest := ⟨rfl, by decide, fun _ h => by cases h⟩
theorem witness_AFrameRunsToItsEnd_cycles :
    calm.cfg.Valid ∧ calm.env.pending = [] ∧ (calmWith [.cycle]).env.pending = .cycle :: [] := by decide
theorem witness_TimersAndTriggers :
    calm.cfg.Valid ∧ (calmWith [.driveTick 7]).env.pending = .driveTick 7 :: [] ∧
    (calmWith [.driveGate true]).env.pending = .driveGate true :: [] ∧
    (calmWith [.giveRand [1, 2]]).env.pending = .giveRand [1, 2] :: [] ∧ calm.env.tick = some 0 ∧
    State.reset.env.tick = none ∧ State.reset.env.gate = none := by decide
theorem witness_TimersAndTriggers_gate : ∃ b, calm.env.gate = some b := ⟨_, rfl⟩
theorem witness_LawsOfScale : (254 : Byte).toNat ≤ (255 : Byte).toNat ∧ (0 : Byte).toNat ≤ (1 : Byte).toNat := by decide
theorem witness_FramesAreInWiringOrder : (cfg 4 5).Valid ∧ 1 < [red, black].length ∧ 2 < 3 := by decide
theorem witness_NopDoesNothing : busy calm.enc = false := by decide
theorem witness_RenderUniformSendsOneColour : calm.cfg.Valid := by decide
theorem witness_RenderSegmentsCoversTheStrip :
    calm.cfg.Valid ∧ calm.cfg.segCap < { calm with segCount := 9 }.segCount.toNat ∧
    { calm with segCount := 8 }.segCount.toNat ≤ calm.cfg.segCap ∧
    ((List.range 8).map fun j => (segLen calm.mem j).toNat).sum ≠ calm.cfg.pixels ∧
    ((List.range 1).map fun j => (segLen (setSegLen 0 4 calm.mem) j).toNat).sum = calm.cfg.pixels ∧
    3 < (segLen (setSegLen 0 4 calm.mem) 0).toNat := by decide
theorem witness_RenderSparseShowsEntriesOverBlack :
    spotted.cfg.Valid ∧ SparseOk spotted.cfg.pixels spotted.cfg.spbCap spotted.spb ∧ (⟨3, black⟩ : Entry) ∈ spotted.spb ∧
    ∀ e ∈ spotted.spb, e.pos.toNat ≠ 1 := by decide
theorem witness_SegBuildEvenDividesEvenly :
    calm.cfg.Valid ∧ calm.mem.wf ∧ (calm.palLen.toNat > calm.cfg.palCap ∨ opN calm = 0) ∧
    (withPalette calm).mem.wf ∧
    ¬ ((withPalette calm).palLen.toNat > calm.cfg.palCap ∨ opN { withPalette calm with arg2 := 3 } = 0 ∨
      opN { withPalette calm with arg2 := 3 } > (withPalette calm).palLen.toNat ∨
      opN { withPalette calm with arg2 := 3 } > calm.cfg.segCap) := by decide
theorem witness_BuiltSegmentsAlwaysRender :
    exec .segBuildEven { withPalette calm with arg2 := 3 } = .next (run .segBuildEven { withPalette calm with arg2 := 3 }) ∧
    paletteBad { withPalette calm with arg2 := 3 } 3 = false ∧
    (let t := run .segBuildEven { withPalette calm with arg2 := 3 }
     let v := { t with arg1 := 255, spb := [⟨2, red⟩] }
     v.cfg = t.cfg ∧ v.segCount = t.segCount ∧ ∀ k < t.segCount.toNat, segLen v.mem k = segLen t.mem k) :=
  ⟨rfl, by decide, rfl, rfl, fun _ _ => rfl⟩
theorem witness_SparseClearDecayPurge :
    spotted.spb[1]? = some ⟨3, black⟩ ∧ (run .spbDecay spotted).spb[1]? = some ⟨3, black⟩ := by decide
theorem witness_SparsePutInsertsOrUpdates :
    SparseOk spotted.cfg.pixels spotted.cfg.spbCap spotted.spb ∧
    spotted.cfg.pixels ≤ (opPos { spotted with arg2 := 4 }).toNat ∧
    (∃ e ∈ spotted.spb, e.pos = opPos { spotted with arg2 := 3 }) ∧
    (∀ e ∈ spotted.spb, e.pos ≠ opPos { spotted with arg2 := 1 }) ∧ spotted.spb.length < spotted.cfg.spbCap ∧
    SparseOk 4 2 spotted.spb ∧ 2 ≤ spotted.spb.length := by decide
theorem witness_SparseBufferStaysSorted :
    (∀ n : Nat, (fun _ => Instr.spbClear) n ∈ [Instr.spbClear, .spbPut, .spbDecay, .spbPurge]) ∧
    (∀ n : Nat, exec ((fun _ => Instr.spbClear) n) ((fun _ => calm) n) = .next ((fun _ => calm) n)) ∧
    SparseOk calm.cfg.pixels calm.cfg.spbCap calm.spb := ⟨fun _ => by simp, fun _ => rfl, by decide⟩
theorem witness_RampsSaturate : 1 ≤ (1 : Byte).toNat ∧ 1 ≤ (255 : Byte).toNat := by decide
theorem witness_HueStepMovesTwoChannels :
    HueOk red .redGreen ∧ HueOk ⟨0, 1, 254⟩ .greenBlue ∧ HueOk ⟨254, 0, 1⟩ .blueRed ∧ (255 : Byte) ≠ 0 := by decide
theorem witness_HueCircleAndItsCycle : (∀ s ∈ ([1, 255] : List Byte), s ≠ 0) ∧ (1 : Byte) ≠ 0 := by decide
theorem witness_ActivationOnAChangeOfKey :
    continues .fade .edge { calm with active := some ⟨.fade, .edge⟩ } = true ∧
    continues .fade .edge { calm with active := some ⟨.fade, .time⟩ } = false ∧ continues .rain .time calm = false := by decide
theorem witness_ActiveNamesTheLastAnimation :
    Instr.animRain = animInstr .rain .time ∧ ∀ a tr, Instr.spbPut ≠ animInstr a tr := by
  refine ⟨rfl, fun a tr => ?_⟩
  cases a <;> cases tr <;> decide
theorem witness_AnimFadeStepsTheHue : calm.cfg.Valid ∧ triggered .time true (risingEdge .fade .time calm) = true ∧
    triggered .edge true (risingEdge .fade .edge calm) = false := by decide
theorem witness_AnimBreatheRampsTheLevel : calm.cfg.Valid ∧
    expired { idle (cfg 4 0) 2000 0 0 0 0 with active := some ⟨.breathe, .time⟩ } 0 2000 = true ∧ expired calm 0 2000 = false := by
  decide
theorem witness_AnimRainbowWalksTheStrip : calm.cfg.Valid ∧ expired (idle (cfg 4 0) 1 0 0 0 0) 0 (opInterval calm) = true := by
  decide
theorem witness_AnimSwapRotatesTheRegions :
    calm.cfg.Valid ∧ opN calm = 0 ∧
    ¬ ((withPalette calm).palLen.toNat > calm.cfg.palCap ∨ opN { withPalette calm with arg2 := 3 } = 0 ∨
      opN { withPalette calm with arg2 := 3 } > (withPalette calm).palLen.toNat ∨
      opN { withPalette calm with arg2 := 3 } > calm.cfg.segCap) := by decide
theorem witness_AnimRainDecaysAndSpawns :
    spotted.cfg.Valid ∧ SparseOk spotted.cfg.pixels spotted.cfg.rainCap spotted.rain.drops ∧
    triggered .time (expired spotted 0 0) false = true ∧
    spotted.rain.drops.length < min (opMaxd { spotted with arg1 := 0x0300 }) (min spotted.cfg.rainCap spotted.cfg.pixels) := by
  decide
theorem witness_AnimWipeRevealsPixelByPixel : calm.cfg.Valid ∧ expired (idle (cfg 4 0) 1 0 0 0 0) 0 (opInterval calm) = true := by
  decide
theorem witness_RainKeepsItsBound :
    calm.cfg.Valid ∧ SparseOk calm.cfg.pixels calm.cfg.rainCap calm.rain.drops ∧
    exec (animInstr .rain .edge) calm = .next (run .animRainEdge calm) ∧ calm.active ≠ some ⟨.rain, .edge⟩ ∧
    continues .rain .edge { spotted with active := some ⟨.rain, .edge⟩ } = true ∧
    (⟨3, black⟩ : Entry) ∈ spotted.rain.drops ∧ spotted.rain.drops.length ≤ min 2 (min spotted.cfg.rainCap spotted.cfg.pixels) :=
  ⟨by decide, by decide, rfl, by decide, by decide, by decide, by decide⟩
theorem witness_PatternSwitchForgetsTheRecord :
    continues .swap .time { withPalette calm with arg2 := 3 } = false ∧ paletteBad { withPalette calm with arg2 := 3 } 3 = false := by
  decide
theorem witness_ErrorsArePrecise : ErrCode.full ∈ mayRaise .spbPut := by decide
theorem witness_ResetPutsEverythingAtItsValue :
    calm.cfg.Valid ∧ (calmWith [.reset, .cycle]).env.pending = .reset :: [.cycle] ∧ (0x1000 : Half).toNat % 4 = 0 := by decide
theorem witness_ResetMeetsTheInvariant : Config.example60.Valid := by decide
theorem witness_EveryStepKeepsTheInvariant : Inv State.reset ∧ step State.reset = .next (next State.reset) := ⟨reset_inv, rfl⟩

/-- The calls of `BreatheCycle`'s witness: STEP = 255, the first at now = 0, the others from now = 2000 on. -/
def breatheCall : Nat → State
  | 0 => idle (cfg 4 0) 0 0 0xFF00 0 0
  | n + 1 => { idle (cfg 4 0) 2000 0 0xFF00 0 0 with
      breathe := (animBreathe .time (breatheCall n)).breathe, active := (animBreathe .time (breatheCall n)).active }

theorem witness_BreatheCycle :
    (∀ n, exec .animBreathe (breatheCall n) = .next (animBreathe .time (breatheCall n))) ∧
    (∀ n, (breatheCall (n + 1)).breathe = (animBreathe .time (breatheCall n)).breathe ∧
      (breatheCall (n + 1)).active = (animBreathe .time (breatheCall n)).active) ∧
    (∀ n, opStep (breatheCall n) = 255 ∧ (breatheCall n).result = 0) ∧
    (breatheCall 0).active ≠ some ⟨.breathe, .time⟩ ∧
    (∀ n < 1, elapsed (breatheCall n) (breatheCall 0).now < 2000) ∧ 2000 ≤ elapsed (breatheCall 1) (breatheCall 0).now ∧
    ∀ j ≤ 0, elapsed (breatheCall (1 + 1 + 1 + j)) (breatheCall (1 + 1 + 0)).now < 2000 :=
  ⟨fun _ => rfl, fun _ => ⟨rfl, rfl⟩, fun n => by cases n <;> exact ⟨(by decide : coStep ((0xFF00 : Word).extractLsb' 8 8) = 255), rfl⟩, by decide, by decide, by decide, by decide⟩

/-- The calls of `SwapAndWipeCycles`'s first witness: N = 2, an event at every second call. -/
def swapCall (n : Nat) : State :=
  { withPalette (idle (cfg 4 0) (BitVec.ofNat 32 (n + 1)) 0 0 2 2) with
    active := some ⟨.swap, .time⟩, swap := ⟨BitVec.ofNat 8 (n / 2 % 2), BitVec.ofNat 32 (n - n % 2)⟩ }

theorem later (n k : Nat) : (BitVec.ofNat 32 (n + k) - BitVec.ofNat 32 n).toNat = k % 2 ^ 32 := by
  rw [BitVec.ofNat_add, BitVec.add_comm, BitVec.add_sub_cancel, BitVec.toNat_ofNat]

theorem swapCall_event (n : Nat) : swapEvent .time (swapCall n) = decide (n % 2 = 1) := by
  have h1 : (swapCall n).arg1 = 0 := rfl
  have h3 : (swapCall n).arg3 = 2 := rfl
  have hi : opSwapInterval (swapCall n) = 2 := by simp [opSwapInterval, opPsrc, h1, h3, co]
  rw [show swapEvent .time (swapCall n) =
    decide (opSwapInterval (swapCall n) ≤ (BitVec.ofNat 32 (n + 1) - BitVec.ofNat 32 (n - n % 2)).toNat) from rfl, hi]
  obtain ⟨k, rfl | rfl⟩ : ∃ k, n = 2 * k ∨ n = 2 * k + 1 := ⟨n / 2, by omega⟩
  · rw [show 2 * k - 2 * k % 2 = 2 * k by omega, later]
    simp
  · rw [show 2 * k + 1 - (2 * k + 1) % 2 = 2 * k by omega, show 2 * k + 1 + 1 = 2 * k + 2 by omega, later]
    simp

theorem witness_SwapAndWipeCycles_swap :
    (∀ n, exec (animInstr .swap .time) (swapCall n) = .next (animSwap .time (swapCall n))) ∧
    (∀ n, (swapCall (n + 1)).swap = (animSwap .time (swapCall n)).swap) ∧
    (∀ n, opN (swapCall n) = 2 ∧ paletteBad (swapCall n) 2 = false ∧ (swapCall n).active = some ⟨.swap, .time⟩) ∧
    (swapCall 0).swap.rot.toNat < 2 ∧
    (List.range 4).countP (fun i => swapEvent .time (swapCall i)) =
      (List.range 0).countP (fun i => swapEvent .time (swapCall i)) + 2 := by
  refine ⟨fun _ => rfl, fun n => ?_, fun _ => ⟨rfl, rfl, rfl⟩, by decide, by decide⟩
  rw [animSwap_call (by rfl) (by rfl), swapCall_event]
  obtain ⟨k, rfl | rfl⟩ : ∃ k, n = 2 * k ∨ n = 2 * k + 1 := ⟨n / 2, by omega⟩
  · rw [if_neg (by simp)]
    simp only [swapCall, show (2 * k + 1) / 2 = 2 * k / 2 by omega, show 2 * k + 1 - (2 * k + 1) % 2 = 2 * k - 2 * k % 2 by omega]
  · rw [if_pos (by simp)]
    show (⟨BitVec.ofNat 8 ((2 * k + 1 + 1) / 2 % 2), _⟩ : Swap) =
      ⟨BitVec.ofNat 8 (((BitVec.ofNat 8 ((2 * k + 1) / 2 % 2)).toNat + 1) % 2), _⟩
    rw [BitVec.toNat_ofNat, Nat.mod_eq_of_lt (by omega : (2 * k + 1) / 2 % 2 < 2 ^ 8),
      show ((2 * k + 1) / 2 % 2 + 1) % 2 = (2 * k + 1 + 1) / 2 % 2 by omega,
      show 2 * k + 1 + 1 - (2 * k + 1 + 1) % 2 = 2 * k + 1 + 1 by omega]
    rfl

/-- The calls of `SwapAndWipeCycles`'s second witness: TIME_OR_EDGE, two pixels, an event at every millisecond. -/
def wipeCall (n : Nat) : State :=
  { idle (cfg 2 0) (BitVec.ofNat 32 (n + 1)) 0 0 0 0 with
    active := some ⟨.wipe, .either⟩, wipe := ⟨BitVec.ofNat 16 (n % 2), black, BitVec.ofNat 32 n⟩ }

theorem wipeCall_event (n : Nat) : wipeEvent .either (wipeCall n) = true := by
  show (decide (1 ≤ (BitVec.ofNat 32 (n + 1) - BitVec.ofNat 32 n).toNat) || _) = true
  rw [later]
  rfl

theorem witness_SwapAndWipeCycles_wipe :
    (cfg 2 0).Valid ∧ (∀ n, (wipeCall n).cfg = cfg 2 0) ∧
    (∀ n, exec (animInstr .wipe .either) (wipeCall n) = .next (animWipe .either (wipeCall n))) ∧
    (∀ n, (wipeCall (n + 1)).wipe = (animWipe .either (wipeCall n)).wipe) ∧
    (∀ n, (wipeCall n).result = 0 ∧ (wipeCall n).active = some ⟨.wipe, .either⟩) ∧ (wipeCall 0).wipe.k = 0 := by
  refine ⟨by decide, fun _ => rfl, fun _ => rfl, fun n => ?_, fun _ => ⟨rfl, rfl⟩, by decide⟩
  rw [(animWipe_call (by rfl)).1, show (wipeCall n).cfg.pixels = 2 from rfl]
  simp only [wipeCount, wipeCall_event, if_true]
  obtain ⟨k, rfl | rfl⟩ : ∃ k, n = 2 * k ∨ n = 2 * k + 1 := ⟨n / 2, by omega⟩
  · rw [show (wipeCall (2 * k)).wipe = ⟨0, black, BitVec.ofNat 32 (2 * k)⟩ by simp [wipeCall],
      if_neg (by decide : ¬ ((0 : Half) + 1#16).toNat = 2), if_neg (by decide : ¬ ((0 : Half) + 1#16).toNat = 2)]
    simp only [wipeCall, show (2 * k + 1) % 2 = 1 by omega]
    rfl
  · rw [show (wipeCall (2 * k + 1)).wipe = ⟨1, black, BitVec.ofNat 32 (2 * k + 1)⟩ by simp [wipeCall],
      if_pos (by decide : ((1 : Half) + 1#16).toNat = 2), if_pos (by decide : ((1 : Half) + 1#16).toNat = 2),
      show opColour (wipeCall (2 * k + 1)) = black from (by decide : col 0 = black)]
    simp only [wipeCall, show (2 * k + 1 + 1) % 2 = 0 by omega]
    rfl

end Sys2Proof.Tests
end

/-! # The state's registers on the bus and under the commands (10_state.md)

STATUS (R26), ARG0 to ARG3 (R23), PARAM0 to PARAM2 (R33) and ACTIVE (R28). -/

namespace Sys2Proof.Machine

/-! ## A register on the bus -/

/-- A read at a register's address answers the register's content (20_memory.md R64). -/
theorem busRead_regAddr (s : State) (r : Reg) : busRead s (BitVec.ofNat 16 (regAddr r)) = readReg s r := by
  rw [busRead, targetAt_reg, readTarget]

theorem busRead_status (s : State) : busRead s 0x004 = statusWord s := busRead_regAddr s .status

/-- A write at a register's address while BUSY = 0, but for CMD, is the register's write (20_memory.md R70). -/
theorem busWrite_regAddr {s : State} (hb : busy s.enc = false) {r : Reg} (hr : r ≠ .cmd) (v : Word) :
    busWrite (BitVec.ofNat 16 (regAddr r)) v s = .next (writeReg r v s) := by
  have ha : (BitVec.ofNat 16 (regAddr r)).toNat ≠ 0 := by
    cases r
    case cmd => exact absurd rfl hr
    all_goals decide
  rw [busWrite_idle hb ha, targetAt_reg, writeTarget]

/-! ## STATUS (R26) -/

/-- A field of STATUS all of whose bits are unassigned reads 0. -/
theorem statusWord_unassigned (s : State) {k n : Nat}
    (h : ∀ i < n, 2 < k + i ∧ ¬ (8 ≤ k + i ∧ k + i < 14) ∧ ¬ (16 ≤ k + i ∧ k + i < 24)) :
    (statusWord s).extractLsb' k n = 0 := by
  apply BitVec.eq_of_getLsbD_eq
  intro i hi
  obtain ⟨hlow, hsticky, hlast⟩ := h i hi
  rw [BitVec.getLsbD_extractLsb', statusWord_get, if_neg (by omega), if_neg (by omega), if_neg (by omega),
    if_neg hsticky, if_neg hlast]
  simp

/-- The bits derived from the encoder are those of a state with the same encoder. -/
theorem statusWord_derived {s t : State} (he : t.enc = s.enc) {i : Nat} (hi : i < 3) :
    (statusWord t).getLsbD i = (statusWord s).getLsbD i := by
  rw [statusWord_get, statusWord_get, he]
  obtain rfl | rfl | rfl : i = 0 ∨ i = 1 ∨ i = 2 := by omega
  all_goals rfl

/-- A write of STATUS clears the sticky bits written as 1 and leaves the others. -/
theorem statusWord_clearErrors_sticky (v : Word) (s : State) {i : Nat} (h8 : 8 ≤ i) (h14 : i < 14) :
    (statusWord (clearErrors v s)).getLsbD i = ((statusWord s).getLsbD i && !v.getLsbD i) := by
  have hget : ∀ u : State, (statusWord u).getLsbD i = u.sticky.getLsbD (i - 8) := fun u => by
    rw [statusWord_get, if_neg (by omega), if_neg (by omega), if_neg (by omega), if_pos ⟨h8, h14⟩]
  have hi : i - 8 < 6 := by omega
  rw [hget, hget, clearErrors_sticky, BitVec.getLsbD_and, BitVec.getLsbD_not, BitVec.getLsbD_extractLsb',
    Nat.add_sub_cancel' h8]
  simp [hi]

/-- STATUS after reset: the encoder latches, and nothing is pending. -/
theorem statusWord_reset (c : Config) (e : Env) : statusWord (State.resetIn c e) = 0x00000003 := by
  have hb : busy (encReset c) = true := rfl
  have hl : latching (encReset c) = true := rfl
  have hm : irqMask (encReset c) = false := rfl
  simp only [statusWord, State.resetIn, hb, hl, hm]
  decide

/-- Settles O13: the fields of STATUS by its bits, and a write of STATUS as `clearErrors`. -/
theorem statusFieldsAndWriteOneToClear : Obligations.StatusFieldsAndWriteOneToClear := by
  unfold Obligations.StatusFieldsAndWriteOneToClear
  simp only [busRead_status]
  refine ⟨fun s => ⟨?_, ?_, ?_, ?_, statusWord_sticky s, ?_, statusWord_lastErr s, ?_⟩, fun s v => ?_, statusWord_reset⟩
  · exact statusWord_get s 0
  · exact statusWord_get s 1
  · exact statusWord_get s 2
  · exact statusWord_unassigned s (by omega)
  · exact statusWord_unassigned s (by omega)
  · exact statusWord_unassigned s (by omega)
  · refine ⟨clearErrors v s, busWrite_status s v, rfl, fun i hi => statusWord_derived (clearErrors_enc s v) hi,
      fun i h8 h14 => statusWord_clearErrors_sticky v s h8 h14, ?_⟩
    rw [statusWord_lastErr, statusWord_lastErr, statusWord_sticky]
    rfl

/-! ## PARAM0 to PARAM2 (R33) -/

/-- No admitted event changes the configuration (R21). -/
theorem hostEvent_cfg {e : Event} {s t : State} (h : hostEvent e s = .next t) : t.cfg = s.cfg := by
  cases e with
  | read n a =>
    simp only [hostEvent] at h
    split at h <;> cases h
    rfl
  | write n a v =>
    simp only [hostEvent] at h
    split at h
    · obtain ⟨u, hu, hworld⟩ := busWrite_world a v s
      cases hu.symm.trans h
      exact hworld.1
    · cases h
  | wait =>
    simp only [hostEvent] at h
    split at h <;> cases h <;> rfl
  | cycle | driveTick _ | driveGate _ | giveRand _ | reset => cases h; rfl

/-- No step changes the configuration (R21). -/
theorem step_cfg {s t : State} (h : step s = .next t) : t.cfg = s.cfg := by
  unfold step advance at h
  split at h
  · split at h
    · cases h; rfl
    · exact (hostEvent_cfg h).trans (withPending_cfg s _)
  · cases h

/-- The number of a word made of two fields: the upper one counts in units of the lower one's range. -/
theorem toNat_append_eq_add {m n : Nat} (x : BitVec m) (y : BitVec n) :
    (x ++ y).toNat = 2 ^ n * x.toNat + y.toNat := by
  rw [BitVec.toNat_append, ← Nat.shiftLeft_add_eq_or_of_lt y.isLt, Nat.shiftLeft_eq, Nat.mul_comm]

theorem param0_toNat {c : Config} (hv : c.Valid) :
    (param0 c).toNat = c.pixels + 2 ^ 16 * c.wiring + 2 ^ 19 * c.rgbaInput.toNat := by
  obtain ⟨hp, -⟩ := valid_sizes hv
  have hw := valid_wiring hv
  have hb : (bit c.rgbaInput).toNat = c.rgbaInput.toNat := BitVec.toNat_ofBool _
  simp only [param0, toNat_append_eq_add, hb, BitVec.toNat_ofNat]
  omega

theorem param1_toNat {c : Config} (hv : c.Valid) :
    (param1 c).toNat = c.segCap + 2 ^ 8 * c.palCap + 2 ^ 16 * c.rainCap := by
  obtain ⟨-, hs, hp, -, hr⟩ := valid_sizes hv
  simp only [param1, toNat_append_eq_add, BitVec.toNat_ofNat]
  omega

theorem param2_toNat {c : Config} (hv : c.Valid) : (param2 c).toNat = c.spbCap := by
  obtain ⟨-, -, -, hs, -⟩ := valid_sizes hv
  simp only [param2, toNat_append_eq_add, BitVec.toNat_ofNat]
  omega

theorem busRead_params (s : State) :
    busRead s 0x034 = param0 s.cfg ∧ busRead s 0x038 = param1 s.cfg ∧ busRead s 0x03C = param2 s.cfg :=
  ⟨busRead_regAddr s .param0, busRead_regAddr s .param1, busRead_regAddr s .param2⟩

/-- Settles O18: a step keeps the configuration, and PARAM0 to PARAM2 read nothing else. -/
theorem configurationNeverChanges : Obligations.ConfigurationNeverChanges := by
  unfold Obligations.ConfigurationNeverChanges
  refine ⟨fun s t h => ⟨step_cfg h, ?_⟩, fun s hv => ?_⟩
  · obtain ⟨hs0, hs1, hs2⟩ := busRead_params s
    obtain ⟨ht0, ht1, ht2⟩ := busRead_params t
    rw [step_cfg h] at ht0 ht1 ht2
    simp only [List.forall_mem_cons]
    exact ⟨ht0.trans hs0.symm, ht1.trans hs1.symm, ht2.trans hs2.symm, List.forall_mem_nil _⟩
  · obtain ⟨h0, h1, h2⟩ := busRead_params s
    rw [h0, h1, h2]
    exact ⟨param0_toNat hv, param1_toNat hv, param2_toNat hv⟩

/-! ## What a command does to ARG0 to ARG3 (R23) and ACTIVE (R28) -/

/-- ARG0 to ARG3 (R23). -/
def args (s : State) : Word × Word × Word × Word := (s.arg0, s.arg1, s.arg2, s.arg3)

/-- The argument registers and ACTIVE: what the update of an animation leaves alone. -/
def control (s : State) : (Word × Word × Word × Word) × Option Key := (args s, s.active)

theorem control_fadeUpdate (t : Trig) (b : Bool) (s : State) : control (fadeUpdate t b s) = control s := by
  unfold fadeUpdate
  dsimp only
  split
  · split <;> rfl
  · rfl

theorem control_breatheUpdate (t : Trig) (b : Bool) (s : State) : control (breatheUpdate t b s) = control s := by
  have hhold : control (breatheHold t b s) = control s := by
    unfold breatheHold
    split <;> rfl
  have hramp : ∀ u, control (breatheRamp u) = control u := fun u => by
    unfold breatheRamp
    split
    · rfl
    · rfl
    · dsimp only
      split <;> rfl
  exact (hramp _).trans hhold

theorem control_rainbowUpdate (t : Trig) (b : Bool) (s : State) : control (rainbowUpdate t b s) = control s := by
  unfold rainbowUpdate
  split <;> rfl

theorem control_swapUpdate (t : Trig) (b : Bool) (s : State) : control (swapUpdate t b s) = control s := by
  unfold swapUpdate
  split <;> rfl

theorem control_rainUpdate (t : Trig) (b : Bool) (s : State) : control (rainUpdate t b s) = control s := by
  have hdecay : control (rainDecay (rainPurge s)) = control s := by
    unfold rainDecay
    split <;> rfl
  have hspawn : ∀ u, control (rainSpawn t b u) = control u := fun u => by
    unfold rainSpawn
    split <;> rfl
  exact (hspawn _).trans hdecay

theorem control_wipeUpdate (t : Trig) (b : Bool) (s : State) : control (wipeUpdate t b s) = control s := by
  unfold wipeUpdate
  split <;> rfl

theorem control_wipeFinish (s : State) : control (wipeFinish s) = control s := by
  unfold wipeFinish
  split <;> rfl

/-- A frame goes to the encoder and FRAME_COUNT (40_encoder.md R128). -/
theorem control_showPixels (px : List RGB) (s : State) : control (showPixels px s) = control s := rfl

/-- Activation records the key (42_animation.md R221); an update that leaves ACTIVE alone keeps it there. -/
theorem control_animStep (a : Anim) (t : Trig) {f : Bool → State → State} (hf : ∀ b s, control (f b s) = control s)
    (s : State) : control (animStep a t f s) = (args s, some ⟨a, t⟩) := by
  rw [animStep, hf]
  simp [control, args]

/-- The animation command of the key (a, t) (30_encoding.md R93). -/
def animCall : Anim → Trig → State → State
  | .fade => animFade
  | .breathe => animBreathe
  | .rainbow => animRainbow
  | .swap => animSwap
  | .rain => animRain
  | .wipe => animWipe

/-- An animation command always answers a next state (60_exceptions.md R314). -/
theorem exec_animInstr (a : Anim) (t : Trig) (s : State) : exec (animInstr a t) s = .next (animCall a t s) := by
  cases a <;> cases t <;> rfl

/-- An animation command that runs records its key; a swap stopped by its palette check does not run
(42_animation.md R221, R234). -/
theorem control_animCall (a : Anim) (t : Trig) (s : State) :
    control (animCall a t s) =
      (args s, if a = .swap ∧ paletteBad s (opN s) = true then s.active else some ⟨a, t⟩) := by
  cases a with
  | fade => exact (control_showPixels _ _).trans (control_animStep .fade t (control_fadeUpdate t) s)
  | breathe => exact (control_showPixels _ _).trans (control_animStep .breathe t (control_breatheUpdate t) s)
  | rainbow => exact (control_showPixels _ _).trans (control_animStep .rainbow t (control_rainbowUpdate t) s)
  | rain => exact (control_showPixels _ _).trans (control_animStep .rain t (control_rainUpdate t) s)
  | wipe =>
    exact (control_showPixels _ _).trans
      ((control_wipeFinish _).trans (control_animStep .wipe t (control_wipeUpdate t) s))
  | swap =>
    simp only [animCall, animSwap, true_and]
    split
    · rfl
    · exact (control_showPixels _ _).trans (control_animStep .swap t (control_swapUpdate t) s)

/-- A command that is no animation command clears ACTIVE if it is ANIM_RESET and else leaves it (R28). -/
theorem exec_plain_control {i : Instr} (hi : i ∈ plainRows.map Prod.snd) (s : State) :
    ∃ t, exec i s = .next t ∧ control t = (args s, if i = .animReset then none else s.active) := by
  cases i
  case nop | scale | renderUniform | renderSparse | spbClear | spbDecay | spbPurge | animReset => exact ⟨_, rfl, rfl⟩
  case renderSegments =>
    simp only [exec, execRenderSegments]
    split
    · exact ⟨_, rfl, rfl⟩
    · split <;> exact ⟨_, rfl, rfl⟩
  case segBuildEven =>
    simp only [exec, execSegBuildEven]
    split <;> exact ⟨_, rfl, rfl⟩
  case spbPut =>
    simp only [exec, execSpbPut]
    split
    · exact ⟨_, rfl, rfl⟩
    · split <;> exact ⟨_, rfl, rfl⟩
  all_goals exact absurd hi (by decide)

/-- No command writes an argument register (R23). -/
theorem exec_args {i : Instr} {s t : State} (h : exec i s = .next t) : args t = args s := by
  obtain ⟨a, tr, rfl⟩ | hi := instr_cases i
  · cases (exec_animInstr a tr s).symm.trans h
    exact congrArg Prod.fst (control_animCall a tr s)
  · obtain ⟨u, hu, hc⟩ := exec_plain_control hi s
    cases hu.symm.trans h
    exact congrArg Prod.fst hc

/-- Settles O15: the writes and reads of the four registers, and `exec_args` for the commands. -/
theorem argumentRegistersHoldWhatIsWritten : Obligations.ArgumentRegistersHoldWhatIsWritten := by
  unfold Obligations.ArgumentRegistersHoldWhatIsWritten
  refine ⟨fun s v hb => ⟨?_, ?_, ?_, ?_⟩, fun s => ⟨?_, ?_, ?_, ?_⟩, fun i s t h => ?_, fun c e => ⟨rfl, rfl, rfl, rfl⟩⟩
  · exact busWrite_regAddr hb (r := .arg0) (by decide) v
  · exact busWrite_regAddr hb (r := .arg1) (by decide) v
  · exact busWrite_regAddr hb (r := .arg2) (by decide) v
  · exact busWrite_regAddr hb (r := .arg3) (by decide) v
  · exact busRead_regAddr s .arg0
  · exact busRead_regAddr s .arg1
  · exact busRead_regAddr s .arg2
  · exact busRead_regAddr s .arg3
  · simpa [args] using exec_args h

/-- The key of an animation command (42_animation.md R221), none for the other commands. -/
def keyOf : Instr → Option Key
  | .animFade => some ⟨.fade, .time⟩
  | .animFadeEdge => some ⟨.fade, .edge⟩
  | .animFadeEither => some ⟨.fade, .either⟩
  | .animBreathe => some ⟨.breathe, .time⟩
  | .animBreatheEdge => some ⟨.breathe, .edge⟩
  | .animBreatheEither => some ⟨.breathe, .either⟩
  | .animRainbow => some ⟨.rainbow, .time⟩
  | .animRainbowEdge => some ⟨.rainbow, .edge⟩
  | .animRainbowEither => some ⟨.rainbow, .either⟩
  | .animSwap => some ⟨.swap, .time⟩
  | .animSwapEdge => some ⟨.swap, .edge⟩
  | .animSwapEither => some ⟨.swap, .either⟩
  | .animRain => some ⟨.rain, .time⟩
  | .animRainEdge => some ⟨.rain, .edge⟩
  | .animRainEither => some ⟨.rain, .either⟩
  | .animWipe => some ⟨.wipe, .time⟩
  | .animWipeEdge => some ⟨.wipe, .edge⟩
  | .animWipeEither => some ⟨.wipe, .either⟩
  | _ => none

theorem keyOf_animInstr (a : Anim) (t : Trig) : keyOf (animInstr a t) = some ⟨a, t⟩ := by
  cases a <;> cases t <;> rfl

theorem keyOf_plain {i : Instr} (hi : i ∈ plainRows.map Prod.snd) : keyOf i = none := by
  revert i
  decide

/-- Settles O43: ACTIVE after an animation command by `control_animCall`, after any other by `exec_plain_control`. -/
theorem activeNamesTheLastAnimation : Obligations.ActiveNamesTheLastAnimation := by
  unfold Obligations.ActiveNamesTheLastAnimation
  intro i s
  obtain ⟨a, tr, rfl⟩ | hi := instr_cases i
  · refine ⟨_, exec_animInstr a tr s, fun a' tr' h => ?_, fun h => absurd rfl (h a tr)⟩
    have hkey := congrArg keyOf h
    rw [keyOf_animInstr, keyOf_animInstr] at hkey
    cases hkey
    exact congrArg Prod.snd (control_animCall a tr s)
  · obtain ⟨t, ht, hc⟩ := exec_plain_control hi s
    refine ⟨t, ht, fun a tr h => ?_, fun _ => congrArg Prod.snd hc⟩
    subst h
    cases (keyOf_animInstr a tr).symm.trans (keyOf_plain hi)

end Sys2Proof.Machine

/-! # The bus: the address map, what is refused, and what reads and writes reach (20_memory.md) -/

namespace Sys2Proof.Machine

/-! ## The address map (R64, R65) -/

theorem pairTarget_first (f g : Nat → Target) (base k : Nat) : pairTarget f g base (base + 8 * k) = f k := by
  rw [pairTarget, if_pos (by omega), show (base + 8 * k - base) / 8 = k by omega]

theorem pairTarget_second (f g : Nat → Target) (base k : Nat) : pairTarget f g base (base + 4 + 8 * k) = g k := by
  rw [pairTarget, if_neg (by omega), show (base + 4 + 8 * k - base) / 8 = k by omega]

/-- A place lies at a multiple of 4 in the 16-bit address space. -/
theorem targetAddr_bounds {c : Config} (hv : c.Valid) {t : Target} (ht : Mapped c t) :
    targetAddr t < 2 ^ 16 ∧ targetAddr t % 4 = 0 := by
  have hc := valid_sizes hv
  cases t with
  | reg r => cases r <;> decide
  | unmapped => exact ht.elim
  | segLen k | segColor k | pal k | spbPos k | spbColor k | rainPos k | rainColor k =>
    simp only [Mapped] at ht
    simp only [targetAddr]
    omega

/-- Above the registers the map is that of the windows. -/
theorem targetAt_window (c : Config) {a : Nat} (hlow : 0x141 ≤ a) (hhigh : a < 2 ^ 16) :
    targetAt c (BitVec.ofNat 16 a) = windowAt c a := by
  have ha : (BitVec.ofNat 16 a).toNat = a := Nat.mod_eq_of_lt hhigh
  rw [targetAt, ha, regAt_none hlow]

/-! In a valid configuration no window reaches into a later one, so an address in a window is looked up there. -/

theorem targetAt_segWindow {c : Config} (hv : c.Valid) {a : Nat} (h : 0x1000 ≤ a ∧ a < 0x1000 + 8 * c.segCap) :
    targetAt c (BitVec.ofNat 16 a) = pairTarget .segLen .segColor 0x1000 a := by
  have hc := valid_sizes hv
  rw [targetAt_window c (by omega) (by omega), windowAt, if_pos h]

theorem targetAt_palWindow {c : Config} (hv : c.Valid) {a : Nat} (h : 0x2000 ≤ a ∧ a < 0x2000 + 4 * c.palCap) :
    targetAt c (BitVec.ofNat 16 a) = .pal ((a - 0x2000) / 4) := by
  have hc := valid_sizes hv
  rw [targetAt_window c (by omega) (by omega), windowAt, if_neg (by omega), if_pos h]

theorem targetAt_spbWindow {c : Config} (hv : c.Valid) {a : Nat} (h : 0x3000 ≤ a ∧ a < 0x3000 + 8 * c.spbCap) :
    targetAt c (BitVec.ofNat 16 a) = pairTarget .spbPos .spbColor 0x3000 a := by
  have hc := valid_sizes hv
  rw [targetAt_window c (by omega) (by omega), windowAt, if_neg (by omega), if_neg (by omega), if_pos h]

theorem targetAt_rainWindow {c : Config} (hv : c.Valid) {a : Nat} (h : 0x8000 ≤ a ∧ a < 0x8000 + 8 * c.rainCap) :
    targetAt c (BitVec.ofNat 16 a) = pairTarget .rainPos .rainColor 0x8000 a := by
  have hc := valid_sizes hv
  rw [targetAt_window c (by omega) (by omega), windowAt, if_neg (by omega), if_neg (by omega), if_neg (by omega),
    if_pos h]

/-- A place is at its address. -/
theorem targetAt_targetAddr {c : Config} (hv : c.Valid) {t : Target} (ht : Mapped c t) :
    targetAt c (BitVec.ofNat 16 (targetAddr t)) = t := by
  cases t with
  | reg r => exact targetAt_reg c r
  | unmapped => exact ht.elim
  | segLen k =>
    have hk : k < c.segCap := ht
    exact (targetAt_segWindow hv (a := 0x1000 + 8 * k) (by omega)).trans (pairTarget_first ..)
  | segColor k =>
    have hk : k < c.segCap := ht
    exact (targetAt_segWindow hv (a := 0x1000 + 4 + 8 * k) (by omega)).trans (pairTarget_second ..)
  | pal k =>
    have hk : k < c.palCap := ht
    exact (targetAt_palWindow hv (a := 0x2000 + 4 * k) (by omega)).trans (congrArg Target.pal (by omega))
  | spbPos k =>
    have hk : k < c.spbCap := ht
    exact (targetAt_spbWindow hv (a := 0x3000 + 8 * k) (by omega)).trans (pairTarget_first ..)
  | spbColor k =>
    have hk : k < c.spbCap := ht
    exact (targetAt_spbWindow hv (a := 0x3000 + 4 + 8 * k) (by omega)).trans (pairTarget_second ..)
  | rainPos k =>
    have hk : k < c.rainCap := ht
    exact (targetAt_rainWindow hv (a := 0x8000 + 8 * k) (by omega)).trans (pairTarget_first ..)
  | rainColor k =>
    have hk : k < c.rainCap := ht
    exact (targetAt_rainWindow hv (a := 0x8000 + 4 + 8 * k) (by omega)).trans (pairTarget_second ..)

/-- A read at a place's address answers the place's content. -/
theorem busRead_targetAddr {s : State} (hv : s.cfg.Valid) {t : Target} (ht : Mapped s.cfg t) :
    busRead s (BitVec.ofNat 16 (targetAddr t)) = readTarget s t := by
  rw [busRead, targetAt_targetAddr hv ht]

/-- Settles O8: `targetAt` and `targetAddr` undo each other. -/
theorem addressMapIsOneToOne : Obligations.AddressMapIsOneToOne := by
  unfold Obligations.AddressMapIsOneToOne
  intro c hv
  refine ⟨fun t ht => ?_, fun a ha hu => targetAt_mapped hv ha hu⟩
  obtain ⟨hlt, hal⟩ := targetAddr_bounds hv ht
  exact ⟨hlt, hal, targetAt_targetAddr hv ht⟩

/-! ## What a step refuses (R63, 60_exceptions.md R313, R314) -/

/-- A step of a configuration that is built does the first pending event. -/
theorem step_event {s : State} (hv : s.cfg.Valid) {e : Event} {rest : List Event} (hp : s.env.pending = e :: rest) :
    step s = hostEvent e (withPending rest s) := by
  rw [step, advance, if_pos hv, hp]

theorem accessOk_iff {n : Nat} {a : Half} : accessOk n a = true ↔ n = 4 ∧ a.toNat % 4 = 0 := by
  simp [accessOk]

/-- An event inside the interface always has a next state. -/
theorem hostEvent_wellFormed {e : Event} (he : e.wellFormed = true) (s : State) : ∃ t, hostEvent e s = .next t := by
  cases e with
  | read n a => exact ⟨_, if_pos he⟩
  | write n a v =>
    obtain ⟨t, ht, -⟩ := busWrite_world a v s
    exact ⟨t, (if_pos he).trans ht⟩
  | wait =>
    simp only [hostEvent]
    split <;> exact ⟨_, rfl⟩
  | cycle | driveTick _ | driveGate _ | giveRand _ | reset => exact ⟨_, rfl⟩

/-- Settles O9: the refusals of `advance` and of `hostEvent`, and `hostEvent_wellFormed` for every other step. -/
theorem onlyAccessesOutsideTheInterfaceAreRefused : Obligations.OnlyAccessesOutsideTheInterfaceAreRefused := by
  unfold Obligations.OnlyAccessesOutsideTheInterfaceAreRefused
  refine fun s => ⟨fun hv => if_neg hv, fun hv n a v rest hbad hp => ?_, fun hv hw => ?_⟩
  · have hno : ¬ accessOk n a = true := by
      rw [accessOk_iff]
      omega
    obtain hp | hp := hp
    · exact (step_event hv hp).trans (if_neg hno)
    · exact (step_event hv hp).trans (if_neg hno)
  · cases hp : s.env.pending with
    | nil => exact ⟨encoderCycle s, by rw [step, advance, if_pos hv, hp]⟩
    | cons e rest =>
      rw [step_event hv hp]
      exact hostEvent_wellFormed (hw e rest hp) _

/-! ## Reads (R64, R70) -/

/-- What is read depends on nothing of the environment. -/
theorem busRead_withEnv (s : State) (env : Env) (b : Half) : busRead { s with env := env } b = busRead s b := by
  have hread : ∀ t, readTarget { s with env := env } t = readTarget s t := fun t => by
    cases t with
    | reg r => cases r <;> rfl
    | segLen k | segColor k | pal k | spbPos k | spbColor k | rainPos k | rainColor k | unmapped => rfl
  exact hread _

/-- A step that is a read hands the value to the host and does nothing else. -/
theorem step_read {s : State} (hv : s.cfg.Valid) {a : Half} (ha : a.toNat % 4 = 0) {rest : List Event}
    (hp : s.env.pending = .read 4 a :: rest) :
    step s = .next { s with env := { s.env with pending := rest, rdata := busRead s a } } := by
  have hread : busRead (withPending rest s) a = busRead s a := busRead_withEnv s _ a
  rw [step_event hv hp, hostEvent, if_pos (accessOk_iff.2 ⟨rfl, ha⟩), hread]
  rfl

/-- The word of a key: bit 31, the trigger mode in bits 9:8 and the opcode in bits 7:0 (10_state.md R28). -/
theorem keyWord_fields (k : Key) :
    1#1 ++ 0#21 ++ trigCode k.trig ++ animCode k.anim =
      (0x80000000 : Word) ||| (trigCode k.trig).setWidth 32 <<< 8 ||| (animCode k.anim).setWidth 32 := by
  obtain ⟨a, t⟩ := k
  cases a <;> cases t <;> rfl

/-- Settles O12: `step_read` for the read, `busRead_regAddr` for the content of each register. -/
theorem readsHaveNoSideEffect : Obligations.ReadsHaveNoSideEffect := by
  unfold Obligations.ReadsHaveNoSideEffect
  refine ⟨fun s a rest hv ha hp => ⟨_, step_read hv ha hp, rfl, rfl, busRead_withEnv s _⟩, fun s => ?_⟩
  have hactive : busRead s 0x00C = activeWord s := busRead_regAddr s .active
  have hfade : busRead s 0x104 = BitVec.ofNat 32 (huePhaseCode s.fade.phase) := busRead_regAddr s .fadePhase
  have hbre : busRead s 0x10C = BitVec.ofNat 32 (brePhaseCode s.breathe.phase) := busRead_regAddr s .brePhase
  have hrbw : busRead s 0x118 = BitVec.ofNat 32 (huePhaseCode s.rainbow.phase) := busRead_regAddr s .rbwPhase
  refine ⟨⟨busRead_regAddr s .cmd, busRead_regAddr s .result, ?_⟩,
    ⟨busRead_regAddr s .arg0, busRead_regAddr s .arg1, busRead_regAddr s .arg2, busRead_regAddr s .arg3⟩,
    ⟨busRead_regAddr s .segCount, busRead_regAddr s .palLen, busRead_regAddr s .spbCount, busRead_regAddr s .rainCount,
      busRead_regAddr s .frameCount⟩,
    ⟨busRead_regAddr s .fadeColor, ?_⟩,
    ⟨busRead_regAddr s .breLevel, ?_, busRead_regAddr s .breMark⟩,
    ⟨busRead_regAddr s .rbwColor, ?_, busRead_regAddr s .rbwMark⟩,
    ⟨busRead_regAddr s .swpRot, busRead_regAddr s .swpMark⟩,
    ⟨busRead_regAddr s .rainDmark, busRead_regAddr s .rainSmark, busRead_regAddr s .rainGap⟩,
    ⟨busRead_regAddr s .wipeK, busRead_regAddr s .wipeBg, busRead_regAddr s .wipeMark⟩,
    busRead_regAddr s .gatePrev⟩
  · rw [hactive, activeWord]
    cases s.active with
    | none => rfl
    | some k => exact keyWord_fields k
  · rw [hfade]
    cases s.fade.phase <;> rfl
  · rw [hbre]
    cases s.breathe.phase <;> rfl
  · rw [hrbw]
    cases s.rainbow.phase <;> rfl

/-! ## The windows of the sparse buffers (R65, 10_state.md R31) -/

/-- A window word pair shows the entry of its index, and 0 beyond the last entry. -/
theorem window_entry (S : List Entry) (k : Nat) :
    (∀ e, S[k]? = some e → (entryPos S k).toNat = e.pos.toNat ∧
      (entryColour S k).toNat = 2 ^ 16 * e.color.r.toNat + 2 ^ 8 * e.color.g.toNat + e.color.b.toNat) ∧
    (S.length ≤ k → entryPos S k = 0 ∧ entryColour S k = 0) := by
  refine ⟨fun e he => ⟨?_, ?_⟩, fun hk => ?_⟩
  · simp only [entryPos, he]
    exact BitVec.toNat_setWidth_of_le (by decide)
  · simp only [entryColour, he]
    exact colourWord_toNat e.color
  · have hnone : S[k]? = none := List.getElem?_eq_none hk
    simp only [entryPos, entryColour, hnone]
    exact ⟨rfl, rfl⟩

/-- Settles O16: the capacities bound the counts, and each window reads by `window_entry`. -/
theorem windowsShowTheSparseBuffers : Obligations.WindowsShowTheSparseBuffers := by
  unfold Obligations.WindowsShowTheSparseBuffers
  intro s hv ⟨_, _, hspb⟩ ⟨_, _, hdrops⟩
  obtain ⟨-, -, -, hspbCap, hrainCap⟩ := valid_sizes hv
  have hspbCount : busRead s 0x028 = BitVec.ofNat 32 s.spb.length := busRead_regAddr s .spbCount
  have hrainCount : busRead s 0x02C = BitVec.ofNat 32 s.rain.drops.length := busRead_regAddr s .rainCount
  refine ⟨?_, ?_, fun k hk => ?_, fun k hk => ?_⟩
  · rw [hspbCount, BitVec.toNat_ofNat]
    omega
  · rw [hrainCount, BitVec.toNat_ofNat]
    omega
  · have hpos : busRead s (BitVec.ofNat 16 (0x3000 + 8 * k)) = entryPos s.spb k :=
      busRead_targetAddr hv (t := .spbPos k) hk
    have hcolour : busRead s (BitVec.ofNat 16 (0x3004 + 8 * k)) = entryColour s.spb k :=
      busRead_targetAddr hv (t := .spbColor k) hk
    rw [hpos, hcolour]
    exact window_entry s.spb k
  · have hpos : busRead s (BitVec.ofNat 16 (0x8000 + 8 * k)) = entryPos s.rain.drops k :=
      busRead_targetAddr hv (t := .rainPos k) hk
    have hcolour : busRead s (BitVec.ofNat 16 (0x8004 + 8 * k)) = entryColour s.rain.drops k :=
      busRead_targetAddr hv (t := .rainColor k) hk
    rw [hpos, hcolour]
    exact window_entry s.rain.drops k

/-! ## Writes (R65, R66, R70, R71) -/

/-- Settles O11: error 1 for a write, `clearErrors` for a write of STATUS, `step_read` for a read. -/
theorem writesWhileBusyAreIgnored : Obligations.WritesWhileBusyAreIgnored := by
  unfold Obligations.WritesWhileBusyAreIgnored
  refine fun s a v hb => ⟨fun ha => ?_, busWrite_status s v, fun rest hv hal hp => step_read hv hal hp⟩
  have ha' : a.toNat ≠ 4 := fun h => ha (BitVec.eq_of_toNat_eq h)
  exact busWrite_busy hb ha'

/-- Only STATUS's own aligned address names STATUS. -/
theorem targetAt_ne_status {c : Config} (hv : c.Valid) {a : Half} (ha : a.toNat % 4 = 0) (h4 : a ≠ 0x004) :
    targetAt c a ≠ .reg .status := by
  rw [Ne, (targetAt_cmd_iff hv ha).2]
  exact fun h => h4 (BitVec.eq_of_toNat_eq h)

/-- A write at one address, but for CMD and STATUS, changes what no other address reads. -/
theorem busRead_writeTarget_ne {s : State} (hv : s.cfg.Valid) (hm : s.mem.wf) {a b : Half} (ha : a.toNat % 4 = 0)
    (hb : b.toNat % 4 = 0) (hne : b ≠ a) (hs : targetAt s.cfg a ≠ .reg .status) (v : Word) :
    busRead (writeTarget (targetAt s.cfg a) v s) b = busRead s b := by
  rw [busRead, busRead, (writeTarget_frame _ v s).1]
  by_cases hua : targetAt s.cfg a = .unmapped
  · have hro : writable (targetAt s.cfg a) = false := by rw [hua]; rfl
    rw [writeTarget_readonly hro]
  by_cases hub : targetAt s.cfg b = .unmapped
  · rw [hub, readTarget, readTarget]
  have htarget : targetAt s.cfg b ≠ targetAt s.cfg a := fun h => hne (targetAt_injective hv hb ha hub h)
  exact readTarget_writeTarget_ne hv hm (targetAt_mapped hv ha hua).1 (targetAt_mapped hv hb hub).1 htarget hs v

/-- Settles O17: the write is that of the place the address names, and `busRead_writeTarget_ne`. -/
theorem writesAreLocal : Obligations.WritesAreLocal := by
  unfold Obligations.WritesAreLocal
  intro s a v hinv hbusy ha h0 h4
  have h0' : a.toNat ≠ 0 := fun h => h0 (BitVec.eq_of_toNat_eq h)
  exact ⟨_, busWrite_idle hbusy h0', fun b hb hne =>
    busRead_writeTarget_ne hinv.cfg hinv.mem.1 ha hb hne (targetAt_ne_status hinv.cfg ha h4) v⟩

/-- A write at an address that names anything but CMD, while BUSY = 0, is the write of what it names. -/
theorem busWrite_of_target_ne_cmd {s : State} (hb : busy s.enc = false) {a : Half} (h : targetAt s.cfg a ≠ .reg .cmd)
    (v : Word) : busWrite a v s = .next (writeTarget (targetAt s.cfg a) v s) := by
  refine busWrite_idle hb fun h0 => h ?_
  rw [show a = BitVec.ofNat 16 (regAddr .cmd) from BitVec.eq_of_toNat_eq h0, targetAt_reg]

/-- A write at an address that names no writable place does nothing while BUSY = 0. -/
theorem busWrite_readonly {s : State} (hb : busy s.enc = false) {a : Half} (h : writable (targetAt s.cfg a) = false)
    (v : Word) : busWrite a v s = .next s := by
  have hcmd : targetAt s.cfg a ≠ .reg .cmd := fun hc => by
    rw [hc] at h
    cases h
  rw [busWrite_of_target_ne_cmd hb hcmd, writeTarget_readonly h]

/-- The low `n` bits of a word are what the mask of `n` ones leaves of it. -/
theorem setWidth_extractLsb'_zero (v : Word) (n : Nat) :
    (v.extractLsb' 0 n).setWidth 32 = v &&& BitVec.ofNat 32 (2 ^ n - 1) := by
  apply BitVec.eq_of_getLsbD_eq
  intro i hi
  simp only [BitVec.getLsbD_setWidth, BitVec.getLsbD_extractLsb', BitVec.getLsbD_and, BitVec.getLsbD_ofNat,
    Nat.testBit_two_pow_sub_one, hi, decide_true, Bool.true_and, Nat.zero_add, Bool.and_comm]

/-- SEG_LEN[k] reads back the low 16 bits written (10_state.md R34). -/
theorem busRead_writeTarget_segLen {s : State} (hm : s.mem.wf) {a : Half} {k : Nat} (hk : targetAt s.cfg a = .segLen k)
    (v : Word) : busRead (writeTarget (targetAt s.cfg a) v s) a = v &&& 0x0000FFFF := by
  rw [busRead, (writeTarget_frame _ v s).1, hk, readTarget, writeTarget, segLen_setSegLen hm, if_pos rfl]
  exact setWidth_extractLsb'_zero v 16

/-- Settles O10: `readTarget` of the unmapped place, `busWrite_readonly`, and a write and a read of each narrow field. -/
theorem unmappedAndReadOnlyPlaces : Obligations.UnmappedAndReadOnlyPlaces := by
  unfold Obligations.UnmappedAndReadOnlyPlaces
  refine fun s a v _ => ⟨fun hu => congrArg (readTarget s) hu, fun hb hw => busWrite_readonly hb hw v, fun hb _ => ?_,
    fun hb _ => ?_, fun hb hm k hk => ?_⟩
  · exact ⟨_, busWrite_regAddr hb (r := .segCount) (by decide) v,
      (busRead_regAddr _ .segCount).trans (setWidth_extractLsb'_zero v 16)⟩
  · exact ⟨_, busWrite_regAddr hb (r := .palLen) (by decide) v,
      (busRead_regAddr _ .palLen).trans (setWidth_extractLsb'_zero v 8)⟩
  · have hcmd : targetAt s.cfg a ≠ .reg .cmd := by simp [hk]
    exact ⟨_, busWrite_of_target_ne_cmd hb hcmd v, busRead_writeTarget_segLen hm hk v⟩

end Sys2Proof.Machine

/-! # Encoding: command words, their acceptance, and the operands (30_encoding.md) -/

namespace Sys2Proof

open Machine (Trig opcodeRows)

/-! ## Legal words (R92 to R94) -/

/-- The decoder accepts the fields of a word in two ways: an animation opcode with a trigger mode, or another opcode of
the table with TRIG = TIME; the reserved bits are 0 in both. -/
theorem decodeFields_ok_iff {r : BitVec 22} {t : BitVec 2} {o : Byte} {i : Instr} :
    decodeFields r t o = .ok i ↔
      r = 0 ∧ ((∃ a x, animRows.lookup o = some a ∧ trigOf t = some x ∧ animInstr a x = i) ∨
        (animRows.lookup o = none ∧ plainRows.lookup o = some i ∧ trigOf t = some .time)) := by
  unfold decodeFields
  by_cases hr : r = 0#22
  · rw [if_neg (not_not.2 hr)]
    cases animRows.lookup o with
    | some a => cases trigOf t <;> simp [hr]
    | none =>
      cases plainRows.lookup o with
      | none => simp
      | some j =>
        cases trigOf t with
        | none => simp
        | some x => cases x <;> simp [hr]
  · rw [if_pos hr]
    simp [hr]

/-- Every command's word decodes to it. -/
theorem decode_encode (i : Instr) : decode (encode i) = .ok i := by
  cases i <;> rfl

/-- Fields the decoder accepts are those of the command's own word. -/
theorem encode_of_decodeFields {r : BitVec 22} {t : BitVec 2} {o : Byte} {i : Instr} (h : decodeFields r t o = .ok i) :
    encode i = r ++ t ++ o := by
  obtain ⟨rfl, ⟨a, x, ha, hx, rfl⟩ | ⟨-, hi, hx⟩⟩ := decodeFields_ok_iff.1 h
  · rw [animRows_some ha, trigOf_some hx]
    exact encode_animInstr a x
  · rw [trigOf_some hx]
    exact plainRows_some hi

/-- A word decodes to a command exactly when it is the command's word. -/
theorem decode_ok_iff {w : Word} {i : Instr} : decode w = .ok i ↔ encode i = w := by
  constructor
  · intro h
    exact (encode_of_decodeFields h).trans (word_fields w).symm
  · rintro rfl
    exact decode_encode i

/-- Settles O2: `decode_ok_iff`. -/
theorem decodeAndEncodeAgree : Obligations.DecodeAndEncodeAgree := by
  unfold Obligations.DecodeAndEncodeAgree
  exact fun _ _ => decode_ok_iff

/-- Every command has a row in the opcode table, at its word. -/
theorem encode_mem_opcodeRows (i : Instr) : ((encode i).toNat, i) ∈ opcodeRows := by
  cases i <;> decide

/-- Every row of the opcode table holds the word of its command. -/
theorem encode_of_mem_opcodeRows {n : Nat} {i : Instr} (h : (n, i) ∈ opcodeRows) : (encode i).toNat = n := by
  have hrows : ∀ row ∈ opcodeRows, (encode row.2).toNat = row.1 := by decide
  exact hrows _ h

/-- Settles O1: a word that decodes is its command's word, and the table's rows are the commands' words. -/
theorem opcodeTableRowsDecode : Obligations.OpcodeTableRowsDecode := by
  unfold Obligations.OpcodeTableRowsDecode
  intro w i
  rw [decode_ok_iff]
  constructor
  · rintro rfl
    exact encode_mem_opcodeRows i
  · intro h
    exact BitVec.eq_of_toNat_eq (encode_of_mem_opcodeRows h)

/-- Settles O3, by evaluation of the decoder. -/
theorem writtenOutWordsDecode : Obligations.WrittenOutWordsDecode := by
  unfold Obligations.WrittenOutWordsDecode
  decide

/-! ## Illegal words (R94) -/

theorem exists_trigOf_iff (t : BitVec 2) : (∃ x, trigOf t = some x) ↔ t ≠ 3 := by
  rw [← Option.isSome_iff_exists]
  revert t
  decide

theorem trigOf_time_iff (t : BitVec 2) : trigOf t = some .time ↔ t = 0 := by
  revert t
  decide

theorem exists_animRows_iff (o : Byte) :
    (∃ a, animRows.lookup o = some a) ↔ 0x10 ≤ o.toNat ∧ o.toNat ≤ 0x15 := by
  rw [← Option.isSome_iff_exists]
  revert o
  decide

theorem exists_plainRows_iff (o : Byte) :
    (∃ i, plainRows.lookup o = some i) ↔ o.toNat ≤ 0x09 ∨ o.toNat = 0x0F := by
  rw [← Option.isSome_iff_exists]
  revert o
  decide

/-- No opcode is in both tables. -/
theorem animRows_of_plainRows {o : Byte} {i : Instr} (h : plainRows.lookup o = some i) : animRows.lookup o = none := by
  have hplain := (exists_plainRows_iff o).1 ⟨i, h⟩
  have hanim : ¬ ∃ a, animRows.lookup o = some a := by
    rw [exists_animRows_iff]
    omega
  rwa [← Option.isSome_iff_exists, Option.not_isSome_iff_eq_none] at hanim

/-- The legal words, by the ranges of their fields. -/
theorem exists_decode_ok_iff (w : Word) :
    (∃ i, decode w = .ok i) ↔
      w.extractLsb' 10 22 = 0 ∧
        ((0x10 ≤ (w.extractLsb' 0 8).toNat ∧ (w.extractLsb' 0 8).toNat ≤ 0x15 ∧ w.extractLsb' 8 2 ≠ 3) ∨
          (((w.extractLsb' 0 8).toNat ≤ 0x09 ∨ (w.extractLsb' 0 8).toNat = 0x0F) ∧ w.extractLsb' 8 2 = 0)) := by
  simp only [decode, decodeFields_ok_iff]
  constructor
  · rintro ⟨i, hr, ⟨a, x, ha, hx, -⟩ | ⟨-, hi, hx⟩⟩
    · obtain ⟨hlow, hhigh⟩ := (exists_animRows_iff _).1 ⟨a, ha⟩
      exact ⟨hr, .inl ⟨hlow, hhigh, (exists_trigOf_iff _).1 ⟨x, hx⟩⟩⟩
    · exact ⟨hr, .inr ⟨(exists_plainRows_iff _).1 ⟨i, hi⟩, (trigOf_time_iff _).1 hx⟩⟩
  · rintro ⟨hr, ⟨hlow, hhigh, ht⟩ | ⟨ho, ht⟩⟩
    · obtain ⟨a, ha⟩ := (exists_animRows_iff _).2 ⟨hlow, hhigh⟩
      obtain ⟨x, hx⟩ := (exists_trigOf_iff _).2 ht
      exact ⟨_, hr, .inl ⟨a, x, ha, hx, rfl⟩⟩
    · obtain ⟨i, hi⟩ := (exists_plainRows_iff _).2 ho
      exact ⟨i, hr, .inr ⟨animRows_of_plainRows hi, hi, (trigOf_time_iff _).2 ht⟩⟩

/-- A word is illegal exactly when it decodes to no command. -/
theorem decode_error_iff (w : Word) : (∃ e, decode w = .error e) ↔ ¬ ∃ i, decode w = .ok i := by
  cases decode w <;> simp

/-- The illegal words, by the conditions of R94. -/
theorem exists_decode_error_iff (w : Word) :
    (∃ e, decode w = .error e) ↔
      (w.extractLsb' 10 22 ≠ 0 ∨ w.extractLsb' 8 2 = 3 ∨
        (0x0A ≤ (w.extractLsb' 0 8).toNat ∧ (w.extractLsb' 0 8).toNat ≤ 0x0E) ∨ 0x16 ≤ (w.extractLsb' 0 8).toNat ∨
        (w.extractLsb' 8 2 ≠ 0 ∧ (w.extractLsb' 0 8).toNat < 0x10)) := by
  rw [decode_error_iff, exists_decode_ok_iff]
  bv_omega

end Sys2Proof

namespace Sys2Proof.Machine

/-! ## Acceptance of a word at CMD (R98) -/

/-- An accepted illegal word reports error 2 and does nothing else but the acceptance steps. -/
theorem acceptCommand_illegal {w : Word} {e : DecodeError} (h : decode w = .error e) (s : State) :
    acceptCommand w s =
      .next { s with cmdLast := w, result := 0, sticky := s.sticky ||| 0b000010, lastErr := 2 } := by
  rw [acceptCommand, h]
  rfl

/-- An accepted legal word runs its command. -/
theorem acceptCommand_legal {w : Word} {i : Instr} (h : decode w = .ok i) (s : State) :
    acceptCommand w s = exec i (sampleInputs (acceptWord w s)) := by
  rw [acceptCommand, h]

/-- Settles O4: the illegal words are the complement of the legal ones, and `acceptCommand_illegal`. -/
theorem illegalWordsReportOpcodeError : Obligations.IllegalWordsReportOpcodeError := by
  unfold Obligations.IllegalWordsReportOpcodeError
  intro w
  refine ⟨exists_decode_error_iff w, ?_⟩
  rintro ⟨e, he⟩ s hb
  exact (busWrite_cmd hb).trans (acceptCommand_illegal he s)

/-- A step whose event is a write of CMD while the encoder is idle accepts the word. -/
theorem step_writeCmd {s : State} {w : Word} {rest : List Event} (hv : s.cfg.Valid)
    (hp : s.env.pending = .write 4 0x000 w :: rest) (hi : s.enc.est = .idle) :
    step s = acceptCommand w (withPending rest s) := by
  have hb : busy (withPending rest s).enc = false := by
    rw [withPending_enc, busy, hi]
    rfl
  rw [step_event hv hp, hostEvent, if_pos (by decide), busWrite_cmd hb]

/-- Settles O7: the step accepts the word, which is legal or illegal. -/
theorem stepRunsTheAcceptedCommand : Obligations.StepRunsTheAcceptedCommand := by
  unfold Obligations.StepRunsTheAcceptedCommand
  intro s w rest hv hp hidle
  rw [step_writeCmd hv hp hidle]
  constructor
  · intro i hi
    exact acceptCommand_legal hi _
  · intro hno
    obtain ⟨e, he⟩ := (decode_error_iff w).2 fun ⟨i, hi⟩ => hno i hi
    exact acceptCommand_illegal he _

/-! ## Operands (R95, R96, 42_animation.md R224) -/

/-- A field of a word as an unsigned number. -/
theorem toNat_field (x : Word) (k n : Nat) : (x.extractLsb' k n).toNat = x.toNat / 2 ^ k % 2 ^ n := by
  rw [BitVec.extractLsb'_toNat, Nat.shiftRight_eq_div_pow]

/-- A step operand is its field, and 1 for 0. -/
theorem coStep_toNat (b : Byte) : (coStep b).toNat = max b.toNat 1 := by
  have hb := b.isLt
  rw [coStep, co, BitVec.toNat_ofNat]
  omega

/-- Settles O5: each operand is a field of its register. -/
theorem operandsAreTheirBitFields : Obligations.OperandsAreTheirBitFields := by
  unfold Obligations.OperandsAreTheirBitFields
  intro s
  have hpsrc : opPsrc s = true ↔ s.arg1.toNat / 2 ^ 16 % 2 = 1 := by
    rw [opPsrc, ← BitVec.testBit_toNat, Nat.testBit_eq_decide_div_mod_eq, decide_eq_true_iff]
  have hupper : s.arg2.toNat / 2 ^ 16 % 2 ^ 16 = s.arg2.toNat / 2 ^ 16 := Nat.mod_eq_of_lt (by omega)
  have hswap : opSwapInterval s =
      if s.arg1.toNat / 2 ^ 16 % 2 = 1 then max (1020 - 4 * (s.arg1.toNat / 2 ^ 8 % 2 ^ 8)) 1
      else max (s.arg3.toNat % 2 ^ 16) 1 := by
    simp only [opSwapInterval, hpsrc, opPot, co, toNat_field, Nat.shiftLeft_eq, pow_zero, Nat.div_one]
    rw [Nat.mul_comm 4]
  simp only [opColour, col, opBr, opStep, opPixStep, opRotStep, opMaxd, opN, opRot, opPos, opInterval, opSpawnMin,
    opSpawnMax, opDecayMs, co, coStep_toNat, toNat_field, pow_zero, Nat.div_one, hupper, hswap, and_self]

/-! ## Unread argument bits (R97)

`maskArgs m s` clears the argument bits outside the masks `m`. The operands inside the masks do not see it, so a command
commutes with it; two states that agree on the masked bits have one masked state. -/

/-- `s` with the argument bits outside the masks cleared. -/
def maskArgs (m : Word × Word × Word × Word) (s : State) : State :=
  withArgs (s.arg0 &&& m.1) (s.arg1 &&& m.2.1) (s.arg2 &&& m.2.2.1) (s.arg3 &&& m.2.2.2) s

/-- `f` commutes with clearing the argument bits outside the masks. -/
def MaskBlind (m : Word × Word × Word × Word) (f : State → State) : Prop := ∀ s, f (maskArgs m s) = maskArgs m (f s)

/-- `op` does not see the argument bits outside the masks. -/
def ReadsWithin {α : Type} (m : Word × Word × Word × Word) (op : State → α) : Prop := ∀ s, op (maskArgs m s) = op s

/-- The first draw of a spawn: a droplet at one of the free positions (42_animation.md R235). -/
def placeDrop (s : State) : State :=
  let m := s.cfg.pixels - s.rain.drops.length
  let pos := (freePositions s.rain.drops s.cfg.pixels).getD (s.randValue.toNat % m) 0
  drawRand { s with rain := { s.rain with drops := insertEntry ⟨BitVec.ofNat 16 pos, opColour s⟩ s.rain.drops } }

/-- The second draw of a spawn: the next gap, counted from now (42_animation.md R235). -/
def restartSpawn (s : State) : State :=
  drawRand { s with rain := { s.rain with gap := spawnGap s s.randValue, smark := s.now } }

section
variable {m : Word × Word × Word × Word}

/-- A field that lies inside a mask is what the mask leaves of it. -/
theorem extractLsb'_and_mask {x k : Word} {i n : Nat} (h : k.extractLsb' i n = BitVec.allOnes n) :
    (x &&& k).extractLsb' i n = x.extractLsb' i n := by
  rw [BitVec.extractLsb'_and, h, BitVec.and_allOnes]

theorem reads_opColour (h : m.1.extractLsb' 0 8 = BitVec.allOnes 8 ∧ m.1.extractLsb' 8 8 = BitVec.allOnes 8 ∧
    m.1.extractLsb' 16 8 = BitVec.allOnes 8) : ReadsWithin m opColour := by
  obtain ⟨hb, hg, hr⟩ := h
  intro s
  simp only [opColour, col, maskArgs, withArgs, extractLsb'_and_mask hb, extractLsb'_and_mask hg,
    extractLsb'_and_mask hr]

theorem reads_opBr (h : m.2.1.extractLsb' 0 8 = BitVec.allOnes 8) : ReadsWithin m opBr :=
  fun _ => extractLsb'_and_mask h

theorem reads_opStep (h : m.2.1.extractLsb' 8 8 = BitVec.allOnes 8) : ReadsWithin m opStep :=
  fun _ => congrArg coStep (extractLsb'_and_mask h)

theorem reads_opPixStep (h : m.2.1.extractLsb' 8 8 = BitVec.allOnes 8) : ReadsWithin m opPixStep :=
  fun _ => congrArg coStep (extractLsb'_and_mask h)

theorem reads_opRotStep (h : m.2.1.extractLsb' 16 8 = BitVec.allOnes 8) : ReadsWithin m opRotStep :=
  fun _ => congrArg coStep (extractLsb'_and_mask h)

theorem reads_opMaxd (h : m.2.1.extractLsb' 8 8 = BitVec.allOnes 8) : ReadsWithin m opMaxd :=
  fun _ => congrArg BitVec.toNat (extractLsb'_and_mask h)

theorem reads_opN (h : m.2.2.1.extractLsb' 0 8 = BitVec.allOnes 8) : ReadsWithin m opN :=
  fun _ => congrArg BitVec.toNat (extractLsb'_and_mask h)

theorem reads_opRot (h : m.2.2.1.extractLsb' 8 8 = BitVec.allOnes 8) : ReadsWithin m opRot :=
  fun _ => congrArg BitVec.toNat (extractLsb'_and_mask h)

theorem reads_opPos (h : m.2.2.1.extractLsb' 0 16 = BitVec.allOnes 16) : ReadsWithin m opPos :=
  fun _ => extractLsb'_and_mask h

theorem reads_opInterval (h : m.2.2.1.extractLsb' 0 16 = BitVec.allOnes 16) : ReadsWithin m opInterval :=
  fun _ => congrArg (fun b : Half => co b.toNat) (extractLsb'_and_mask h)

theorem reads_opDecayMs (h : m.2.2.2.extractLsb' 0 16 = BitVec.allOnes 16) : ReadsWithin m opDecayMs :=
  fun _ => congrArg (fun b : Half => co b.toNat) (extractLsb'_and_mask h)

theorem reads_opPot (h : m.2.1.extractLsb' 8 8 = BitVec.allOnes 8) : ReadsWithin m opPot :=
  fun _ => extractLsb'_and_mask h

theorem reads_opPsrc (h : m.2.1.getLsbD 16 = true) : ReadsWithin m opPsrc := fun s => by
  simp only [opPsrc, maskArgs, withArgs, BitVec.getLsbD_and, h, Bool.and_true]

/-- The two sources of the swap interval (42_animation.md R234). -/
theorem reads_opSwapInterval (hpot : ReadsWithin m opPot) (hpsrc : ReadsWithin m opPsrc)
    (h : m.2.2.2.extractLsb' 0 16 = BitVec.allOnes 16) : ReadsWithin m opSwapInterval := by
  have hlow (s : State) : (maskArgs m s).arg3.extractLsb' 0 16 = s.arg3.extractLsb' 0 16 := extractLsb'_and_mask h
  intro s
  rw [opSwapInterval, hpot, hpsrc, hlow, opSwapInterval]

/-- Both spawn bounds are in the mask (42_animation.md R235). -/
theorem reads_spawnGap (hmin : m.2.2.1.extractLsb' 0 16 = BitVec.allOnes 16)
    (hmax : m.2.2.1.extractLsb' 16 16 = BitVec.allOnes 16) : ReadsWithin m spawnGap := by
  intro s
  funext r
  simp only [spawnGap, opSpawnMin, opSpawnMax, maskArgs, withArgs, extractLsb'_and_mask hmin,
    extractLsb'_and_mask hmax]

theorem reads_maxDrops (h : ReadsWithin m opMaxd) : ReadsWithin m maxDrops := by
  intro s
  simp only [maxDrops, h s]
  rfl

/-! ### What the commands share -/

theorem showPixels_maskArgs (hbr : ReadsWithin m opBr) (px : List RGB) : MaskBlind m (showPixels px) := by
  intro s
  rw [showPixels, hbr]
  rfl

/-- The activation of the rain draws a gap between the spawn bounds (42_animation.md R222); the others read no argument
register. -/
theorem activateRain_maskArgs (hgap : ReadsWithin m spawnGap) : MaskBlind m (activate .rain) := by
  intro s
  simp only [activate]
  rw [hgap s]
  rfl

variable {a : Anim}

theorem switchTo_maskArgs (hact : MaskBlind m (activate a)) (t : Trig) : MaskBlind m (switchTo a t) := by
  intro s
  simp only [switchTo, hact s]
  by_cases h : s.active = some ⟨a, t⟩
  · rw [if_pos h, if_pos (by exact h)]
    rfl
  · rw [if_neg h, if_neg (by exact h)]
    rfl

theorem animStep_maskArgs (hact : MaskBlind m (activate a)) (t : Trig) {f : Bool → State → State}
    (hf : ∀ b, MaskBlind m (f b)) : MaskBlind m (animStep a t f) := by
  intro s
  rw [animStep, switchTo_maskArgs hact, animStep, ← hf]
  rfl

/-! ### The updates of the animations

Once the operands agree, an update branches on the same conditions in the masked state, and its branches write no argument
register. -/

theorem fadeUpdate_maskArgs (hstep : ReadsWithin m opStep) (t : Trig) (b : Bool) : MaskBlind m (fadeUpdate t b) := by
  intro s
  simp only [fadeUpdate, hstep s, apply_ite (maskArgs m)]
  rfl

theorem breatheHold_maskArgs (t : Trig) (b : Bool) : MaskBlind m (breatheHold t b) := by
  intro s
  simp only [breatheHold, apply_ite (maskArgs m)]
  rfl

theorem breatheRamp_maskArgs (hstep : ReadsWithin m opStep) : MaskBlind m breatheRamp := by
  intro s
  have hrec : (maskArgs m s).breathe = s.breathe := rfl
  simp only [breatheRamp, hstep s, hrec]
  cases s.breathe.phase with
  | hold | up => rfl
  | down =>
    simp only [apply_ite (maskArgs m)]
    rfl

theorem breatheUpdate_maskArgs (hstep : ReadsWithin m opStep) (t : Trig) (b : Bool) :
    MaskBlind m (breatheUpdate t b) := by
  intro s
  rw [breatheUpdate, breatheHold_maskArgs, breatheRamp_maskArgs hstep, breatheUpdate]

theorem rainbowUpdate_maskArgs (hrot : ReadsWithin m opRotStep) (hiv : ReadsWithin m opInterval) (t : Trig) (b : Bool) :
    MaskBlind m (rainbowUpdate t b) := by
  intro s
  simp only [rainbowUpdate, hrot s, hiv s, apply_ite (maskArgs m)]
  rfl

theorem swapUpdate_maskArgs (hn : ReadsWithin m opN) (hiv : ReadsWithin m opSwapInterval) (t : Trig) (b : Bool) :
    MaskBlind m (swapUpdate t b) := by
  intro s
  simp only [swapUpdate, hn s, hiv s, apply_ite (maskArgs m)]
  rfl

theorem rainPurge_maskArgs : MaskBlind m rainPurge := fun _ => rfl

theorem rainDecay_maskArgs (hdecay : ReadsWithin m opDecayMs) : MaskBlind m rainDecay := by
  intro s
  simp only [rainDecay, hdecay s, apply_ite (maskArgs m)]
  rfl

/-- A spawn is its two draws: the droplet, then the gap (42_animation.md R235). -/
theorem rainSpawn_eq (t : Trig) (b : Bool) (s : State) :
    rainSpawn t b s =
      if triggered t (expired s s.rain.smark s.rain.gap.toNat) b ∧ s.rain.drops.length < maxDrops s then
        flagResult 0 (restartSpawn (placeDrop s))
      else s := rfl

theorem placeDrop_maskArgs (hcol : ReadsWithin m opColour) : MaskBlind m placeDrop := by
  intro s
  rw [placeDrop, hcol]
  rfl

theorem restartSpawn_maskArgs (hgap : ReadsWithin m spawnGap) : MaskBlind m restartSpawn := by
  intro s
  rw [restartSpawn, hgap]
  rfl

theorem rainSpawn_maskArgs (hcol : ReadsWithin m opColour) (hmaxd : ReadsWithin m opMaxd)
    (hgap : ReadsWithin m spawnGap) (t : Trig) (b : Bool) : MaskBlind m (rainSpawn t b) := by
  intro s
  simp only [rainSpawn_eq, reads_maxDrops hmaxd s, placeDrop_maskArgs hcol s, restartSpawn_maskArgs hgap (placeDrop s),
    apply_ite (maskArgs m)]
  rfl

theorem rainUpdate_maskArgs (hcol : ReadsWithin m opColour) (hmaxd : ReadsWithin m opMaxd)
    (hgap : ReadsWithin m spawnGap) (hdecay : ReadsWithin m opDecayMs) (t : Trig) (b : Bool) :
    MaskBlind m (rainUpdate t b) := by
  intro s
  rw [rainUpdate, rainPurge_maskArgs, rainDecay_maskArgs hdecay, rainSpawn_maskArgs hcol hmaxd hgap, rainUpdate]

theorem wipeUpdate_maskArgs (hiv : ReadsWithin m opInterval) (t : Trig) (b : Bool) : MaskBlind m (wipeUpdate t b) := by
  intro s
  simp only [wipeUpdate, hiv s, apply_ite (maskArgs m)]
  rfl

theorem wipeFinish_maskArgs (hcol : ReadsWithin m opColour) : MaskBlind m wipeFinish := by
  intro s
  simp only [wipeFinish, hcol s, apply_ite (maskArgs m)]
  rfl

/-! ### The animation commands -/

theorem animFade_maskArgs (hbr : ReadsWithin m opBr) (hstep : ReadsWithin m opStep) (t : Trig) :
    MaskBlind m (animFade t) := by
  intro s
  have hready := animStep_maskArgs (a := .fade) (fun _ => rfl) t (fadeUpdate_maskArgs hstep t) s
  simp only [animFade, hready]
  exact showPixels_maskArgs hbr _ _

theorem animBreathe_maskArgs (hbr : ReadsWithin m opBr) (hstep : ReadsWithin m opStep) (hcol : ReadsWithin m opColour)
    (t : Trig) : MaskBlind m (animBreathe t) := by
  intro s
  have hready := animStep_maskArgs (a := .breathe) (fun _ => rfl) t (breatheUpdate_maskArgs hstep t) s
  simp only [animBreathe, hready, hcol (animStep ..)]
  exact showPixels_maskArgs hbr _ _

theorem animRainbow_maskArgs (hbr : ReadsWithin m opBr) (hpix : ReadsWithin m opPixStep)
    (hrot : ReadsWithin m opRotStep) (hiv : ReadsWithin m opInterval) (t : Trig) : MaskBlind m (animRainbow t) := by
  intro s
  have hready := animStep_maskArgs (a := .rainbow) (fun _ => rfl) t (rainbowUpdate_maskArgs hrot hiv t) s
  simp only [animRainbow, hready, hpix (animStep ..)]
  exact showPixels_maskArgs hbr _ _

theorem swapSegments_maskArgs (hn : ReadsWithin m opN) : ReadsWithin m swapSegments := by
  intro s
  simp only [swapSegments, hn s]
  rfl

theorem animSwap_maskArgs (hbr : ReadsWithin m opBr) (hn : ReadsWithin m opN) (hiv : ReadsWithin m opSwapInterval)
    (t : Trig) : MaskBlind m (animSwap t) := by
  intro s
  have hready := animStep_maskArgs (a := .swap) (fun _ => rfl) t (swapUpdate_maskArgs hn hiv t) s
  simp only [animSwap, hn s, hready, swapSegments_maskArgs hn (animStep ..), showPixels_maskArgs hbr _ (animStep ..),
    apply_ite (maskArgs m)]
  rfl

theorem animRain_maskArgs (hbr : ReadsWithin m opBr) (hcol : ReadsWithin m opColour) (hmaxd : ReadsWithin m opMaxd)
    (hgap : ReadsWithin m spawnGap) (hdecay : ReadsWithin m opDecayMs) (t : Trig) : MaskBlind m (animRain t) := by
  intro s
  have hready := animStep_maskArgs (activateRain_maskArgs hgap) t (rainUpdate_maskArgs hcol hmaxd hgap hdecay t) s
  simp only [animRain, hready]
  exact showPixels_maskArgs hbr _ _

theorem wipePixels_maskArgs (hcol : ReadsWithin m opColour) : ReadsWithin m wipePixels := by
  intro s
  simp only [wipePixels, hcol s]
  rfl

theorem animWipe_maskArgs (hbr : ReadsWithin m opBr) (hcol : ReadsWithin m opColour) (hiv : ReadsWithin m opInterval)
    (t : Trig) : MaskBlind m (animWipe t) := by
  intro s
  have hready := animStep_maskArgs (a := .wipe) (fun _ => rfl) t (wipeUpdate_maskArgs hiv t) s
  simp only [animWipe, hready, wipePixels_maskArgs hcol (animStep ..), wipeFinish_maskArgs hcol (animStep ..)]
  exact showPixels_maskArgs hbr _ _

end

/-! ### Every command -/

/-- An animation command commutes with clearing the bits outside its own masks. -/
theorem animCall_maskArgs (a : Anim) (t : Trig) : MaskBlind (argMasks (animInstr a t)) (animCall a t) := by
  cases a with
  | fade =>
    have hm : argMasks (animInstr .fade t) = (0, 0xFFFF, 0, 0) := by cases t <;> rfl
    rw [hm]
    exact animFade_maskArgs (reads_opBr (by decide)) (reads_opStep (by decide)) t
  | breathe =>
    have hm : argMasks (animInstr .breathe t) = (0x00FFFFFF, 0xFFFF, 0, 0) := by cases t <;> rfl
    rw [hm]
    exact animBreathe_maskArgs (reads_opBr (by decide)) (reads_opStep (by decide)) (reads_opColour (by decide)) t
  | rainbow =>
    have hm : argMasks (animInstr .rainbow t) = (0, 0xFFFFFF, 0xFFFF, 0) := by cases t <;> rfl
    rw [hm]
    exact animRainbow_maskArgs (reads_opBr (by decide)) (reads_opPixStep (by decide)) (reads_opRotStep (by decide))
      (reads_opInterval (by decide)) t
  | swap =>
    have hm : argMasks (animInstr .swap t) = (0, 0x1FFFF, 0xFF, 0xFFFF) := by cases t <;> rfl
    rw [hm]
    exact animSwap_maskArgs (reads_opBr (by decide)) (reads_opN (by decide))
      (reads_opSwapInterval (reads_opPot (by decide)) (reads_opPsrc (by decide)) (by decide)) t
  | rain =>
    have hm : argMasks (animInstr .rain t) = (0x00FFFFFF, 0xFFFF, 0xFFFFFFFF, 0xFFFF) := by cases t <;> rfl
    rw [hm]
    exact animRain_maskArgs (reads_opBr (by decide)) (reads_opColour (by decide)) (reads_opMaxd (by decide))
      (reads_spawnGap (by decide) (by decide)) (reads_opDecayMs (by decide)) t
  | wipe =>
    have hm : argMasks (animInstr .wipe t) = (0x00FFFFFF, 0xFF, 0xFFFF, 0) := by cases t <;> rfl
    rw [hm]
    exact animWipe_maskArgs (reads_opBr (by decide)) (reads_opColour (by decide)) (reads_opInterval (by decide)) t

/-- A command answers a next state and commutes with clearing the bits outside its masks. -/
def ExecMaskBlind (i : Instr) (s : State) : Prop :=
  ∃ t, exec i s = .next t ∧ exec i (maskArgs (argMasks i) s) = .next (maskArgs (argMasks i) t)

theorem execMaskBlind_scale (s : State) : ExecMaskBlind .scale s := by
  refine ⟨_, rfl, ?_⟩
  have hcol : ReadsWithin (argMasks .scale) opColour := reads_opColour (by decide)
  have hbr : ReadsWithin (argMasks .scale) opBr := reads_opBr (by decide)
  rw [exec, execScale, hcol, hbr]
  rfl

theorem execMaskBlind_renderUniform (s : State) : ExecMaskBlind .renderUniform s := by
  refine ⟨_, rfl, ?_⟩
  have hcol : ReadsWithin (argMasks .renderUniform) opColour := reads_opColour (by decide)
  rw [exec, execRenderUniform, hcol, showPixels_maskArgs (reads_opBr (by decide))]
  rfl

theorem execMaskBlind_renderSegments (s : State) : ExecMaskBlind .renderSegments s := by
  by_cases hrange : s.cfg.segCap < s.segCount.toNat
  · exact ⟨_, if_pos hrange, if_pos hrange⟩
  · by_cases hsum : segLenSum s.mem s.segCount.toNat ≠ s.cfg.pixels
    · exact ⟨_, (if_neg hrange).trans (if_pos hsum), (if_neg hrange).trans (if_pos hsum)⟩
    · refine ⟨_, (if_neg hrange).trans (if_neg hsum), ((if_neg hrange).trans (if_neg hsum)).trans ?_⟩
      rw [showPixels_maskArgs (reads_opBr (by decide))]
      rfl

theorem execMaskBlind_renderSparse (s : State) : ExecMaskBlind .renderSparse s := by
  refine ⟨_, rfl, ?_⟩
  rw [exec, execRenderSparse, showPixels_maskArgs (reads_opBr (by decide))]
  rfl

theorem execMaskBlind_segBuildEven (s : State) : ExecMaskBlind .segBuildEven s := by
  have hn : ReadsWithin (argMasks .segBuildEven) opN := reads_opN (by decide)
  have hrot : ReadsWithin (argMasks .segBuildEven) opRot := reads_opRot (by decide)
  simp only [ExecMaskBlind, exec, execSegBuildEven, hn s, hrot s]
  by_cases hbad : paletteBad s (opN s) = true
  · exact ⟨_, if_pos hbad, if_pos hbad⟩
  · exact ⟨_, if_neg hbad, if_neg hbad⟩

theorem execMaskBlind_spbPut (s : State) : ExecMaskBlind .spbPut s := by
  have hpos : ReadsWithin (argMasks .spbPut) opPos := reads_opPos (by decide)
  have hcol : ReadsWithin (argMasks .spbPut) opColour := reads_opColour (by decide)
  have hspb : (maskArgs (argMasks .spbPut) s).spb = s.spb := rfl
  have hcfg : (maskArgs (argMasks .spbPut) s).cfg = s.cfg := rfl
  simp only [ExecMaskBlind, exec, execSpbPut, hpos s, hcol s, hspb, hcfg]
  by_cases hrange : s.cfg.pixels ≤ (opPos s).toNat
  · exact ⟨_, if_pos hrange, if_pos hrange⟩
  · rw [if_neg hrange, if_neg hrange]
    obtain ⟨S, out⟩ := put s.spb (opPos s) (opColour s) s.cfg.spbCap
    cases out <;> exact ⟨_, rfl, rfl⟩

/-- Every command answers a next state and commutes with clearing the argument bits it does not read. -/
theorem execMaskBlind (i : Instr) (s : State) : ExecMaskBlind i s := by
  obtain ⟨a, t, rfl⟩ | hi := instr_cases i
  · refine ⟨_, exec_animInstr a t s, ?_⟩
    rw [exec_animInstr, animCall_maskArgs]
  · cases i
    case nop | spbClear | spbDecay | spbPurge | animReset => exact ⟨_, rfl, rfl⟩
    case scale => exact execMaskBlind_scale s
    case renderUniform => exact execMaskBlind_renderUniform s
    case renderSegments => exact execMaskBlind_renderSegments s
    case renderSparse => exact execMaskBlind_renderSparse s
    case segBuildEven => exact execMaskBlind_segBuildEven s
    case spbPut => exact execMaskBlind_spbPut s
    all_goals exact absurd hi (by decide)

/-- A state is itself with its own argument registers. -/
theorem eq_withArgs {s : State} {a0 a1 a2 a3 : Word} (h : args s = (a0, a1, a2, a3)) : s = withArgs a0 a1 a2 a3 s := by
  cases h
  rfl

/-- Clearing argument bits is forgotten when the registers are replaced. -/
theorem withArgs_maskArgs (m : Word × Word × Word × Word) (a0 a1 a2 a3 : Word) (s : State) :
    withArgs a0 a1 a2 a3 (maskArgs m s) = withArgs a0 a1 a2 a3 s := rfl

/-- Settles O6: the two states have one masked state, so the commands' answers have one; `exec_args` gives the argument
registers of each answer back. -/
theorem unreadArgumentBitsAreIgnored : Obligations.UnreadArgumentBitsAreIgnored := by
  unfold Obligations.UnreadArgumentBitsAreIgnored
  intro i s a0 a1 a2 a3 h0 h1 h2 h3
  have hmask : maskArgs (argMasks i) (withArgs a0 a1 a2 a3 s) = maskArgs (argMasks i) s := by
    simp only [maskArgs, withArgs, h0, h1, h2, h3]
  obtain ⟨t, ht, htm⟩ := execMaskBlind i s
  obtain ⟨u, hu, hum⟩ := execMaskBlind i (withArgs a0 a1 a2 a3 s)
  have htu : maskArgs (argMasks i) u = maskArgs (argMasks i) t := by
    rw [hmask] at hum
    exact Host.Outcome.next.inj (hum.symm.trans htm)
  refine ⟨t, ht, ?_, eq_withArgs (exec_args ht)⟩
  have hu_eq : u = withArgs a0 a1 a2 a3 t := calc
    u = withArgs a0 a1 a2 a3 u := eq_withArgs (exec_args hu)
    _ = withArgs a0 a1 a2 a3 (maskArgs (argMasks i) u) := (withArgs_maskArgs ..).symm
    _ = withArgs a0 a1 a2 a3 (maskArgs (argMasks i) t) := by rw [htu]
    _ = withArgs a0 a1 a2 a3 t := withArgs_maskArgs ..
  rw [hu, hu_eq]

end Sys2Proof.Machine

/-! # The encoder (40_encoder.md)

The cycle counts and the build-time checks (R137, R138), one encoder step (R128 to R133), where the encoder stands in each
step of a frame (R121 to R124, R132, R134, R135), and a frame in the whole machine (R127, R136). -/

namespace Sys2Proof.Machine

/-! ## The build-time checks (R137, R138, 60_exceptions.md R313) -/

/-- A cycle count is its target rounded up: the least count that is not too short. -/
theorem ncyc_roundsUp (c : Config) (t : Nat) :
    t * c.fClkHz ≤ ncyc c t * 10 ^ 9 ∧ ncyc c t * 10 ^ 9 < t * c.fClkHz + 10 ^ 9 := by
  unfold ncyc
  generalize t * c.fClkHz = x
  omega

/-- Only a positive target at a positive clock takes a cycle. -/
theorem pos_of_ncyc_pos {c : Config} {t : Nat} (h : 0 < ncyc c t) : 0 < t ∧ 0 < c.fClkHz := by
  obtain ⟨-, hlt⟩ := ncyc_roundsUp c t
  have hprod : 0 < t * c.fClkHz := by omega
  exact ⟨Nat.pos_of_mul_pos_right hprod, Nat.pos_of_mul_pos_left hprod⟩

theorem timingOk_iff (c : Config) : timingOk c = true ↔
    1 ≤ n0h c ∧ n0h c * 10 ^ 9 ≤ c.t0hMaxNs * c.fClkHz ∧ n0h c < n1h c ∧ n1h c < nbit c ∧ 1 ≤ nreset c := by
  simp [timingOk, and_assoc]

/-- The timing checks V1 to V5 hold for no clock and no target of 0. -/
theorem targetsOk_of_timingOk {c : Config} (h : timingOk c = true) : targetsOk c = true := by
  obtain ⟨h0, hmax, h01, h1b, hr⟩ := (timingOk_iff c).1 h
  obtain ⟨ht0, hclk⟩ := pos_of_ncyc_pos (c := c) (t := c.t0hNs) h0
  obtain ⟨ht1, -⟩ := pos_of_ncyc_pos (c := c) (t := c.t1hNs) (Nat.zero_lt_of_lt h01)
  obtain ⟨htb, -⟩ := pos_of_ncyc_pos (c := c) (t := c.tbitNs) (Nat.zero_lt_of_lt h1b)
  obtain ⟨htr, -⟩ := pos_of_ncyc_pos (c := c) (t := c.tresetNs) hr
  have htm : 0 < c.t0hMaxNs := Nat.pos_of_mul_pos_right (Nat.lt_of_lt_of_le (by omega) hmax)
  simp [targetsOk, hclk, ht0, htm, ht1, htb, htr]

/-- Two bytes differ in bit `i` alone when their exclusive or is that bit. -/
theorem xor_eq_shiftLeft_one_iff (x y : Byte) (i : Nat) :
    x ^^^ y = 1#8 <<< i ↔ ∀ j < 8, x.getLsbD j ≠ y.getLsbD j ↔ j = i := by
  have hbit : ∀ j < 8,
      (x ^^^ y).getLsbD j = (1#8 <<< i).getLsbD j ↔ (x.getLsbD j ≠ y.getLsbD j ↔ j = i) := fun j hj => by
    rw [← BitVec.twoPow_eq, BitVec.getLsbD_xor, BitVec.getLsbD_twoPow, Bool.eq_iff_iff, Bool.xor_iff_ne,
      Bool.and_eq_true, decide_eq_true_eq, decide_eq_true_eq]
    exact iff_congr Iff.rfl (by omega)
  constructor
  · intro h j hj
    exact (hbit j hj).1 (by rw [h])
  · intro h
    exact BitVec.eq_of_getLsbD_eq fun j hj => (hbit j hj).2 (h j hj)

theorem portOk_iff (c : Config) : portOk c = true ↔
    ∃ i < 8, c.portHi.getLsbD i = true ∧ ∀ j < 8, c.portHi.getLsbD j ≠ c.portLo.getLsbD j ↔ j = i := by
  simp only [portOk, List.any_eq_true, List.mem_range, Bool.and_eq_true, beq_iff_eq, xor_eq_shiftLeft_one_iff]
  exact exists_congr fun i => and_congr_right fun _ => and_comm

theorem sizeOk_iff (c : Config) : sizeOk c = true ↔
    (1 ≤ c.pixels ∧ c.pixels ≤ 65535) ∧ (1 ≤ c.segCap ∧ c.segCap ≤ 255) ∧ (1 ≤ c.palCap ∧ c.palCap ≤ 255) ∧
      (1 ≤ c.spbCap ∧ c.spbCap ≤ 2560) ∧ (1 ≤ c.rainCap ∧ c.rainCap ≤ 255) := by
  simp [sizeOk, and_assoc]

/-- The positive targets are implied by the other checks. -/
theorem valid_iff (c : Config) : c.Valid ↔
    timingOk c = true ∧ c.wiring ≤ 5 ∧ portOk c = true ∧ sizeOk c = true := by
  simp only [Config.Valid, Config.wellFormed, wiringOk, Bool.and_eq_true, decide_eq_true_eq]
  constructor
  · rintro ⟨⟨⟨⟨-, ht⟩, hw⟩, hp⟩, hs⟩
    exact ⟨ht, hw, hp, hs⟩
  · rintro ⟨ht, hw, hp, hs⟩
    exact ⟨⟨⟨⟨targetsOk_of_timingOk ht, ht⟩, hw⟩, hp⟩, hs⟩

/-- Settles O19: the rounding, and each check by its bounds. -/
theorem buildTimeChecks : Obligations.BuildTimeChecks := by
  unfold Obligations.BuildTimeChecks
  refine ⟨ncyc_roundsUp, fun c => ⟨rfl, rfl, rfl, rfl⟩, fun c => ?_⟩
  rw [valid_iff, timingOk_iff, portOk_iff, sizeOk_iff]

/-! ## One encoder step (R128 to R133) -/

/-- What follows a bit, with its next bit read from the frame (R131). -/
theorem afterBit_eq (c : Config) (x : EncPhase) (n : Nat) (F : List Byte) (i : Nat) (j : Fin 8) :
    afterBit c ⟨x, n, F, i, j⟩ =
      if h : 0 < j.val then ⟨.high, nh c ((F.getD i 0).getLsbD (j.val - 1)), F, i, ⟨j.val - 1, by omega⟩⟩
      else if i + 1 < F.length then ⟨.high, nh c ((F.getD (i + 1) 0).getLsbD 7), F, i + 1, 7⟩
      else ⟨.latch, nreset c, F, i, j⟩ := by
  by_cases h : 0 < j.val
  · rw [dif_pos h, afterBit_bit c F i j (by omega)]
    rfl
  · obtain rfl : j = 0 := Fin.ext (by simpa using h)
    rw [dif_neg h, afterBit_byte]
    rfl

/-- Settles O20: `Emit` and the outputs by definition, the step by the encoder's state, the low cycle by `afterBit_eq`. -/
theorem encoderStepsAsTheTablesSay : Obligations.EncoderStepsAsTheTablesSay := by
  unfold Obligations.EncoderStepsAsTheTablesSay
  refine ⟨fun F s _ => ⟨emit F s, rfl, rfl, ?_, rfl⟩, fun c e => ⟨?_, rfl, rfl⟩, fun c e _ => ?_⟩
  · rw [emit_frameCount, BitVec.toNat_add]
    rfl
  · simp [portOut, dout]
  · obtain ⟨est, n, F, i, j⟩ := e
    cases est with
    | idle => simp [dout, encStep]
    | high => simp [dout, encStep, currentBit]
    | low => simp [dout, encStep, afterBit_eq]
    | latch => simp [dout, encStep, encIdle]

/-! ## Where the encoder stands in a frame (R121 to R124, R131, R133) -/

/-- A step of the frame's bits has a byte, a bit and a cycle. -/
theorem exists_bit_cycle {n k N : Nat} (h : n < 8 * k * N) : ∃ i < k, ∃ j < 8, ∃ q < N, n = (8 * i + j) * N + q := by
  have hN : 0 < N := Nat.pos_of_mul_pos_left (Nat.zero_lt_of_lt h)
  have hk : n / N < 8 * k := Nat.div_lt_of_lt_mul (by rwa [Nat.mul_comm])
  refine ⟨n / N / 8, by omega, n / N % 8, by omega, n % N, Nat.mod_lt n hN, ?_⟩
  rw [Nat.div_add_mod, Nat.div_add_mod']

section
variable {c : Config} (hv : c.Valid) {F : List Byte}
include hv

/-- Bit `j` of byte `i`, 0 the first, is entered after the bits before it (R121, R122). -/
theorem encRun_toBit {i j : Nat} (hi : i < F.length) (hj : j < 8) :
    encRun c ((8 * i + j) * nbit c) (startFrame c F) = atBit c F i ⟨7 - j, by omega⟩ := by
  obtain ⟨hbits, -⟩ := encRun_byte hv F i
  rw [Nat.add_mul, encRun_add, encRun_bytes hv F hi, hbits j (by omega)]

/-- In cycle `q` of a bit the encoder is in HIGH for the bit's high cycles, then in LOW (R123). -/
theorem encRun_inBit_est {i j q : Nat} (hi : i < F.length) (hj : j < 8) (hq : q < nbit c) :
    (encRun c ((8 * i + j) * nbit c + q) (startFrame c F)).est =
      if q < nh c (F[i].getLsbD (7 - j)) then .high else .low := by
  obtain ⟨-, -, hhigh, hlow⟩ := encRun_bit hv ⟨.high, 0, F, i, ⟨7 - j, by omega⟩⟩
  have hbit : currentBit ⟨.high, 0, F, i, ⟨7 - j, by omega⟩⟩ = F[i].getLsbD (7 - j) := by
    simp [currentBit, hi]
  rw [hbit] at hhigh hlow
  rw [encRun_add, encRun_toBit hv hi hj]
  split
  · exact hhigh q ‹_›
  · exact hlow q hq (Nat.le_of_not_lt ‹_›)

/-- After the frame's bits the encoder latches for NRESET cycles with the line low, and ends idle (R131, R133). -/
theorem encRun_latchOfFrame (hF : F ≠ []) :
    encRun c (nreset c) (encRun c (8 * F.length * nbit c) (startFrame c F)) = encIdle ∧
      encTrace c (nreset c) (encRun c (8 * F.length * nbit c) (startFrame c F)) = List.replicate (nreset c) false ∧
      ∀ q < nreset c, (encRun c q (encRun c (8 * F.length * nbit c) (startFrame c F))).est = .latch := by
  obtain ⟨-, -, -, hr⟩ := valid_timing hv
  rw [encRun_frame hv hF]
  exact encRun_latch (e := ⟨.latch, nreset c, F, F.length - 1, 0⟩) rfl hr

/-- In cycle `q` of the latch interval the encoder is in LATCH (R133). -/
theorem encRun_inLatch_est (hF : F ≠ []) {q : Nat} (hq : q < nreset c) :
    (encRun c (8 * F.length * nbit c + q) (startFrame c F)).est = .latch := by
  obtain ⟨-, -, hlatch⟩ := encRun_latchOfFrame hv hF
  rw [encRun_add, hlatch q hq]

/-- The latch interval ends in IDLE, with the register empty (R133). -/
theorem encRun_toIdle (hF : F ≠ []) : encRun c (8 * F.length * nbit c + nreset c) (startFrame c F) = encIdle := by
  obtain ⟨hidle, -, -⟩ := encRun_latchOfFrame hv hF
  rw [encRun_add, hidle]

/-- The three parts of a frame's time: its bits, its latch interval, and rest (R134, R135). -/
theorem encRun_frame_cases (hF : F ≠ []) (n : Nat) :
    (n < 8 * F.length * nbit c ∧ irqMask (encRun c n (startFrame c F)) = true) ∨
      (8 * F.length * nbit c ≤ n ∧ n < 8 * F.length * nbit c + nreset c ∧
        (encRun c n (startFrame c F)).est = .latch) ∨
      (8 * F.length * nbit c + nreset c ≤ n ∧ encRun c n (startFrame c F) = encIdle) := by
  by_cases hbits : n < 8 * F.length * nbit c
  · obtain ⟨i, hi, j, hj, q, hq, rfl⟩ := exists_bit_cycle hbits
    refine .inl ⟨hbits, ?_⟩
    rw [irqMask, encRun_inBit_est hv hi hj hq]
    split <;> rfl
  by_cases hlatch : n < 8 * F.length * nbit c + nreset c
  · obtain ⟨q, rfl⟩ := Nat.exists_eq_add_of_le (Nat.le_of_not_lt hbits)
    exact .inr (.inl ⟨Nat.le_of_not_lt hbits, hlatch, encRun_inLatch_est hv hF (by omega)⟩)
  · obtain ⟨m, rfl⟩ := Nat.exists_eq_add_of_le (Nat.le_of_not_lt hlatch)
    refine .inr (.inr ⟨Nat.le_of_not_lt hlatch, ?_⟩)
    rw [encRun_add, encRun_toIdle hv hF, encRun_idle rfl]

/-- IRQ_MASK_O is 1 for the bits of the frame (R135). -/
theorem irqMask_frame (hF : F ≠ []) (n : Nat) :
    irqMask (encRun c n (startFrame c F)) = decide (n < 8 * F.length * nbit c) := by
  obtain ⟨hn, hmask⟩ | ⟨hn, -, hest⟩ | ⟨hn, hidle⟩ := encRun_frame_cases hv hF n
  · rw [hmask, decide_eq_true hn]
  · rw [irqMask, hest, decide_eq_false (by omega)]
    rfl
  · rw [hidle, decide_eq_false (by omega)]
    rfl

/-- BUSY is 1 for the bits of the frame and its latch interval (R134). -/
theorem busy_frame (hF : F ≠ []) (n : Nat) :
    busy (encRun c n (startFrame c F)) = decide (n < 8 * F.length * nbit c + nreset c) := by
  obtain ⟨hn, hmask⟩ | ⟨-, hn, hest⟩ | ⟨hn, hidle⟩ := encRun_frame_cases hv hF n
  · rw [decide_eq_true (by omega), busy]
    cases hest : (encRun c n (startFrame c F)).est with
    | idle => simp [irqMask, hest] at hmask
    | high | low | latch => rfl
  · rw [busy, hest, decide_eq_true hn]
    rfl
  · rw [hidle, decide_eq_false (by omega)]
    rfl

/-- The line carries the symbols of whole bytes in order (R124). -/
theorem encTrace_bytes {i : Nat} (hi : i ≤ F.length) :
    encTrace c (8 * i * nbit c) (startFrame c F) = (F.take i).flatMap fun x => (bitsOut x).flatMap (symbol c) := by
  induction i with
  | zero => simp [encTrace]
  | succ i ih =>
    obtain ⟨-, -, hbyte⟩ := encRun_byte hv F i
    rw [show 8 * (i + 1) * nbit c = 8 * i * nbit c + 8 * nbit c by ring, encTrace_add, ih (by omega),
      encRun_bytes hv F hi, hbyte, List.take_succ_eq_append_getElem hi, List.flatMap_append]
    simp [List.getElem?_eq_getElem hi]

/-- The line carries the waveform of the frame from its first bit to the end of its latch interval (R132). -/
theorem encTrace_frame (hF : F ≠ []) :
    encTrace c (8 * F.length * nbit c + nreset c) (startFrame c F) = wave c F := by
  obtain ⟨-, hline, -⟩ := encRun_latchOfFrame hv hF
  rw [encTrace_add, encTrace_bytes hv le_rfl, List.take_length, hline, wave]

end

/-- Settles O21: `encTrace_frame`, then the line of the idle encoder. -/
theorem waveformOfAFrameIsExact : Obligations.WaveformOfAFrameIsExact := by
  unfold Obligations.WaveformOfAFrameIsExact
  intro c F m hv hF
  have hlen : (wave c F).length = 8 * F.length * nbit c + nreset c := by
    rw [← encTrace_frame hv hF, encTrace_length]
  refine ⟨hlen, ?_⟩
  rw [hlen, encTrace_add, encTrace_frame hv hF, encRun_toIdle hv hF, encTrace_idle rfl]

/-- Settles O22: DOUT is 1 exactly in HIGH, and `encRun_inBit_est`. -/
theorem everyBitHasItsPulse : Obligations.EveryBitHasItsPulse := by
  unfold Obligations.EveryBitHasItsPulse
  intro c F hv i hi j hj q hq
  rw [dout, encRun_inBit_est hv hi hj hq]
  split
  · rw [decide_eq_true ‹_›]
    rfl
  · rw [decide_eq_false ‹_›]
    rfl

/-- Settles O23: the parts of a frame's time, for a frame of 3P bytes. -/
theorem busyAndMaskLastAsLongAsTheFrame : Obligations.BusyAndMaskLastAsLongAsTheFrame := by
  unfold Obligations.BusyAndMaskLastAsLongAsTheFrame
  intro c F hv hlen
  obtain ⟨⟨hpixels, -⟩, -⟩ := valid_sizes hv
  have hF : F ≠ [] := List.length_pos_iff.1 (by omega)
  rw [← hlen]
  exact ⟨busy_frame hv hF, irqMask_frame hv hF, encRun_toIdle hv hF⟩

/-! ## A frame in the whole machine (R127, R136, 20_memory.md R71) -/

/-- `t` is `s` but for the environment, the error bits of STATUS and the encoder. -/
def SameButErrorsAndEncoder (s t : State) : Prop :=
  t = { s with env := t.env, enc := t.enc, sticky := t.sticky, lastErr := t.lastErr }

/-- A write while BUSY = 1 reaches STATUS or nothing, and leaves the encoder (20_memory.md R71). -/
theorem busWrite_whileBusy {s t : State} {a : Half} {v : Word} (hb : busy s.enc = true) (h : busWrite a v s = .next t) :
    SameButErrorsAndEncoder s t ∧ t.enc = s.enc := by
  by_cases ha : a.toNat = 4
  · obtain rfl : a = 0x004 := BitVec.eq_of_toNat_eq ha
    rw [busWrite_status] at h
    cases h
    exact ⟨rfl, rfl⟩
  · rw [busWrite_busy hb ha] at h
    cases h
    exact ⟨rfl, rfl⟩

/-- With nothing pending a step is an encoder cycle (log 3). -/
theorem step_nil {s : State} (hv : s.cfg.Valid) (hp : s.env.pending = []) : step s = .next (encoderCycle s) := by
  rw [step, advance, if_pos hv, hp]

/-- A step that goes through is one of a configuration that is built. -/
theorem valid_of_step {s t : State} (h : step s = .next t) : s.cfg.Valid := by
  by_contra hv
  rw [step, advance, if_neg hv] at h
  cases h

/-- While BUSY = 1 an event other than a reset changes errors, environment and encoder only, and the encoder by its cycle. -/
theorem step_event_whileBusy {s t : State} (hb : busy s.enc = true) {e : Event} {rest : List Event}
    (hp : s.env.pending = e :: rest) (he : e ≠ .reset) (h : hostEvent e (withPending rest s) = .next t) :
    SameButErrorsAndEncoder s t ∧ t.enc = if isCycle s then encStep s.cfg s.enc else s.enc := by
  rw [isCycle, hp]
  cases e with
  | read n a =>
    simp only [hostEvent] at h
    split at h <;> cases h
    exact ⟨rfl, rfl⟩
  | write n a v =>
    simp only [hostEvent] at h
    split at h
    · exact busWrite_whileBusy (s := withPending rest s) hb h
    · cases h
  | wait =>
    rw [hostEvent, withPending_enc, if_pos hb] at h
    cases h
    exact ⟨rfl, (if_pos hb).symm⟩
  | cycle | driveTick _ | driveGate _ | giveRand _ =>
    cases h
    exact ⟨rfl, rfl⟩
  | reset => exact absurd rfl he

/-- Settles O25: with nothing pending the step is a cycle, otherwise `step_event_whileBusy`. -/
theorem aFrameRunsToItsEnd : Obligations.AFrameRunsToItsEnd := by
  unfold Obligations.AFrameRunsToItsEnd
  refine ⟨fun s t h hb hreset => ?_, fun s hv => ⟨step_nil hv, fun rest => step_event hv⟩⟩
  have hv := valid_of_step h
  cases hp : s.env.pending with
  | nil =>
    rw [step_nil hv hp] at h
    cases h
    rw [isCycle, hp]
    exact ⟨rfl, rfl⟩
  | cons e rest =>
    rw [step_event hv hp] at h
    exact step_event_whileBusy hb hp (fun he => hreset rest (he ▸ hp)) h

end Sys2Proof.Machine

/-! # The colours, the frames and the pipeline commands (41_pipeline.md) -/

namespace Sys2Proof.Machine

/-! ## Scale, colour words and frames (R161 to R168) -/

/-- Settles O26: `Scale` in integers is a division that rounds half up, and 255 is odd, so there is no tie. -/
theorem scaleRoundsToNearest : Obligations.ScaleRoundsToNearest := by
  unfold Obligations.ScaleRoundsToNearest
  refine ⟨fun x b => ?_, fun _ _ => rfl⟩
  rw [scale_toNat]
  omega

theorem scale_mono {x x' b b' : Byte} (hx : x.toNat ≤ x'.toNat) (hb : b.toNat ≤ b'.toNat) :
    (scale x b).toNat ≤ (scale x' b').toNat := by
  rw [scale_toNat, scale_toNat]
  exact Nat.div_le_div_right (Nat.add_le_add_right (Nat.mul_le_mul hx hb) 127)

theorem scale_full (x : Byte) : scale x 255 = x := by
  apply BitVec.eq_of_toNat_eq
  rw [scale_toNat, show (255 : Byte).toNat = 255 from rfl]
  omega

theorem scale_zero (x : Byte) : scale x 0 = 0 := by
  simp [scale]

theorem zero_scale (b : Byte) : scale 0 b = 0 := by
  simp [scale]

/-- Settles O27: full and no brightness, and monotony; `Scale` never exceeds what full brightness gives. -/
theorem lawsOfScale : Obligations.LawsOfScale := by
  unfold Obligations.LawsOfScale
  refine ⟨fun x => ⟨scale_full x, scale_zero x⟩, zero_scale, fun x b b' hb => scale_mono (le_refl _) hb,
    fun x x' b hx => scale_mono hx (le_refl _), fun x b => ?_⟩
  have hfull : (scale x b).toNat ≤ (scale x 255).toNat := scale_mono (le_refl _) (Nat.le_of_lt_succ b.isLt)
  rwa [scale_full] at hfull

/-- Settles O28: the wiring orders by evaluation, the frame by `frameOf_spec`. -/
theorem framesAreInWiringOrder : Obligations.FramesAreInWiringOrder := by
  unfold Obligations.FramesAreInWiringOrder
  exact ⟨fun c => ⟨rfl, rfl, rfl, rfl, rfl, rfl⟩, fun c px _ => frameOf_spec c px⟩

/-- The word of a scaled colour word: each channel scaled, bits 31:24 zero (R164). -/
theorem scaledWord_toNat (v : Word) (b : Byte) :
    (colourWord (applyBrightness (col v) b)).toNat =
      2 ^ 16 * ((v.toNat / 2 ^ 16 % 2 ^ 8 * b.toNat + 127) / 255)
        + 2 ^ 8 * ((v.toNat / 2 ^ 8 % 2 ^ 8 * b.toNat + 127) / 255)
        + (v.toNat % 2 ^ 8 * b.toNat + 127) / 255 := by
  simp only [colourWord_toNat, applyBrightness, col, scale_toNat, toNat_field, pow_zero, Nat.div_one]

/-- What a write of a colour word stores, as a number (R161). -/
theorem storedColour_toNat (c : Config) (v : Word) :
    (storedColour c v).toNat =
      if c.rgbaInput then
        2 ^ 16 * ((v.toNat / 2 ^ 16 % 2 ^ 8 * (v.toNat / 2 ^ 24) + 127) / 255)
          + 2 ^ 8 * ((v.toNat / 2 ^ 8 % 2 ^ 8 * (v.toNat / 2 ^ 24) + 127) / 255)
          + (v.toNat % 2 ^ 8 * (v.toNat / 2 ^ 24) + 127) / 255
      else v.toNat := by
  have halpha : (v.extractLsb' 24 8).toNat = v.toNat / 2 ^ 24 := by
    rw [toNat_field]
    omega
  unfold storedColour
  split
  · rw [scaledWord_toNat, halpha]
  · rfl

/-- A place that holds a colour word reads back what a write stores there (R161). -/
theorem readTarget_writeTarget_colour {s : State} (hm : s.mem.wf) {t : Target}
    (ht : t = .reg .arg0 ∨ (∃ k, t = .segColor k) ∨ ∃ k, t = .pal k) (v : Word) :
    readTarget (writeTarget t v s) t = storedColour s.cfg v := by
  obtain rfl | ⟨k, rfl⟩ | ⟨k, rfl⟩ := ht
  · rfl
  · rw [writeTarget, readTarget, segColor_setSegColor hm, if_pos rfl]
  · rw [writeTarget, readTarget, pal_setPal hm, if_pos rfl]

/-- Settles O14: the write is that of the place, which reads back the stored colour. -/
theorem colourWordsAreStored : Obligations.ColourWordsAreStored := by
  unfold Obligations.ColourWordsAreStored
  intro s t v hv hm hb hmap ht
  have hat := targetAt_targetAddr hv hmap
  have hcmd : t ≠ .reg .cmd := by
    rintro rfl
    simp at ht
  have hwrite := busWrite_of_target_ne_cmd hb (hat.symm ▸ hcmd) v
  rw [hat] at hwrite
  refine ⟨_, hwrite, ?_⟩
  rw [busRead, (writeTarget_frame t v s).1, hat, readTarget_writeTarget_colour hm ht, storedColour_toNat]

/-- The frame of a list of P pixels shows at each position the pixel of the list. -/
theorem showPixels_emits_getD (s : State) {px : List RGB} (hl : px.length = s.cfg.pixels) :
    Emits s (showPixels px s) fun i => px.getD i black :=
  showPixels_emits s px _ hl fun i h => by simp [List.getD_eq_getElem?_getD, h]

/-! ## NOP, SCALE, RENDER_UNIFORM, RENDER_SPARSE (R176 to R178, R180) -/

/-- Settles O29: the word 0 is NOP's, so its acceptance leaves the acceptance steps and the sampled inputs. -/
theorem nopDoesNothing : Obligations.NopDoesNothing := by
  unfold Obligations.NopDoesNothing
  refine ⟨fun _ => rfl, fun s hb => ⟨sampleInputs (acceptWord 0 s), ?_, rfl, rfl, rfl⟩⟩
  rw [busWrite_cmd hb, acceptCommand_legal (i := .nop) rfl]
  rfl

/-- Settles O30: RESULT by `scaledWord_toNat`, BR being the low byte of ARG1. -/
theorem scaleWritesResult : Obligations.ScaleWritesResult := by
  unfold Obligations.ScaleWritesResult
  refine fun s => ⟨_, rfl, ?_, rfl⟩
  have hbr : (opBr s).toNat = s.arg1.toNat % 2 ^ 8 := by
    rw [opBr, toNat_field, pow_zero, Nat.div_one]
  rw [setResult_result, opColour, scaledWord_toNat, hbr]

/-- Settles O31: P copies of the colour are shown. -/
theorem renderUniformSendsOneColour : Obligations.RenderUniformSendsOneColour := by
  unfold Obligations.RenderUniformSendsOneColour
  exact fun s _ => ⟨_, rfl, showPixels_emits s _ _ (List.length_replicate ..) fun i h => List.getElem_replicate h⟩

/-- Settles O33: the pixels of a sorted buffer by `sparsePixels_spec`. -/
theorem renderSparseShowsEntriesOverBlack : Obligations.RenderSparseShowsEntriesOverBlack := by
  unfold Obligations.RenderSparseShowsEntriesOverBlack
  exact fun s _ hs => ⟨_, _, rfl, showPixels_emits_getD s (sparsePixels_length _ _), sparsePixels_spec hs⟩

/-! ## RENDER_SEGMENTS (R170, R179) -/

theorem exec_renderSegments_range {s : State} (h : s.cfg.segCap < s.segCount.toNat) :
    exec .renderSegments s = .next (raiseErr .range s) := if_pos h

theorem exec_renderSegments_segsum {s : State} (hc : s.segCount.toNat ≤ s.cfg.segCap)
    (hs : segLenSum s.mem s.segCount.toNat ≠ s.cfg.pixels) :
    exec .renderSegments s = .next (raiseErr .segsum s) := (if_neg (not_lt.2 hc)).trans (if_pos hs)

theorem exec_renderSegments_show {s : State} (hc : s.segCount.toNat ≤ s.cfg.segCap)
    (hs : segLenSum s.mem s.segCount.toNat = s.cfg.pixels) :
    exec .renderSegments s = .next (showPixels (segPixels (segments s.mem s.segCount.toNat)) s) :=
  (if_neg (not_lt.2 hc)).trans (if_neg (not_not.2 hs))

/-- The segments have as many pixels as their lengths sum to. -/
theorem segPixels_segments_length (m : Memory) (n : Nat) : (segPixels (segments m n)).length = segLenSum m n := by
  rw [segPixels_length, segments, List.map_map]
  rfl

/-- Pixel `q` of segment `k` has the segment's colour (R170). -/
theorem segPixels_segments_getD (m : Memory) {n k q : Nat} (hk : k < n) (hq : q < (segLen m k).toNat) :
    (segPixels (segments m n)).getD (segLenSum m k + q) black = col (segColor m k) := by
  have hlen : k < (segments m n).length := by simpa [segments] using hk
  have hget : (segments m n)[k] = ((segLen m k).toNat, col (segColor m k)) := by simp [segments]
  have hbefore : (((segments m n).take k).map Prod.fst).sum = segLenSum m k := by
    rw [segments, ← List.map_take, List.take_range, Nat.min_eq_left hk.le, List.map_map]
    rfl
  have hpixel := segPixels_get hlen (q := q) (by rwa [hget])
  rw [hbefore, hget] at hpixel
  simp [List.getD_eq_getElem?_getD, hpixel]

/-- Settles O32: the three outcomes of RENDER_SEGMENTS, each pixel by `segPixels_segments_getD`. -/
theorem renderSegmentsCoversTheStrip : Obligations.RenderSegmentsCoversTheStrip := by
  unfold Obligations.RenderSegmentsCoversTheStrip
  refine fun s _ => ⟨exec_renderSegments_range, exec_renderSegments_segsum, fun hc hs => ?_⟩
  exact ⟨_, _, exec_renderSegments_show hc hs,
    showPixels_emits_getD s ((segPixels_segments_length s.mem s.segCount.toNat).trans hs),
    fun k hk q hq => segPixels_segments_getD s.mem hk hq⟩

/-! ## SEG_BUILD_EVEN (R169, R181, R187) -/

theorem paletteBad_iff (s : State) (n : Nat) :
    paletteBad s n = true ↔ s.palLen.toNat > s.cfg.palCap ∨ n = 0 ∨ n > s.palLen.toNat ∨ n > s.cfg.segCap := by
  simp [paletteBad, or_assoc]

theorem exec_segBuildEven_bad {s : State} (h : paletteBad s (opN s) = true) :
    exec .segBuildEven s = .next (raiseErr .palette s) := if_pos h

/-- The state SEG_BUILD_EVEN leaves when the palette is usable (R181). -/
def builtEven (s : State) : State :=
  { s with
    mem := buildSegments (opN s) (opRot s) s.cfg.pixels (opN s) s.mem
    segCount := BitVec.ofNat 16 (opN s) }

theorem exec_segBuildEven_good {s : State} (h : paletteBad s (opN s) = false) :
    exec .segBuildEven s = .next (builtEven s) := if_neg (by simp [h])

theorem opN_lt (s : State) : opN s < 256 := (s.arg2.extractLsb' 0 8).isLt

theorem builtEven_segCount (s : State) : (builtEven s).segCount.toNat = opN s := by
  have := opN_lt s
  show (BitVec.ofNat 16 (opN s)).toNat = opN s
  rw [BitVec.toNat_ofNat]
  omega

/-- The segment lengths SEG_BUILD_EVEN leaves fit in 16 bits: they are the even lengths (R169). -/
theorem builtEven_segLen {s : State} (hv : s.cfg.Valid) (hm : s.mem.wf) {k : Nat} (hk : k < opN s) :
    (segLen (builtEven s).mem k).toNat = evenLen k (opN s) s.cfg.pixels := by
  obtain ⟨⟨-, hp⟩, -⟩ := valid_sizes hv
  obtain ⟨-, hlen, -⟩ := buildSegments_spec hm (opN s) (opRot s) s.cfg.pixels (Nat.le_of_lt_succ (opN_lt s))
  have hfit : evenLen k (opN s) s.cfg.pixels ≤ s.cfg.pixels := by
    unfold evenLen
    split
    · exact Nat.sub_le _ _
    · exact Nat.div_le_self _ _
  rw [builtEven, hlen, if_pos hk, BitVec.toNat_ofNat]
  omega

/-- The even length with the last segment named by its index (R169). -/
theorem evenLen_eq {k n : Nat} (hk : k < n) (p : Nat) :
    evenLen k n p = if k = n - 1 then p - (n - 1) * (p / n) else p / n :=
  if_congr (by omega) rfl rfl

/-- Settles O34: the palette check, and the loop by `buildSegments_spec` and `buildSegments_readByte`. -/
theorem segBuildEvenDividesEvenly : Obligations.SegBuildEvenDividesEvenly := by
  unfold Obligations.SegBuildEvenDividesEvenly
  intro s hv hm n p
  rw [← paletteBad_iff]
  refine ⟨exec_segBuildEven_bad, fun hgood => ?_⟩
  have hn : n ≤ 255 := Nat.le_of_lt_succ (opN_lt s)
  obtain ⟨hwf, hlen, hcolor, hpal⟩ := buildSegments_spec hm n (opRot s) p hn
  refine ⟨builtEven s, exec_segBuildEven_good (by simpa using hgood), builtEven_segCount s, hwf, fun k hk => ?_,
    fun k hk => ?_, fun k hk => ⟨?_, ?_⟩, hpal, fun a ha => buildSegments_readByte hm n (opRot s) p hn ha, rfl⟩
  · rw [builtEven_segLen hv hm hk, evenLen_eq hk]
  · exact (hcolor k).trans (if_pos hk)
  · exact (hlen k).trans (if_neg (not_lt.2 hk))
  · exact (hcolor k).trans (if_neg (not_lt.2 hk))

/-- Settles O35: the even lengths sum to P (`evenLen_sum`), so a later RENDER_SEGMENTS that sees them shows a frame. -/
theorem builtSegmentsAlwaysRender : Obligations.BuiltSegmentsAlwaysRender := by
  unfold Obligations.BuiltSegmentsAlwaysRender
  intro s t hv hm h hgood
  cases (exec_segBuildEven_good hgood).symm.trans h
  have hbad : ¬ paletteBad s (opN s) = true := by simp [hgood]
  rw [paletteBad_iff] at hbad
  have hlen : ∀ k < opN s, (segLen (builtEven s).mem k).toNat = evenLen k (opN s) s.cfg.pixels := fun k hk =>
    builtEven_segLen hv hm hk
  have hsum : segLenSum (builtEven s).mem (opN s) = s.cfg.pixels := calc
    segLenSum (builtEven s).mem (opN s) = ((List.range (opN s)).map fun k => evenLen k (opN s) s.cfg.pixels).sum :=
      congrArg List.sum (List.map_congr_left fun k hk => hlen k (List.mem_range.1 hk))
    _ = s.cfg.pixels := evenLen_sum (by omega)
  rw [builtEven_segCount]
  refine ⟨hsum, fun k hk => by rw [hlen k hk, evenLen_eq hk], fun v hcfg hcount hsame => ?_⟩
  have hn : v.segCount.toNat = opN s := by rw [hcount, builtEven_segCount]
  have hpixels : segLenSum v.mem v.segCount.toNat = v.cfg.pixels := calc
    segLenSum v.mem v.segCount.toNat = segLenSum v.mem (opN s) := by rw [hn]
    _ = segLenSum (builtEven s).mem (opN s) :=
      congrArg List.sum (List.map_congr_left fun k hk => congrArg BitVec.toNat (hsame k (List.mem_range.1 hk)))
    _ = s.cfg.pixels := hsum
    _ = v.cfg.pixels := by rw [hcfg]; rfl
  have hcap : v.segCount.toNat ≤ v.cfg.segCap := by
    rw [hn, hcfg]
    show opN s ≤ s.cfg.segCap
    omega
  exact ⟨_, _, exec_renderSegments_show hcap hpixels,
    showPixels_emits_getD v ((segPixels_segments_length _ _).trans hpixels)⟩

/-! ## The sparse buffer (R171 to R175, R182 to R186) -/

theorem dec_toNat (x : Byte) : (dec x).toNat = x.toNat - 1 := by
  unfold dec
  split
  · rename_i h
    rw [h]
    rfl
  · rename_i h
    have hx : x.toNat ≠ 0 := fun h0 => h (byte_eq_zero.2 h0)
    rw [BitVec.toNat_sub_of_le (by rw [BitVec.le_def]; show 1 ≤ x.toNat; omega)]
    rfl

/-- Purging removes as many entries as are black (R175). -/
theorem removed_eq (S : List Entry) : removed S = S.countP fun e => e.color = black := by
  have hsplit := List.length_eq_countP_add_countP (fun e : Entry => decide (e.color = black)) (l := S)
  have hkept : (purge S).length = S.countP fun e => ¬ decide (e.color = black) = true := by
    rw [purge, List.countP_eq_length_filter]
    simp
  rw [removed, hkept]
  omega

/-- Settles O36: each entry of the decayed buffer by `dec_toNat`, the number removed by `removed_eq`. -/
theorem sparseClearDecayPurge : Obligations.SparseClearDecayPurge := by
  unfold Obligations.SparseClearDecayPurge
  refine fun s => ⟨rfl, ⟨_, rfl, rfl, List.length_map .., fun i e f he hf => ?_⟩,
    ⟨_, rfl, rfl, rfl, congrArg (BitVec.ofNat 32) (removed_eq s.spb)⟩⟩
  rw [decay, List.getElem?_map, he] at hf
  cases hf
  exact ⟨rfl, dec_toNat _, dec_toNat _, dec_toNat _⟩

section
variable {S : List Entry} {p : Half} {c : RGB} {cap : Nat}

theorem put_updated (h : occupied S p = true) (cap : Nat) :
    put S p c cap = (S.map fun e => if e.pos = p then ⟨e.pos, c⟩ else e, .updated) := if_pos h

theorem put_inserted (h : occupied S p = false) (hl : S.length < cap) :
    put S p c cap = (insertEntry ⟨p, c⟩ S, .inserted) := by
  rw [put, h, if_neg Bool.false_ne_true, if_pos hl]

theorem put_dropped (h : occupied S p = false) (hl : cap ≤ S.length) : put S p c cap = (S, .dropped) := by
  rw [put, h, if_neg Bool.false_ne_true, if_neg (not_lt.2 hl)]

/-- An entry that is not dropped is in the buffer afterwards (R173). -/
theorem mem_put_self (h : occupied S p = true ∨ S.length < cap) : ⟨p, c⟩ ∈ (put S p c cap).1 := by
  obtain ⟨ho, hput⟩ | ⟨-, -, hput⟩ | ⟨ho, hl, -⟩ := put_cases S p c cap
  · obtain ⟨e, he, hp⟩ := occupied_iff.1 ho
    rw [hput]
    exact List.mem_map.2 ⟨e, he, by rw [if_pos hp, hp]⟩
  · rw [hput]
    exact mem_insertEntry.2 (.inl rfl)
  · obtain h | h := h
    · rw [ho] at h
      cases h
    · omega

/-- Every other position keeps its entry (R173). -/
theorem mem_put_other {e : Entry} (he : e.pos ≠ p) : e ∈ (put S p c cap).1 ↔ e ∈ S := by
  obtain ⟨-, hput⟩ | ⟨-, -, hput⟩ | ⟨-, -, hput⟩ := put_cases S p c cap
  · rw [hput, List.mem_map]
    constructor
    · rintro ⟨x, hx, rfl⟩
      by_cases hxp : x.pos = p
      · rw [if_pos hxp] at he
        exact absurd hxp he
      · rwa [if_neg hxp]
    · exact fun h => ⟨e, h, if_neg he⟩
  · rw [hput, mem_insertEntry]
    refine or_iff_right ?_
    rintro rfl
    exact he rfl
  · rw [hput]

end

/-- What SPB_PUT puts into the buffer, and whether that was an update or an insertion (R173, R183). -/
def putOperands (s : State) : List Entry × PutOutcome := put s.spb (opPos s) (opColour s) s.cfg.spbCap

theorem exec_spbPut_range {s : State} (h : s.cfg.pixels ≤ (opPos s).toNat) :
    exec .spbPut s = .next (raiseErr .range s) := if_pos h

section
variable {s : State} (hp : (opPos s).toNat < s.cfg.pixels)
include hp

theorem exec_spbPut_updated (ho : occupied s.spb (opPos s) = true) :
    exec .spbPut s = .next { s with spb := (putOperands s).1, result := 2 } := by
  rw [putOperands, exec, execSpbPut, if_neg (not_le.2 hp), put_updated ho]
  rfl

theorem exec_spbPut_inserted (ho : occupied s.spb (opPos s) = false) (hl : s.spb.length < s.cfg.spbCap) :
    exec .spbPut s = .next { s with spb := (putOperands s).1, result := 1 } := by
  rw [putOperands, exec, execSpbPut, if_neg (not_le.2 hp), put_inserted ho hl]
  rfl

theorem exec_spbPut_full (ho : occupied s.spb (opPos s) = false) (hl : s.cfg.spbCap ≤ s.spb.length) :
    exec .spbPut s = .next (raiseErr .full s) := by
  rw [exec, execSpbPut, if_neg (not_le.2 hp), put_dropped ho hl]

end

/-- SPB_PUT reports an error, or puts the entry at a position of the strip and names the outcome in RESULT (R183). -/
theorem exec_spbPut_cases (s : State) :
    (∃ e, exec .spbPut s = .next (raiseErr e s)) ∨
      ((opPos s).toNat < s.cfg.pixels ∧
        ∃ r, exec .spbPut s = .next { s with spb := (putOperands s).1, result := r }) := by
  by_cases hp : (opPos s).toNat < s.cfg.pixels
  · obtain ⟨ho, -⟩ | ⟨ho, hl, -⟩ | ⟨ho, hl, -⟩ := put_cases s.spb (opPos s) (opColour s) s.cfg.spbCap
    · exact .inr ⟨hp, _, exec_spbPut_updated hp ho⟩
    · exact .inr ⟨hp, _, exec_spbPut_inserted hp ho hl⟩
    · exact .inl ⟨_, exec_spbPut_full hp ho hl⟩
  · exact .inl ⟨_, exec_spbPut_range (not_lt.1 hp)⟩

/-- Settles O37: the four outcomes of SPB_PUT, with what `put` does to the entries. -/
theorem sparsePutInsertsOrUpdates : Obligations.SparsePutInsertsOrUpdates := by
  unfold Obligations.SparsePutInsertsOrUpdates
  intro s hs pos
  refine ⟨exec_spbPut_range, fun hp hex => ?_, fun hp hall hl => ?_, fun hp hall hl => ?_⟩
  · have ho := occupied_iff.2 hex
    refine ⟨_, exec_spbPut_updated hp ho, rfl, rfl, ?_, mem_put_self (.inl ho), fun e he => mem_put_other he,
      SparseOk_put hs hp _⟩
    show (putOperands s).1.length = s.spb.length
    rw [putOperands, put_updated ho, List.length_map]
  · have ho := occupied_false.2 hall
    refine ⟨_, exec_spbPut_inserted hp ho hl, rfl, rfl, ?_, mem_put_self (.inr hl), fun e he => mem_put_other he,
      SparseOk_put hs hp _⟩
    show (putOperands s).1.length = s.spb.length + 1
    rw [putOperands, put_inserted ho hl, insertEntry_length]
  · exact exec_spbPut_full hp (occupied_false.2 hall) hl

/-- Each of the four commands on SPB keeps the buffer in order and in bounds (R186). -/
theorem exec_spb_ok {i : Instr} (hi : i ∈ [.spbClear, .spbPut, .spbDecay, .spbPurge]) {s t : State}
    (h : exec i s = .next t) (hs : SparseOk s.cfg.pixels s.cfg.spbCap s.spb) :
    SparseOk s.cfg.pixels s.cfg.spbCap t.spb := by
  simp only [List.mem_cons, List.not_mem_nil, or_false] at hi
  obtain rfl | rfl | rfl | rfl := hi
  · cases h
    exact SparseOk_nil _ _
  · obtain ⟨e, he⟩ | ⟨hp, r, hr⟩ := exec_spbPut_cases s
    · cases he.symm.trans h
      exact hs
    · cases hr.symm.trans h
      exact SparseOk_put hs hp _
  · cases h
    exact SparseOk_decay hs
  · cases h
    exact SparseOk_purge hs

/-- Settles O38, by induction on the number of commands. -/
theorem sparseBufferStaysSorted : Obligations.SparseBufferStaysSorted := by
  unfold Obligations.SparseBufferStaysSorted
  intro σ τ c i hi hcfg hexec hnext h0 n
  have hstep : ∀ n, SparseOk c.pixels c.spbCap (σ n).spb → SparseOk c.pixels c.spbCap (τ n).spb := fun n hn => by
    rw [← hcfg n] at hn ⊢
    exact exec_spb_ok (hi n) (hexec n) hn
  induction n with
  | zero => exact hstep 0 h0
  | succ n ih => exact hstep (n + 1) (by rwa [hnext])

end Sys2Proof.Machine

/-! # The invariant of the machine, kept by every step (R171, R186, 42_animation.md R229, R238, 10_state.md R38)

A piece of a step that writes no field of `Inv` keeps it as it is (`{ h with }`); a piece that writes one names the
field it proves again. -/

namespace Sys2Proof.Machine

/-! ## The pieces every command is made of -/

theorem inv_resetIn {c : Config} (hv : c.Valid) (e : Env) : Inv (State.resetIn c e) where
  cfg := hv
  mem := ⟨reset_mem_wf c e, fun _ hx => absurd hx List.not_mem_nil⟩
  spb := SparseOk_nil _ _
  drops := SparseOk_nil _ _
  fade := hueOk_red
  rainbow := hueOk_red
  breathe := rfl
  rot := by
    obtain ⟨-, ⟨hs, -⟩, ⟨hp, -⟩, -⟩ := valid_sizes hv
    exact lt_min hs hp
  wipe := (valid_sizes hv).1.1
  errors := ⟨Iff.intro (fun _ => rfl) fun _ => rfl, Nat.zero_le 6⟩
  enc := ⟨(valid_timing hv).2.2.2, le_refl _⟩
  frame := .inl rfl

/-- The code of an error, as LAST_ERR holds it (60_exceptions.md R300). -/
theorem errCode_byte (e : ErrCode) : BitVec.ofNat 8 (errCode e) ≠ 0 ∧ (BitVec.ofNat 8 (errCode e)).toNat ≤ 6 := by
  cases e <;> decide

/-- The rainbow's walk has one colour for each pixel (42_animation.md R233). -/
theorem hueWalk_length (n : Nat) (c : RGB) (ph : HuePhase) (x : Byte) : (hueWalk n c ph x).length = n := by
  induction n generalizing c ph with
  | zero => rfl
  | succ n ih => rw [hueWalk, List.length_cons, ih]

section
variable {s : State} (h : Inv s)
include h

/-- A reported error leaves a sticky bit and its code (60_exceptions.md R301). -/
theorem raiseErr_inv (e : ErrCode) : Inv (raiseErr e s) :=
  have ⟨hne, hle⟩ := errCode_byte e
  { h with errors := ⟨iff_of_false (sticky_or_errBit_ne_zero s.sticky e) hne, hle⟩ }

/-- LAST_ERR is cleared exactly with the last sticky bit (60_exceptions.md R306). -/
theorem clearErrors_inv (v : Word) : Inv (clearErrors v s) := by
  obtain ⟨hiff, hle⟩ := h.errors
  refine { h with errors := ?_ }
  rw [ErrorsOk, clearErrors_lastErr, clearErrors_sticky]
  by_cases hz : s.sticky &&& ~~~(v.extractLsb' 8 6) = 0#6
  · rw [if_pos hz]
    exact ⟨iff_of_true hz rfl, Nat.zero_le 6⟩
  · rw [if_neg hz]
    have hs : s.sticky ≠ 0 := fun h0 => hz (by rw [h0, BitVec.ofNat_eq_ofNat, BitVec.zero_and])
    exact ⟨iff_of_false hz fun hl => hs (hiff.2 hl), hle⟩

/-- A frame of P pixels leaves a consistent encoder with a frame of 3P bytes (40_encoder.md R128). -/
theorem showPixels_inv {px : List RGB} (hl : px.length = s.cfg.pixels) : Inv (showPixels px s) := by
  have hF : (frameOf s.cfg (px.map fun c => applyBrightness c (opBr s))).length = 3 * s.cfg.pixels := by
    rw [(frameOf_spec _ _).1, List.length_map, hl]
  obtain ⟨henc, hframe⟩ := EncOk_startFrame h.cfg hF
  exact { h with enc := henc, frame := hframe }

theorem encoderCycle_inv : Inv (encoderCycle s) :=
  { h with enc := EncOk_encStep h.cfg h.enc, frame := FrameOk_encStep h.frame }

/-- A write of an existing place, or of none, stores within the memory's windows (20_memory.md R65). -/
theorem writeTarget_inv {t : Target} (ht : t ≠ .unmapped → Mapped s.cfg t) (v : Word) : Inv (writeTarget t v s) := by
  cases t with
  | reg r =>
    cases r
    case status => exact clearErrors_inv h v
    all_goals exact { h with }
  | segLen k => exact { h with mem := MemOk_setSegLen h.mem (ht nofun) _ }
  | segColor k => exact { h with mem := MemOk_setSegColor h.mem (ht nofun) _ }
  | pal k => exact { h with mem := MemOk_setPal h.mem (ht nofun) _ }
  | spbPos k | spbColor k | rainPos k | rainColor k | unmapped => exact h

/-! ## The animations (42_animation.md R222, R226, R231 to R236) -/

/-- The activation values meet the invariant (42_animation.md R222). -/
theorem activate_inv (a : Anim) : Inv (activate a s) := by
  cases a with
  | fade => exact { h with fade := hueOk_red }
  | breathe => exact { h with breathe := rfl }
  | rainbow => exact { h with rainbow := hueOk_red }
  | swap => exact { h with rot := Nat.zero_lt_of_lt h.rot }
  | rain => exact { h with drops := SparseOk_nil _ _ }
  | wipe => exact { h with wipe := Nat.zero_lt_of_lt h.wipe }

/-- Activation and the gate sample keep the invariant (42_animation.md R226, steps 2 and 3). -/
theorem ready_inv (a : Anim) (t : Trig) : Inv (sampleGate a (switchTo a t s)) := by
  have hswitch : Inv (switchTo a t s) := by
    unfold switchTo
    split
    · exact { h with }
    · exact { activate_inv h a with }
  exact { hswitch with }

theorem fadeUpdate_inv (t : Trig) (b : Bool) : Inv (fadeUpdate t b s) := by
  have hstep := hueStep_ok h.fade (opStep s)
  unfold fadeUpdate
  dsimp only
  split
  · split <;> exact { h with fade := hstep }
  · exact h

theorem animFade_inv (t : Trig) : Inv (animFade t s) :=
  showPixels_inv (fadeUpdate_inv (ready_inv h .fade t) t _) (List.length_replicate ..)

/-- The hold ends at level 0, which is on the way up (42_animation.md R232). -/
theorem breatheHold_inv (t : Trig) (b : Bool) : Inv (breatheHold t b s) := by
  unfold breatheHold
  split
  · rename_i hc
    have hlevel : s.breathe.level = 0 := by simpa [BreatheOk, hc.1] using h.breathe
    refine { h with breathe := ?_ }
    show s.breathe.level ≠ 255
    rw [hlevel]
    decide
  · exact h

/-- A ramp turns exactly at 255 and at 0 (42_animation.md R232). -/
theorem breatheRamp_inv : Inv (breatheRamp s) := by
  unfold breatheRamp
  cases hphase : s.breathe.phase with
  | hold => exact h
  | up =>
    refine { h with breathe := ?_ }
    dsimp only
    by_cases htop : rampUp s.breathe.level (opStep s) = 255#8
    · rw [if_pos htop, htop]
      exact (by decide : (255 : Byte) ≠ 0)
    · rw [if_neg htop]
      exact htop
  | down =>
    dsimp only
    split
    · rename_i hzero
      exact { h with breathe := hzero }
    · rename_i hpos
      refine { h with breathe := ?_ }
      simpa [BreatheOk, hphase] using hpos

theorem animBreathe_inv (t : Trig) : Inv (animBreathe t s) :=
  showPixels_inv (breatheRamp_inv (breatheHold_inv (ready_inv h .breathe t) t _)) (List.length_replicate ..)

theorem rainbowUpdate_inv (t : Trig) (b : Bool) : Inv (rainbowUpdate t b s) := by
  unfold rainbowUpdate
  split
  · exact { h with rainbow := hueStep_ok h.rainbow (opRotStep s) }
  · exact h

theorem animRainbow_inv (t : Trig) : Inv (animRainbow t s) :=
  showPixels_inv (rainbowUpdate_inv (ready_inv h .rainbow t) t _) (hueWalk_length ..)

/-- The rotation is taken modulo N, which the palette check bounds (42_animation.md R234). -/
theorem swapUpdate_inv (hbad : ¬ paletteBad s (opN s) = true) (t : Trig) (b : Bool) : Inv (swapUpdate t b s) := by
  rw [paletteBad_iff] at hbad
  unfold swapUpdate
  split
  · refine { h with rot := ?_ }
    have hmod : (s.swap.rot.toNat + 1) % opN s < opN s := Nat.mod_lt _ (by omega)
    have hrot : (BitVec.ofNat 8 ((s.swap.rot.toNat + 1) % opN s)).toNat ≤ (s.swap.rot.toNat + 1) % opN s :=
      Nat.mod_le _ _
    show (BitVec.ofNat 8 ((s.swap.rot.toNat + 1) % opN s)).toNat < min s.cfg.segCap s.cfg.palCap
    omega
  · exact h

end

/-- Activation and the gate sample leave the palette check as it was. -/
theorem paletteBad_ready (a : Anim) (t : Trig) (s : State) :
    paletteBad (sampleGate a (switchTo a t s)) (opN (sampleGate a (switchTo a t s))) = paletteBad s (opN s) := by
  rw [Bool.eq_iff_iff, paletteBad_iff, paletteBad_iff]
  simp [opN]

theorem opN_animStep_swap (t : Trig) (s : State) : opN (animStep .swap t (swapUpdate t) s) = opN s := by
  have hargs : args (animStep .swap t (swapUpdate t) s) = args s :=
    congrArg Prod.fst (control_animStep .swap t (control_swapUpdate t) s)
  have harg2 : (animStep .swap t (swapUpdate t) s).arg2 = s.arg2 := congrArg (fun x => x.2.2.1) hargs
  rw [opN, harg2, opN]

theorem animSwap_inv {s : State} (h : Inv s) (t : Trig) : Inv (animSwap t s) := by
  unfold animSwap
  split
  · exact raiseErr_inv h _
  · rename_i hbad
    have hready := swapUpdate_inv (ready_inv h .swap t) (by rwa [paletteBad_ready]) t
    refine showPixels_inv (hready _) (evenPixels_length ?_ _)
    rw [opN_animStep_swap]
    rw [paletteBad_iff] at hbad
    omega

section
variable {s : State} (h : Inv s)
include h

/-- A new droplet stands at a free position of the strip (42_animation.md R235, R238). -/
theorem placeDrop_inv (hroom : s.rain.drops.length < maxDrops s) : Inv (placeDrop s) := by
  obtain ⟨⟨-, hP⟩, -⟩ := valid_sizes h.cfg
  have hlen : s.rain.drops.length < s.cfg.pixels ∧ s.rain.drops.length < s.cfg.rainCap := by
    unfold maxDrops at hroom
    omega
  obtain ⟨hlt, hfree, -⟩ := freePositions_get h.drops hP
    (Nat.mod_lt s.randValue.toNat (show 0 < s.cfg.pixels - s.rain.drops.length by omega))
  refine { h with drops := SparseOk_insert h.drops ?_ (fun x hx hpos => hfree x hx ?_) hlen.2 }
  · exact lt_of_le_of_lt (Nat.mod_le _ _) hlt
  · rw [hpos]
    exact Nat.mod_eq_of_lt (by omega)

theorem rainSpawn_inv (t : Trig) (b : Bool) : Inv (rainSpawn t b s) := by
  rw [rainSpawn_eq]
  split
  · rename_i hspawn
    exact { placeDrop_inv h hspawn.2 with }
  · exact h

theorem rainDecay_inv : Inv (rainDecay s) := by
  unfold rainDecay
  split
  · exact { h with drops := SparseOk_decay h.drops }
  · exact h

theorem rainPurge_inv : Inv (rainPurge s) := { h with drops := SparseOk_purge h.drops }

theorem animRain_inv (t : Trig) : Inv (animRain t s) :=
  showPixels_inv (rainSpawn_inv (rainDecay_inv (rainPurge_inv (ready_inv h .rain t))) t _) (sparsePixels_length ..)

/-- The count of a wipe reaches P at most, and P restarts it at once (42_animation.md R236). -/
theorem wipeFinish_wipeUpdate_inv (t : Trig) (b : Bool) : Inv (wipeFinish (wipeUpdate t b s)) := by
  obtain ⟨⟨hpos, hP⟩, -⟩ := valid_sizes h.cfg
  have hcount : (wipeUpdate t b s).wipe.k.toNat ≤ s.cfg.pixels := by
    have hk := h.wipe
    unfold wipeUpdate
    split
    · show (s.wipe.k + 1#16).toNat ≤ s.cfg.pixels
      rw [BitVec.toNat_add]
      exact (Nat.mod_le _ _).trans hk
    · exact hk.le
  have hframe : ∀ k, k.toNat < s.cfg.pixels →
      ∀ bg, Inv { wipeUpdate t b s with wipe := ⟨k, bg, (wipeUpdate t b s).wipe.mark⟩ } := fun k hk bg => by
    unfold wipeUpdate
    split <;> exact { h with wipe := hk }
  have hcfg : (wipeUpdate t b s).cfg = s.cfg := (wipeUpdate_world t b s).1
  unfold wipeFinish
  split
  · exact { hframe 0#16 hpos (opColour (wipeUpdate t b s)) with }
  · rename_i hne
    rw [hcfg] at hne
    exact hframe _ (lt_of_le_of_ne hcount hne) _

theorem animWipe_inv (t : Trig) : Inv (animWipe t s) := by
  refine showPixels_inv (wipeFinish_wipeUpdate_inv (ready_inv h .wipe t) t _) ?_
  rw [wipePixels, List.length_map, List.length_range]
  unfold wipeFinish
  split <;> rfl

theorem animCall_inv (a : Anim) (t : Trig) : Inv (animCall a t s) := by
  cases a with
  | fade => exact animFade_inv h t
  | breathe => exact animBreathe_inv h t
  | rainbow => exact animRainbow_inv h t
  | swap => exact animSwap_inv h t
  | rain => exact animRain_inv h t
  | wipe => exact animWipe_inv h t

/-! ## Commands, writes and events -/

/-- Every command keeps the invariant. -/
theorem exec_inv {i : Instr} {t : State} (hexec : exec i s = .next t) : Inv t := by
  obtain ⟨a, tr, rfl⟩ | hi := instr_cases i
  · cases (exec_animInstr a tr s).symm.trans hexec
    exact animCall_inv h a tr
  cases i
  case nop => cases hexec; exact h
  case scale => cases hexec; exact { h with }
  case renderUniform =>
    cases hexec
    exact showPixels_inv h (List.length_replicate ..)
  case renderSegments =>
    by_cases hc : s.segCount.toNat ≤ s.cfg.segCap
    · by_cases hs : segLenSum s.mem s.segCount.toNat = s.cfg.pixels
      · cases (exec_renderSegments_show hc hs).symm.trans hexec
        exact showPixels_inv h ((segPixels_segments_length ..).trans hs)
      · cases (exec_renderSegments_segsum hc hs).symm.trans hexec
        exact raiseErr_inv h _
    · cases (exec_renderSegments_range (not_le.1 hc)).symm.trans hexec
      exact raiseErr_inv h _
  case renderSparse =>
    cases hexec
    exact showPixels_inv h (sparsePixels_length ..)
  case segBuildEven =>
    cases hbad : paletteBad s (opN s)
    · cases (exec_segBuildEven_good hbad).symm.trans hexec
      have hcap : opN s ≤ s.cfg.segCap := by
        have hgood : ¬ paletteBad s (opN s) = true := by simp [hbad]
        rw [paletteBad_iff] at hgood
        omega
      exact { h with mem := MemOk_buildSegments h.mem _ _ _ hcap }
    · cases (exec_segBuildEven_bad hbad).symm.trans hexec
      exact raiseErr_inv h _
  case spbPut =>
    have hspb := exec_spb_ok (by decide) hexec h.spb
    obtain ⟨e, he⟩ | ⟨-, r, hr⟩ := exec_spbPut_cases s
    · cases he.symm.trans hexec
      exact raiseErr_inv h e
    · cases hr.symm.trans hexec
      exact { h with spb := hspb }
  case spbClear | spbDecay | spbPurge =>
    have hspb := exec_spb_ok (by decide) hexec h.spb
    cases hexec
    exact { h with spb := hspb }
  case animReset =>
    cases hexec
    have hreset := inv_resetIn h.cfg s.env
    exact { h with
      drops := hreset.drops
      fade := hreset.fade
      rainbow := hreset.rainbow
      breathe := hreset.breathe
      rot := hreset.rot
      wipe := hreset.wipe }
  all_goals exact absurd hi (by decide)

theorem acceptCommand_inv {w : Word} {t : State} (haccept : acceptCommand w s = .next t) : Inv t := by
  have hword : Inv (acceptWord w s) := { h with }
  cases hd : decode w with
  | error e =>
    rw [acceptCommand, hd] at haccept
    cases haccept
    exact raiseErr_inv hword _
  | ok i =>
    rw [acceptCommand_legal hd] at haccept
    exact exec_inv (s := sampleInputs (acceptWord w s)) { hword with } haccept

/-- A write of an aligned address keeps the invariant (20_memory.md R70, R71). -/
theorem busWrite_inv {a : Half} {v : Word} {t : State} (ha : a.toNat % 4 = 0) (hwrite : busWrite a v s = .next t) :
    Inv t := by
  unfold busWrite at hwrite
  split at hwrite
  · cases hwrite
    exact raiseErr_inv h _
  split at hwrite
  · exact acceptCommand_inv h hwrite
  · cases hwrite
    exact writeTarget_inv h (fun hu => (targetAt_mapped h.cfg ha hu).1) v

theorem hostEvent_inv {e : Event} {t : State} (hevent : hostEvent e s = .next t) : Inv t := by
  cases e with
  | read n a =>
    simp only [hostEvent] at hevent
    split at hevent <;> cases hevent
    exact { h with }
  | write n a v =>
    simp only [hostEvent] at hevent
    split at hevent
    · rename_i hok
      exact busWrite_inv h (accessOk_iff.1 hok).2 hevent
    · cases hevent
  | wait =>
    simp only [hostEvent] at hevent
    split at hevent <;> cases hevent
    · exact { encoderCycle_inv h with }
    · exact { h with }
  | cycle =>
    cases hevent
    exact encoderCycle_inv h
  | driveTick _ | driveGate _ | giveRand _ =>
    cases hevent
    exact { h with }
  | reset =>
    cases hevent
    exact inv_resetIn h.cfg s.env

end

/-- Settles O60: a step is an encoder cycle or the first pending event. -/
theorem everyStepKeepsTheInvariant : Obligations.EveryStepKeepsTheInvariant := by
  unfold Obligations.EveryStepKeepsTheInvariant
  intro s t h hstep
  cases hp : s.env.pending with
  | nil =>
    rw [step_nil h.cfg hp] at hstep
    cases hstep
    exact encoderCycle_inv h
  | cons e rest =>
    rw [step_event h.cfg hp] at hstep
    exact hostEvent_inv (s := withPending rest s) { h with } hstep

end Sys2Proof.Machine

/-! # The animations (42_animation.md)

Ramps and hue steps (R227 to R229), activation, timers and triggers (R221 to R225), ANIM_RESET (R230), the six animations
(R231 to R236), their laws over many calls (R237 to R239), and what a command does not see (R220, R240). -/

namespace Sys2Proof.Machine

/-! ## Ramps and hue steps (R227 to R229) -/

/-- Settles O39: the two ramps as numbers. -/
theorem rampsSaturate : Obligations.RampsSaturate := by
  unfold Obligations.RampsSaturate
  exact fun x s _ => ⟨by rw [rampDown_toNat, Nat.max_zero], rampUp_toNat x s⟩

/-- Settles O40: the step by the phase, the circle by `hueStep_ok`. -/
theorem hueStepMovesTwoChannels : Obligations.HueStepMovesTwoChannels := by
  unfold Obligations.HueStepMovesTwoChannels
  intro c ph s
  refine ⟨?_, ?_, ?_, fun h _ => ⟨hueStep_ok h s, hueOk_sum (hueStep_ok h s)⟩⟩
  all_goals
    rintro rfl
    exact ⟨rfl, rfl⟩

/-- Hue steps keep to the circle (R229). -/
theorem hueOk_foldl (steps : List Byte) {h : RGB × HuePhase} (hh : HueOk h.1 h.2) :
    HueOk (steps.foldl (fun h s => hueStep h.1 h.2 s) h).1 (steps.foldl (fun h s => hueStep h.1 h.2 s) h).2 := by
  induction steps generalizing h with
  | nil => exact hh
  | cons s rest ih => exact ih (hueStep_ok hh s)

/-- Of two channels that sum to 255 one is 0 exactly when the other is 255. -/
theorem eq_zero_iff_of_sum {x y : Byte} (h : x.toNat + y.toNat = 255) : y = 0#8 ↔ x = 255#8 := by
  simp only [← BitVec.toNat_inj, BitVec.toNat_ofNat]
  omega

/-- On the hue circle one channel is 0, or two at a primary (R229). -/
theorem zeroChannels_of_hueOk {c : RGB} {ph : HuePhase} (h : HueOk c ph) :
    zeroChannels c = if c ∈ [red, ⟨0, 255, 0⟩, ⟨0, 0, 255⟩] then 2 else 1 := by
  obtain ⟨r, g, b⟩ := c
  cases ph
  all_goals
    obtain ⟨hsum, hzero, hlosing⟩ := h
    have hprimary := eq_zero_iff_of_sum hsum
    simp only [BitVec.ofNat_eq_ofNat] at hzero hlosing
    simp only [zeroChannels, red, BitVec.ofNat_eq_ofNat, List.mem_cons, RGB.mk.injEq, hzero, hlosing, hprimary]
    -- the losing channel is not 0 and the third is: the gaining one decides, by `hprimary`
    simp
    split <;> rfl

/-- The colour of a phase when its losing channel stands at `l` (R229). -/
def hueArc : HuePhase → Byte → RGB
  | .redGreen, l => ⟨l, 255#8 - l, 0⟩
  | .greenBlue, l => ⟨0, l, 255#8 - l⟩
  | .blueRed, l => ⟨255#8 - l, 0, l⟩

/-- Where a phase ends the next one begins (R229). -/
theorem hueArc_zero (ph : HuePhase) : hueArc ph 0 = hueArc (nextHuePhase ph) 255 := by
  cases ph <;> decide

/-- The gaining channel follows the losing one (R228). -/
theorem rampUp_complement (l s : Byte) : rampUp (255#8 - l) s = 255#8 - rampDown l s := by
  have hl := l.isLt
  apply BitVec.eq_of_toNat_eq
  rw [rampUp_toNat, BitVec.toNat_sub_of_le, BitVec.toNat_sub_of_le, rampDown_toNat]
  all_goals simp only [BitVec.le_def, BitVec.toNat_ofNat, rampDown_toNat]
  all_goals omega

/-- A hue step on the circle moves along the arc (R228). -/
theorem hueStep_hueArc (ph : HuePhase) (l s : Byte) :
    hueStep (hueArc ph l) ph s = (hueArc ph (rampDown l s), phaseAfter ph (rampDown l s)) := by
  cases ph <;> simp only [hueStep, hueArc, rampUp_complement]

theorem hueSteps_add (m n : Nat) (h : RGB × HuePhase) (s : Byte) :
    hueSteps (m + n) h s = hueSteps n (hueSteps m h s) s := by
  induction m generalizing h with
  | zero => rw [Nat.zero_add, hueSteps]
  | succ m ih => rw [Nat.succ_add, hueSteps, ih, hueSteps]

/-- The number of steps `s` that stay short of 255 (R229). -/
theorem lt_transition_iff {s : Nat} (hs : 0 < s) (n : Nat) : n < (255 + s - 1) / s ↔ n * s < 255 := by
  rw [← Nat.succ_le_iff, Nat.le_div_iff_mul_le hs, Nat.succ_mul]
  omega

/-- `n + 1` steps down from 255, the last after the others (R227). -/
theorem rampDown_steps (n : Nat) (s : Byte) :
    rampDown (BitVec.ofNat 8 (255 - n * s.toNat)) s = BitVec.ofNat 8 (255 - (n + 1) * s.toNat) := by
  apply BitVec.eq_of_toNat_eq
  rw [rampDown_toNat, BitVec.toNat_ofNat, BitVec.toNat_ofNat, Nat.succ_mul]
  omega

/-- `n + 1` steps up from 0, the last after the others (R227). -/
theorem rampUp_steps (n : Nat) (s : Byte) :
    rampUp (BitVec.ofNat 8 (min (n * s.toNat) 255)) s = BitVec.ofNat 8 (min ((n + 1) * s.toNat) 255) := by
  apply BitVec.eq_of_toNat_eq
  rw [rampUp_toNat, BitVec.toNat_ofNat, BitVec.toNat_ofNat, Nat.succ_mul]
  omega

/-- The level left by steps down from 255 is 0 exactly when they take 255 or more. -/
theorem ofNat_sub_eq_zero_iff (k : Nat) : BitVec.ofNat 8 (255 - k) = 0#8 ↔ ¬ k < 255 := by
  rw [byte_eq_zero, BitVec.toNat_ofNat]
  omega

section
variable {s : Byte} (hs : 0 < s.toNat) (ph : HuePhase)
include hs

/-- Before a transition is over its steps have taken `n * s` from the losing channel (R229). -/
theorem hueSteps_within {n : Nat} (hn : n < (255 + s.toNat - 1) / s.toNat) :
    hueSteps n (hueArc ph 255, ph) s = (hueArc ph (BitVec.ofNat 8 (255 - n * s.toNat)), ph) := by
  induction n with
  | zero => rw [Nat.zero_mul]; rfl
  | succ n ih =>
    have hpos : BitVec.ofNat 8 (255 - (n + 1) * s.toNat) ≠ 0#8 :=
      mt (ofNat_sub_eq_zero_iff _).1 (not_not.2 ((lt_transition_iff hs _).1 hn))
    rw [hueSteps_add, ih (by omega), hueSteps, hueSteps, hueStep_hueArc, rampDown_steps, phaseAfter, if_neg hpos]

/-- The last step of a transition clamps at the next primary and changes the phase (R228, R229). -/
theorem hueSteps_transition :
    hueSteps ((255 + s.toNat - 1) / s.toNat) (hueArc ph 255, ph) s =
      (hueArc (nextHuePhase ph) 255, nextHuePhase ph) := by
  obtain ⟨n, hn⟩ : ∃ n, (255 + s.toNat - 1) / s.toNat = n + 1 :=
    Nat.exists_eq_succ_of_ne_zero (Nat.div_pos (by omega) hs).ne'
  have hlast : ¬ (n + 1) * s.toNat < 255 := by rw [← lt_transition_iff hs, hn]; omega
  have hl : rampDown (BitVec.ofNat 8 (255 - n * s.toNat)) s = 0#8 := by
    rw [rampDown_steps, ofNat_sub_eq_zero_iff]
    exact hlast
  rw [hn, hueSteps_add, hueSteps_within hs ph (by omega), hueSteps, hueSteps, hueStep_hueArc, hl, phaseAfter,
    if_pos rfl]
  exact congrArg (·, _) (hueArc_zero ph)

end

/-- Settles O41: the circle by `hueOk_foldl`, the cycle as three transitions along the arcs. -/
theorem hueCircleAndItsCycle : Obligations.HueCircleAndItsCycle := by
  unfold Obligations.HueCircleAndItsCycle
  have hcycle : ∀ s : Byte, s ≠ 0 →
      let m := (255 + s.toNat - 1) / s.toNat
      (∀ n < m, (hueSteps n (red, .redGreen) s).2 = .redGreen ∧ (hueSteps (m + n) (red, .redGreen) s).2 = .greenBlue ∧
          (hueSteps (2 * m + n) (red, .redGreen) s).2 = .blueRed) ∧
        hueSteps m (red, .redGreen) s = (⟨0, 255, 0⟩, .greenBlue) ∧
        hueSteps (2 * m) (red, .redGreen) s = (⟨0, 0, 255⟩, .blueRed) ∧
        hueSteps (3 * m) (red, .redGreen) s = (red, .redGreen) := by
    intro s hs m
    have hpos : 0 < s.toNat := Nat.pos_of_ne_zero fun h => hs (byte_eq_zero.2 h)
    have h1 : hueSteps m (red, .redGreen) s = (hueArc .greenBlue 255, .greenBlue) := hueSteps_transition hpos .redGreen
    have h2 : hueSteps (2 * m) (red, .redGreen) s = (hueArc .blueRed 255, .blueRed) := by
      rw [Nat.two_mul, hueSteps_add, h1]
      exact hueSteps_transition hpos .greenBlue
    have h3 : hueSteps (3 * m) (red, .redGreen) s = (hueArc .redGreen 255, .redGreen) := by
      rw [Nat.succ_mul, hueSteps_add, h2]
      exact hueSteps_transition hpos .blueRed
    refine ⟨fun n hn => ⟨?_, ?_, ?_⟩, h1, h2, h3⟩
    · exact congrArg Prod.snd (hueSteps_within hpos .redGreen hn)
    · rw [hueSteps_add, h1, hueSteps_within hpos .greenBlue hn]
    · rw [hueSteps_add, h2, hueSteps_within hpos .blueRed hn]
  refine ⟨fun steps _ => ?_, hcycle, (hcycle 1 (by decide)).2.2.2⟩
  have hok := hueOk_foldl steps (h := (red, .redGreen)) hueOk_red
  refine ⟨hueOk_sum hok, ?_, zeroChannels_of_hueOk hok⟩
  rw [zeroChannels_of_hueOk hok]
  split <;> omega

/-! ## Activation, timers and triggers (R221 to R225) -/

/-- ACTIVE as software reads it (R221). -/
theorem activeWord_of_active {s : State} {a : Anim} {t : Trig} (h : s.active = some ⟨a, t⟩) :
    activeWord s = 0x80000000 ||| (trigCode t).setWidth 32 <<< 8 ||| (animCode a).setWidth 32 := by
  rw [activeWord, h]
  cases a <;> cases t <;> decide

/-- Settles O42: the two cases of `switchTo`, the activation values by the animation. -/
theorem activationOnAChangeOfKey : Obligations.ActivationOnAChangeOfKey := by
  unfold Obligations.ActivationOnAChangeOfKey
  refine fun a t s => ⟨activeWord_of_active (switchTo_active a t s), switchTo_same a t s, fun hnew => ?_⟩
  rw [switchTo_new a t s hnew]
  cases a with
  | rain => rw [randAt_zero, afterDraws, List.drop_one]; rfl
  | fade | breathe | rainbow | swap | wipe => rfl

/-- The sample is noted in the bit of its animation alone (R225). -/
theorem gateNoted_sampleGate (a : Anim) (s : State) : GateNoted a s (sampleGate a s).gatePrev :=
  fun _ hi => setGateBit_get _ _ _ (animIndex_lt a) hi

/-- Settles O44: subtraction modulo 2^32, the three trigger modes, and the events that drive the inputs. -/
theorem timersAndTriggers : Obligations.TimersAndTriggers := by
  unfold Obligations.TimersAndTriggers
  refine ⟨fun s mark iv => ?_, fun timecond edge => ⟨rfl, rfl, rfl⟩, fun a s => ⟨?_, gateNoted_sampleGate a s⟩,
    fun s => ⟨fun v h => ?_, fun b h => ?_, fun h => ?_, fun h => ?_⟩, fun s rest hv => ⟨fun v h => ?_, fun b h => ?_,
    fun vs h => ?_⟩⟩
  · have hmark := mark.isLt
    rw [expired, elapsed, BitVec.toNat_sub, Nat.add_comm, ← Nat.add_sub_assoc hmark.le]
  · simp [gateEdge]
  · rw [State.now, h, Option.getD_some]
  · rw [State.gate, h, Option.getD_some]
  · rw [State.now, h, Option.getD_none]
  · rw [State.gate, h, Option.getD_none]
  · rw [step_event hv h]; rfl
  · rw [step_event hv h]; rfl
  · rw [step_event hv h]; rfl

/-! ## ANIM_RESET (R230) -/

/-- Settles O45: each register of the animation window reads its reset value. -/
theorem animResetClearsTheAnimations : Obligations.AnimResetClearsTheAnimations := by
  unfold Obligations.AnimResetClearsTheAnimations
  intro s
  have hred : colourWord red = 0x00FF0000 := by decide
  have hblack : colourWord black = 0 := by decide
  refine ⟨_, rfl, rfl, ?_, ?_, rfl⟩
  · simp only [List.forall_mem_cons]
    exact ⟨hred, hred, nofun⟩
  · simp only [List.forall_mem_cons]
    exact ⟨rfl, rfl, rfl, rfl, rfl, rfl, rfl, rfl, rfl, rfl, rfl, rfl, rfl, hblack, rfl, rfl, nofun⟩

/-! ## What the updates of the animations do (R231 to R236) -/

theorem fadeUpdate_eq (t : Trig) (b : Bool) (s : State) :
    fadeUpdate t b s =
      let h := hueStep s.fade.color s.fade.phase (opStep s)
      { s with
        fade := if triggered t true b then ⟨h.1, h.2⟩ else s.fade
        result := if triggered t true b ∧ h.2 ≠ s.fade.phase then s.result ||| 1 else s.result } := by
  unfold fadeUpdate
  by_cases hfires : triggered t true b = true
  · by_cases hphase : (hueStep s.fade.color s.fade.phase (opStep s)).2 ≠ s.fade.phase
    · simp only [if_pos hfires, if_pos hphase, if_pos (And.intro hfires hphase)]
      rfl
    · simp only [if_pos hfires, if_neg hphase, if_neg (mt And.right hphase)]
  · simp only [if_neg hfires, if_neg (mt And.left hfires)]

/-- Settles O46: the update on the state that activation and the gate sample leave. -/
theorem animFadeStepsTheHue : Obligations.AnimFadeStepsTheHue := by
  unfold Obligations.AnimFadeStepsTheHue
  intro t s _ f fires h
  refine ⟨_, _, sampleGate_noted .fade t s, exec_animInstr .fade t s, ?_⟩
  dsimp only [animCall, animFade]
  rw [animStep_eq, ready_fade, fadeUpdate_eq]
  exact showPixels_emits _ _ _ (List.length_replicate ..) fun i hi => List.getElem_replicate hi

section
variable {t : Trig} {b : Bool} {s : State}

theorem breatheUpdate_hold (hp : s.breathe.phase = .hold)
    (hw : triggered t (expired s s.breathe.mark 2000) b = false) : breatheUpdate t b s = s := by
  rw [breatheUpdate, breatheHold, if_neg (by rw [holdMs, hw]; simp), breatheRamp, hp]

/-- The call that ends the hold also takes the first step up (R232). -/
theorem breatheUpdate_endsHold (hp : s.breathe.phase = .hold)
    (hw : triggered t (expired s s.breathe.mark 2000) b = true) :
    breatheUpdate t b s =
      let l := rampUp s.breathe.level (opStep s)
      { s with breathe := ⟨l, if l = 255 then .down else .up, s.now⟩ } := by
  rw [breatheUpdate, breatheHold, if_pos ⟨hp, hw⟩]
  rfl

theorem breatheUpdate_up (hp : s.breathe.phase = .up) :
    breatheUpdate t b s =
      let l := rampUp s.breathe.level (opStep s)
      { s with breathe := ⟨l, if l = 255 then .down else .up, s.breathe.mark⟩ } := by
  rw [breatheUpdate, breatheHold, if_neg (by rw [hp]; simp), breatheRamp, hp]
  rfl

theorem breatheUpdate_down (hp : s.breathe.phase = .down) :
    breatheUpdate t b s =
      let l := rampDown s.breathe.level (opStep s)
      { s with
        breathe := if l = 0 then ⟨l, .hold, s.now⟩ else ⟨l, .down, s.breathe.mark⟩
        result := if l = 0 then s.result ||| 1 else s.result } := by
  rw [breatheUpdate, breatheHold, if_neg (by rw [hp]; simp), breatheRamp, hp]
  by_cases hl : rampDown s.breathe.level (opStep s) = 0
  · simp only [if_pos hl]
    exact if_pos hl
  · simp only [if_neg hl]
    refine (if_neg hl).trans ?_
    rw [← hp]

end

/-- The four cases of the update of ANIM_BREATHE in one (R232). -/
theorem breatheUpdate_eq (t : Trig) (e : Bool) (s : State) :
    breatheUpdate t e s =
      let b := s.breathe
      let endsHold := b.phase = .hold ∧ triggered t (expired s b.mark 2000) e = true
      let l := if endsHold ∨ b.phase = .up then rampUp b.level (opStep s)
        else if b.phase = .down then rampDown b.level (opStep s) else b.level
      let cycleEnds := b.phase = .down ∧ l = 0
      { s with
        breathe :=
          { level := l
            phase :=
              if endsHold ∨ b.phase = .up then (if l = 255 then .down else .up)
              else if cycleEnds then .hold else b.phase
            mark := if endsHold ∨ cycleEnds then s.now else b.mark }
        result := if cycleEnds then s.result ||| 1 else s.result } := by
  cases hp : s.breathe.phase with
  | hold =>
    cases hw : triggered t (expired s s.breathe.mark 2000) e with
    | false =>
      have hb : s.breathe = ⟨s.breathe.level, .hold, s.breathe.mark⟩ := by rw [← hp]
      simpa [breatheUpdate_hold hp hw, hp, hw] using congrArg (fun b => { s with breathe := b }) hb
    | true => simp [breatheUpdate_endsHold hp hw, hp, hw]
  | up => simp [breatheUpdate_up hp, hp]
  | down =>
    rw [breatheUpdate_down hp]
    by_cases hl : rampDown s.breathe.level (opStep s) = 0#8 <;> simp [hl, hp]

/-- Settles O47: the update on the state that activation and the gate sample leave. -/
theorem animBreatheRampsTheLevel : Obligations.AnimBreatheRampsTheLevel := by
  unfold Obligations.AnimBreatheRampsTheLevel
  intro t s _ b endsHold l cycleEnds
  refine ⟨_, _, sampleGate_noted .breathe t s, exec_animInstr .breathe t s, ?_⟩
  dsimp only [animCall, animBreathe]
  rw [animStep_eq, ready_breathe, breatheUpdate_eq]
  exact showPixels_emits _ _ _ (List.length_replicate ..) fun i hi => List.getElem_replicate hi

theorem rainbowUpdate_eq (t : Trig) (b : Bool) (s : State) :
    rainbowUpdate t b s =
      let fires := triggered t (expired s s.rainbow.mark (opInterval s)) b
      let h := hueStep s.rainbow.color s.rainbow.phase (opRotStep s)
      { s with
        rainbow := if fires then ⟨h.1, h.2, s.now⟩ else s.rainbow
        result := if fires then s.result ||| 1 else s.result } := by
  unfold rainbowUpdate
  by_cases hfires : triggered t (expired s s.rainbow.mark (opInterval s)) b = true
  · simp only [if_pos hfires]
    rfl
  · simp only [if_neg hfires]

/-- Pixel `i` of the rainbow's walk stands `i` hue steps after the base (R233). -/
theorem hueWalk_getElem (n : Nat) (c : RGB) (ph : HuePhase) (s : Byte) (i : Nat) (hi : i < (hueWalk n c ph s).length) :
    (hueWalk n c ph s)[i] = (hueSteps i (c, ph) s).1 := by
  induction n generalizing c ph i with
  | zero => exact absurd hi (Nat.not_lt_zero i)
  | succ n ih =>
    cases i with
    | zero => rfl
    | succ i => exact ih _ _ i (Nat.lt_of_succ_lt_succ hi)

/-- Settles O48: the update on the state that activation and the gate sample leave, then the walk from its base. -/
theorem animRainbowWalksTheStrip : Obligations.AnimRainbowWalksTheStrip := by
  unfold Obligations.AnimRainbowWalksTheStrip
  intro t s _ r fires h
  refine ⟨_, _, sampleGate_noted .rainbow t s, exec_animInstr .rainbow t s, ?_⟩
  dsimp only [animCall, animRainbow]
  rw [animStep_eq, ready_rainbow, rainbowUpdate_eq]
  exact showPixels_emits _ _ _ (hueWalk_length ..) fun i hi => hueWalk_getElem _ _ _ _ i hi

theorem swapUpdate_eq (t : Trig) (b : Bool) (s : State) :
    swapUpdate t b s =
      let fires := triggered t (expired s s.swap.mark (opSwapInterval s)) b
      { s with
        swap := if fires then ⟨BitVec.ofNat 8 ((s.swap.rot.toNat + 1) % opN s), s.now⟩ else s.swap
        result := if fires then s.result ||| 1 else s.result } := by
  unfold swapUpdate
  by_cases hfires : triggered t (expired s s.swap.mark (opSwapInterval s)) b = true
  · simp only [if_pos hfires]
    rfl
  · simp only [if_neg hfires]

theorem wipeUpdate_eq (t : Trig) (b : Bool) (s : State) :
    wipeUpdate t b s =
      let fires := triggered t (expired s s.wipe.mark (opInterval s)) b
      { s with
        wipe := ⟨if fires then s.wipe.k + 1 else s.wipe.k, s.wipe.bg, if fires then s.now else s.wipe.mark⟩ } := by
  unfold wipeUpdate
  by_cases hfires : triggered t (expired s s.wipe.mark (opInterval s)) b = true
  · simp only [if_pos hfires]
    rfl
  · simp only [if_neg hfires]

theorem wipeFinish_eq (s : State) :
    wipeFinish s =
      let done := s.wipe.k.toNat = s.cfg.pixels
      { s with
        wipe := ⟨if done then 0 else s.wipe.k, if done then opColour s else s.wipe.bg, s.wipe.mark⟩
        result := if done then s.result ||| 1 else s.result } := by
  unfold wipeFinish
  by_cases hdone : s.wipe.k.toNat = s.cfg.pixels
  · simp only [if_pos hdone]
    rfl
  · simp only [if_neg hdone]

/-- Settles O51: the pixels of the advanced record, then the completion. -/
theorem animWipeRevealsPixelByPixel : Obligations.AnimWipeRevealsPixelByPixel := by
  unfold Obligations.AnimWipeRevealsPixelByPixel
  intro t s _ w fires k done
  refine ⟨_, _, sampleGate_noted .wipe t s, exec_animInstr .wipe t s, ?_⟩
  dsimp only [animCall, animWipe]
  rw [animStep_eq, ready_wipe, wipeUpdate_eq, wipeFinish_eq]
  refine showPixels_emits _ _ _ ?_ fun i hi => ?_
  · rw [wipePixels, List.length_map, List.length_range]
  · simp only [wipePixels, List.getElem_map, List.getElem_range]
    rfl

/-- Settles O49: the palette check, then the update and the even regions of the rotated palette. -/
theorem animSwapRotatesTheRegions : Obligations.AnimSwapRotatesTheRegions := by
  unfold Obligations.AnimSwapRotatesTheRegions
  intro t s _ n bad w fires
  refine ⟨fun hbad => ?_, fun hgood => ?_⟩
  · rw [exec_animInstr, animCall, animSwap, if_pos ((paletteBad_iff s _).2 hbad)]
    rfl
  · have hcheck : ¬ paletteBad s (opN s) = true := mt (paletteBad_iff s _).1 hgood
    have hn : 1 ≤ n := by omega
    have hcall : animCall .swap t s = _ := (if_neg hcheck).trans rfl
    rw [animStep_eq, ready_swap, swapUpdate_eq] at hcall
    refine ⟨_, _, _, sampleGate_noted .swap t s, (exec_animInstr .swap t s).trans (congrArg _ hcall),
      showPixels_emits_getD _ (evenPixels_length hn _), fun i hi => ?_⟩
    exact congrArg (·.getD black) (evenPixels_get hn _ hi)

/-! ## ANIM_RAIN (R235, R238) -/

/-- The draws that follow `n` draws (10_state.md R22). -/
theorem randAt_of_env {s w : State} {n : Nat} (h : w.env = afterDraws s n) (k : Nat) :
    randAt w k = randAt s (n + k) := by
  simp [randAt, h, afterDraws, Nat.add_assoc]

theorem afterDraws_of_env {s w : State} {n : Nat} (h : w.env = afterDraws s n) (k : Nat) :
    afterDraws w k = afterDraws s (n + k) := by
  simp [afterDraws, h, Nat.add_assoc]

/-- The purge and the decay of ANIM_RAIN (R235). -/
theorem rainDecay_rainPurge_eq (s : State) :
    rainDecay (rainPurge s) =
      let decays := expired s s.rain.dmark (opDecayMs s)
      { s with
        rain := { s.rain with
          drops := if decays then decay (purge s.rain.drops) else purge s.rain.drops
          dmark := if decays then s.now else s.rain.dmark }
        result := s.result ||| if decays then 2 else 0 } := by
  unfold rainDecay
  by_cases hdecays : expired s s.rain.dmark (opDecayMs s) = true
  · refine (if_pos hdecays).trans ?_
    simp only [if_pos hdecays]
    rfl
  · refine (if_neg hdecays).trans ?_
    simp only [if_neg hdecays, BitVec.ofNat_eq_ofNat, BitVec.or_zero]
    rfl

/-- Where a spawn places its droplet (R235). -/
def dropPos (s : State) : Half :=
  BitVec.ofNat 16 ((freePositions s.rain.drops s.cfg.pixels).getD
    (s.randValue.toNat % (s.cfg.pixels - s.rain.drops.length)) 0)

/-- The spawn of ANIM_RAIN (R235): position, then gap. -/
theorem rainSpawn_closed (t : Trig) (b : Bool) (s : State) :
    rainSpawn t b s =
      let spawns := triggered t (expired s s.rain.smark s.rain.gap.toNat) b = true ∧ s.rain.drops.length < maxDrops s
      { s with
        env := afterDraws s (if spawns then 2 else 0)
        rain :=
          { drops := if spawns then insertEntry ⟨dropPos s, opColour s⟩ s.rain.drops else s.rain.drops
            dmark := s.rain.dmark
            smark := if spawns then s.now else s.rain.smark
            gap := if spawns then spawnGap s (randAt s 1) else s.rain.gap }
        result := s.result ||| if spawns then 1 else 0 } := by
  rw [rainSpawn_eq]
  by_cases hspawns : triggered t (expired s s.rain.smark s.rain.gap.toNat) b = true ∧ s.rain.drops.length < maxDrops s
  · simp only [if_pos hspawns]
    rw [randAt_succ, randAt_zero, ← afterDraws_succ, ← afterDraws_succ]
    rfl
  · simp only [if_neg hspawns, BitVec.ofNat_eq_ofNat, BitVec.or_zero]
    rfl

/-- The position drawn is free, with as many free positions below it as the draw says (R235). -/
theorem dropPos_spec {s : State} (hv : s.cfg.Valid) {cap : Nat} (h : SparseOk s.cfg.pixels cap s.rain.drops)
    (hroom : s.rain.drops.length < maxDrops s) :
    (dropPos s).toNat < s.cfg.pixels ∧ (∀ e ∈ s.rain.drops, e.pos ≠ dropPos s) ∧
      ((List.range (dropPos s).toNat).filter fun q => s.rain.drops.all fun e => e.pos.toNat ≠ q).length =
        s.randValue.toNat % (s.cfg.pixels - s.rain.drops.length) := by
  obtain ⟨⟨-, hP⟩, -⟩ := valid_sizes hv
  have hlen : s.rain.drops.length < s.cfg.pixels := by
    unfold maxDrops at hroom
    omega
  obtain ⟨hlt, hfree, hbelow⟩ := freePositions_get h hP
    (Nat.mod_lt s.randValue.toNat (show 0 < s.cfg.pixels - s.rain.drops.length by omega))
  have hpos : (dropPos s).toNat = _ := Nat.mod_eq_of_lt (lt_of_lt_of_le hlt (by omega))
  rw [hpos]
  exact ⟨hlt, fun e he heq => hfree e he (by rw [heq, hpos]), hbelow⟩

/-- What ANIM_RAIN spawns on: the state activated, sampled, purged and decayed (R226, R235). -/
def rainReady (t : Trig) (s : State) : State := rainDecay (rainPurge (sampleGate .rain (switchTo .rain t s)))

/-- The state ANIM_RAIN shows (R235). -/
def rainSpawned (t : Trig) (s : State) : State := rainSpawn t (risingEdge .rain t s) (rainReady t s)

theorem rainReady_eq (t : Trig) (s : State) :
    rainReady t s =
      let r := if continues .rain t s then s.rain else ⟨[], s.now, s.now, spawnGap s (randAt s 0)⟩
      let decays := expired s r.dmark (opDecayMs s)
      { s with
        active := some ⟨.rain, t⟩
        gatePrev := (sampleGate .rain (switchTo .rain t s)).gatePrev
        env := afterDraws s (if continues .rain t s then 0 else 1)
        rain := { r with
          drops := if decays then decay (purge r.drops) else purge r.drops
          dmark := if decays then s.now else r.dmark }
        result := s.result ||| if decays then 2 else 0 } := by
  rw [rainReady, rainDecay_rainPurge_eq, ready_rain, randAt_zero]
  cases hc : continues .rain t s <;> rfl

theorem rainReady_cfg (t : Trig) (s : State) : (rainReady t s).cfg = s.cfg := by rw [rainReady_eq]

theorem rainSpawned_cfg (t : Trig) (s : State) : (rainSpawned t s).cfg = s.cfg := by
  rw [rainSpawned, rainSpawn_closed, rainReady_cfg]

theorem animRain_eq (t : Trig) (s : State) :
    animRain t s = showPixels (sparsePixels (rainSpawned t s).rain.drops s.cfg.pixels) (rainSpawned t s) := by
  rw [← rainSpawned_cfg t s, animRain, animStep_eq]
  rfl

/-- Before its spawn ANIM_RAIN has sorted droplets within their bounds (R238). -/
theorem rainReady_drops_ok (t : Trig) {s : State} {P cap : Nat} (h : SparseOk P cap s.rain.drops) :
    SparseOk P cap (rainReady t s).rain.drops := by
  have hactive : SparseOk P cap (switchTo .rain t s).rain.drops := by
    rw [switchTo_rain]
    split
    · exact SparseOk_nil _ _
    · exact h
  rw [rainReady, rainDecay_rainPurge_eq]
  dsimp only
  split
  · exact SparseOk_decay (SparseOk_purge hactive)
  · exact SparseOk_purge hactive

/-- The droplets ANIM_RAIN shows are sorted and within their bounds (R238). -/
theorem rainSpawned_drops_ok (t : Trig) {s : State} (hv : s.cfg.Valid)
    (h : SparseOk s.cfg.pixels s.cfg.rainCap s.rain.drops) :
    SparseOk s.cfg.pixels s.cfg.rainCap (rainSpawned t s).rain.drops := by
  have hready := rainReady_drops_ok t h
  rw [← rainReady_cfg t s] at hv hready ⊢
  rw [rainSpawned, rainSpawn_closed]
  dsimp only
  split
  · rename_i hspawns
    obtain ⟨hpos, hfree, -⟩ := dropPos_spec hv hready hspawns.2
    refine SparseOk_insert hready hpos hfree (lt_of_lt_of_le hspawns.2 ?_)
    exact (min_le_right _ _).trans (min_le_left _ _)
  · exact hready

/-- Settles O50: the spawn on the state `rainReady`, whose draws follow the one of the activation. -/
theorem animRainDecaysAndSpawns : Obligations.AnimRainDecaysAndSpawns := by
  unfold Obligations.AnimRainDecaysAndSpawns
  intro t s hv hs lo hi gap n0 r decays d spawns rnd
  have hready := rainReady_eq t s
  have henv : (rainReady t s).env = afterDraws s n0 := by rw [hready]
  have hrand : (rainReady t s).randValue = randAt s n0 := by rw [← randAt_zero, randAt_of_env henv, Nat.add_zero]
  have hgap : spawnGap (rainReady t s) (randAt (rainReady t s) 1) = gap (randAt s (n0 + 1)) := by
    rw [randAt_of_env henv, hready]
    rfl
  have hdraws : ∀ (p : Prop) [Decidable p],
      afterDraws (rainReady t s) (if p then 2 else 0) = afterDraws s (if p then n0 + 2 else n0) := by
    intro p _
    split <;> exact afterDraws_of_env henv _
  have hpixels := sparsePixels_spec (rainSpawned_drops_ok t hv hs)
  refine ⟨_, dropPos (rainReady t s), _, fun i => (sparsePixels (rainSpawned t s).rain.drops s.cfg.pixels).getD i black,
    sampleGate_noted .rain t s, (exec_animInstr .rain t s).trans (congrArg _ (animRain_eq t s)), ?_, fun hspawns => ?_,
    hpixels⟩
  · convert showPixels_emits_getD (rainSpawned t s)
      (px := sparsePixels (rainSpawned t s).rain.drops s.cfg.pixels) ?_ using 1
    · rw [rainSpawned, rainSpawn_closed]
      dsimp only
      rw [hgap, hdraws, hready]
      rfl
    · rw [rainSpawned_cfg, sparsePixels_length]
  · have hpos := dropPos_spec (s := rainReady t s) (cap := s.cfg.rainCap) (by rwa [rainReady_cfg])
      (by rw [rainReady_cfg]; exact rainReady_drops_ok t hs) (by rw [hready]; exact hspawns.2)
    rw [hrand, rainReady_cfg] at hpos
    rw [hready] at hpos ⊢
    exact hpos

/-- What ANIM_RAIN spawns on: no more droplets than before, each one not black before (R235). -/
theorem rainReady_drops (t : Trig) (s : State) :
    (rainReady t s).rain.drops.length ≤ (switchTo .rain t s).rain.drops.length ∧
      ∀ f ∈ (rainReady t s).rain.drops, ∃ e ∈ (switchTo .rain t s).rain.drops, e.pos = f.pos ∧ e.color ≠ black := by
  have hpurge : ∀ S, (purge S).length ≤ S.length ∧ ∀ f ∈ purge S, ∃ e ∈ S, e.pos = f.pos ∧ e.color ≠ black := fun S =>
    ⟨List.length_filter_le _ _, fun f hf => by
      obtain ⟨hmem, hcolor⟩ := List.mem_filter.1 hf
      exact ⟨f, hmem, rfl, by simpa using hcolor⟩⟩
  obtain ⟨hlen, hfrom⟩ := hpurge (switchTo .rain t s).rain.drops
  rw [rainReady, rainDecay_rainPurge_eq]
  dsimp only [sampleGate_rain]
  split
  · refine ⟨by rwa [decay, List.length_map], fun f hf => ?_⟩
    obtain ⟨x, hx, rfl⟩ := List.mem_map.1 hf
    exact hfrom x hx
  · exact ⟨hlen, hfrom⟩

/-- ANIM_RAIN spawns a droplet of its colour below the droplet bound and says so in RESULT[0], or leaves the droplets
(R235). -/
theorem rainSpawned_cases (t : Trig) (s : State) :
    ((rainReady t s).rain.drops.length < maxDrops s ∧ (rainSpawned t s).result.getLsbD 0 = true ∧
        ∃ pos, (rainSpawned t s).rain.drops = insertEntry ⟨pos, opColour s⟩ (rainReady t s).rain.drops) ∨
      (rainSpawned t s).rain.drops = (rainReady t s).rain.drops := by
  have hmax : maxDrops (rainReady t s) = maxDrops s := by rw [rainReady_eq]; rfl
  have hcolour : opColour (rainReady t s) = opColour s := by rw [rainReady_eq]; rfl
  rw [rainSpawned, rainSpawn_closed, hmax, hcolour]
  dsimp only
  split
  · rename_i hspawns
    exact .inl ⟨hspawns.2, by simp, _, rfl⟩
  · exact .inr rfl

/-- The droplets stay within min(MAXD, RAIN_CAP, P) if activation leaves them there (R238). -/
theorem rainSpawned_length_le {t : Trig} {s : State} (h : (switchTo .rain t s).rain.drops.length ≤ maxDrops s) :
    (rainSpawned t s).rain.drops.length ≤ maxDrops s := by
  obtain ⟨hlt, -, pos, hdrops⟩ | hdrops := rainSpawned_cases t s
  · rw [hdrops, insertEntry_length]
    exact hlt
  · rw [hdrops]
    exact (rainReady_drops t s).1.trans h

/-- Settles O53: sorted and bounded by `rainSpawned_drops_ok`, the rest by what ANIM_RAIN purges and spawns. -/
theorem rainKeepsItsBound : Obligations.RainKeepsItsBound := by
  unfold Obligations.RainKeepsItsBound
  intro t s u hv hs hexec
  cases (exec_animInstr .rain t s).symm.trans hexec
  simp only [animCall, animRain_eq, showPixels_rain, showPixels_result]
  refine ⟨rainSpawned_drops_ok t hv hs, fun hle => rainSpawned_length_le ?_, fun hnew => rainSpawned_length_le ?_,
    fun hcont e he hblack f hf hpos => ?_⟩
  · rw [switchTo_rain]
    split
    · exact Nat.zero_le _
    · exact hle
  · have hcont : continues .rain t s = false := by simpa using hnew
    rw [switchTo_rain, if_pos ⟨rfl, hcont⟩]
    exact Nat.zero_le _
  · have hold : f ∉ (rainReady t s).rain.drops := fun hmem => by
      obtain ⟨x, hx, hxpos, hxcolor⟩ := (rainReady_drops t s).2 f hmem
      rw [switchTo_same _ _ _ hcont] at hx
      exact hxcolor (sorted_unique hs.1 hx he (hxpos.trans hpos) ▸ hblack)
    obtain ⟨-, hresult, pos, hdrops⟩ | hdrops := rainSpawned_cases t s
    · rw [hdrops, mem_insertEntry] at hf
      obtain rfl | hmem := hf
      · exact ⟨hresult, rfl⟩
      · exact absurd hmem hold
    · exact absurd (hdrops ▸ hf) hold

/-! ## Runs of ANIM_BREATHE (R237) -/

section
variable {s : State}

theorem animBreathe_call (t : Trig) (s : State) :
    (animBreathe t s).breathe =
        (breatheUpdate t (risingEdge .breathe t s) (sampleGate .breathe (switchTo .breathe t s))).breathe ∧
      (animBreathe t s).result =
        (breatheUpdate t (risingEdge .breathe t s) (sampleGate .breathe (switchTo .breathe t s))).result := by
  rw [animBreathe, animStep_eq]
  exact ⟨rfl, rfl⟩

theorem opStep_ready (a : Anim) (t : Trig) (s : State) : opStep (sampleGate a (switchTo a t s)) = opStep s := by
  rw [opStep, sampleGate_arg1, switchTo_arg1, opStep]

/-! What a call of ANIM_BREATHE (TRIG = TIME) leaves, by the record it works on (R232). -/

theorem breatheCall_hold {l : Byte} {mark : Word} (hb : (switchTo .breathe .time s).breathe = ⟨l, .hold, mark⟩)
    (hw : elapsed s mark < 2000) :
    (animBreathe .time s).breathe = ⟨l, .hold, mark⟩ ∧ (animBreathe .time s).result = s.result := by
  obtain ⟨hbre, hres⟩ := animBreathe_call .time s
  rw [hbre, hres, breatheUpdate_hold (by simp [hb]) (by simpa [hb, triggered, expired, elapsed] using hw)]
  simp [hb]

theorem breatheCall_endsHold {l : Byte} {mark : Word} (hb : (switchTo .breathe .time s).breathe = ⟨l, .hold, mark⟩)
    (hw : 2000 ≤ elapsed s mark) :
    (animBreathe .time s).breathe =
        ⟨rampUp l (opStep s), if rampUp l (opStep s) = 255 then .down else .up, s.now⟩ ∧
      (animBreathe .time s).result = s.result := by
  obtain ⟨hbre, hres⟩ := animBreathe_call .time s
  rw [hbre, hres, breatheUpdate_endsHold (by simp [hb]) (by simpa [hb, triggered, expired, elapsed] using hw)]
  simp [hb, opStep_ready]

theorem breatheCall_up {l : Byte} {mark : Word} (hb : (switchTo .breathe .time s).breathe = ⟨l, .up, mark⟩) :
    (animBreathe .time s).breathe =
        ⟨rampUp l (opStep s), if rampUp l (opStep s) = 255 then .down else .up, mark⟩ ∧
      (animBreathe .time s).result = s.result := by
  obtain ⟨hbre, hres⟩ := animBreathe_call .time s
  rw [hbre, hres, breatheUpdate_up (by simp [hb])]
  simp [hb, opStep_ready]

theorem breatheCall_down {l : Byte} {mark : Word} (hb : (switchTo .breathe .time s).breathe = ⟨l, .down, mark⟩) :
    (animBreathe .time s).breathe =
        (if rampDown l (opStep s) = 0 then ⟨rampDown l (opStep s), .hold, s.now⟩
          else ⟨rampDown l (opStep s), .down, mark⟩) ∧
      (animBreathe .time s).result = if rampDown l (opStep s) = 0 then s.result ||| 1 else s.result := by
  obtain ⟨hbre, hres⟩ := animBreathe_call .time s
  rw [hbre, hres, breatheUpdate_down (by simp [hb])]
  simp [hb, opStep_ready]

end

/-- The level left by steps up from 0 is 255 exactly when they take 255 or more. -/
theorem ofNat_min_eq_iff (i : Nat) : BitVec.ofNat 8 (min i 255) = 255 ↔ ¬ i < 255 := by
  simp only [BitVec.ofNat_eq_ofNat, ← BitVec.toNat_inj, BitVec.toNat_ofNat]
  omega

/-- A run of calls of ANIM_BREATHE (TRIG = TIME) with one step, each on the record and the key the one before left
(R237). -/
structure BreatheRun (σ : Nat → State) (st : Byte) : Prop where
  record (n : Nat) : (σ (n + 1)).breathe = (animBreathe .time (σ n)).breathe
  key (n : Nat) : (σ (n + 1)).active = (animBreathe .time (σ n)).active
  step (n : Nat) : opStep (σ n) = st
  result (n : Nat) : (σ n).result = 0

namespace BreatheRun

variable {σ : Nat → State} {st : Byte} (h : BreatheRun σ st) {k : Nat} {mark : Word}
include h

/-- Every call but the first works on the record the one before left. -/
theorem next_record (n : Nat) : (switchTo .breathe .time (σ (n + 1))).breathe = (animBreathe .time (σ n)).breathe := by
  have hactive : (animBreathe .time (σ n)).active = some ⟨.breathe, .time⟩ :=
    congrArg Prod.snd (control_animCall .breathe .time (σ n))
  rw [switchTo_same _ _ _ (by simp [h.key, hactive]), h.record]

/-- A hold lasts until the first call at 2000 ms. -/
theorem hold (hb : (switchTo .breathe .time (σ k)).breathe = ⟨0, .hold, mark⟩) {n : Nat}
    (hw : ∀ j ≤ n, elapsed (σ (k + j)) mark < 2000) :
    (animBreathe .time (σ (k + n))).breathe = ⟨0, .hold, mark⟩ ∧ (animBreathe .time (σ (k + n))).result = 0 := by
  have hn : (switchTo .breathe .time (σ (k + n))).breathe = ⟨0, .hold, mark⟩ := by
    cases n with
    | zero => exact hb
    | succ n => rw [← Nat.add_assoc, h.next_record]; exact (hold hb fun j hj => hw j (by omega)).1
  obtain ⟨hbre, hres⟩ := breatheCall_hold hn (hw n le_rfl)
  exact ⟨hbre, hres.trans (h.result _)⟩

/-- From the call that ends the hold the level rises by the step, and turns at 255. -/
theorem rise (hb : (switchTo .breathe .time (σ k)).breathe = ⟨0, .hold, mark⟩) (hw : 2000 ≤ elapsed (σ k) mark)
    {n : Nat} (hn : n * st.toNat < 255) :
    (animBreathe .time (σ (k + n))).breathe =
        ⟨BitVec.ofNat 8 (min ((n + 1) * st.toNat) 255), if (n + 1) * st.toNat < 255 then .up else .down, (σ k).now⟩ ∧
      (animBreathe .time (σ (k + n))).result = 0 := by
  have hturn : ∀ i : Nat, (if BitVec.ofNat 8 (min i 255) = (255 : Byte) then BrePhase.down else .up) =
      if i < 255 then .up else .down := fun i => by
    rw [if_congr (ofNat_min_eq_iff i) rfl rfl, ite_not]
  induction n with
  | zero =>
    have hup := rampUp_steps 0 st
    rw [Nat.zero_mul] at hup
    obtain ⟨hbre, hres⟩ := breatheCall_endsHold hb hw
    rw [h.step, show (0 : Byte) = BitVec.ofNat 8 (min 0 255) from rfl, hup, hturn] at hbre
    exact ⟨hbre, hres.trans (h.result k)⟩
  | succ n ih =>
    have hlt : n * st.toNat < 255 := by rw [Nat.succ_mul] at hn; omega
    have hrec := h.next_record (k + n)
    rw [(ih hlt).1, if_pos hn] at hrec
    obtain ⟨hbre, hres⟩ := breatheCall_up hrec
    rw [h.step, rampUp_steps, hturn] at hbre
    exact ⟨hbre, hres.trans (h.result _)⟩

/-- From 255 the level falls by the step, and the call that reaches 0 reports it and starts a hold. -/
theorem fall (hb : (switchTo .breathe .time (σ k)).breathe = ⟨255, .down, mark⟩) {n : Nat} (hn : n * st.toNat < 255) :
    (animBreathe .time (σ (k + n))).breathe =
        (if (n + 1) * st.toNat < 255 then ⟨BitVec.ofNat 8 (255 - (n + 1) * st.toNat), .down, mark⟩
          else ⟨0, .hold, (σ (k + n)).now⟩) ∧
      (animBreathe .time (σ (k + n))).result = if (n + 1) * st.toNat < 255 then 0 else 1 := by
  have hrec : (switchTo .breathe .time (σ (k + n))).breathe = ⟨BitVec.ofNat 8 (255 - n * st.toNat), .down, mark⟩ := by
    cases n with
    | zero => rw [Nat.zero_mul]; exact hb
    | succ n =>
      have hlt : n * st.toNat < 255 := by rw [Nat.succ_mul] at hn; omega
      rw [← Nat.add_assoc, h.next_record, (fall hb hlt).1, if_pos hn]
  obtain ⟨hbre, hres⟩ := breatheCall_down hrec
  rw [h.step, rampDown_steps] at hbre hres
  by_cases hlt : (n + 1) * st.toNat < 255
  · have hpos : ¬ BitVec.ofNat 8 (255 - (n + 1) * st.toNat) = 0 := mt (ofNat_sub_eq_zero_iff _).1 (not_not.2 hlt)
    rw [if_neg hpos] at hbre hres
    rw [if_pos hlt, if_pos hlt]
    exact ⟨hbre, hres.trans (h.result _)⟩
  · have hzero : BitVec.ofNat 8 (255 - (n + 1) * st.toNat) = 0 := (ofNat_sub_eq_zero_iff _).2 hlt
    rw [if_pos hzero] at hbre hres
    rw [if_neg hlt, if_neg hlt]
    rw [hzero] at hbre
    exact ⟨hbre, by rw [hres, h.result]; rfl⟩

/-- A step is at least 1 (R224). -/
theorem step_pos : 0 < st.toNat :=
  Nat.pos_of_ne_zero fun h0 => coStep_ne_zero _ ((h.step 0).trans (byte_eq_zero.2 h0))

section
variable {m : Nat} (hm : ∀ n, n < m ↔ n * st.toNat < 255)
include hm

/-- After a rise of `m` calls the record stands at the top. -/
theorem top (hb : (switchTo .breathe .time (σ k)).breathe = ⟨0, .hold, mark⟩) (hw : 2000 ≤ elapsed (σ k) mark) :
    (switchTo .breathe .time (σ (k + m))).breathe = ⟨255, .down, (σ k).now⟩ := by
  obtain ⟨i, rfl⟩ : ∃ i, m = i + 1 := Nat.exists_eq_succ_of_ne_zero ((hm 0).2 (by omega)).ne'
  have hlast : ¬ (i + 1) * st.toNat < 255 := by rw [← hm]; omega
  have hi : i * st.toNat < 255 := (hm i).1 (by omega)
  rw [← Nat.add_assoc, h.next_record, (h.rise hb hw hi).1, if_neg hlast, Nat.min_eq_right (not_lt.1 hlast)]
  rfl

/-- The last of `m` calls down leaves the record in a new hold. -/
theorem bottom (hb : (switchTo .breathe .time (σ k)).breathe = ⟨255, .down, mark⟩) :
    (animBreathe .time (σ (k + (m - 1)))).breathe = ⟨0, .hold, (σ (k + (m - 1))).now⟩ := by
  have hm0 : 0 < m := (hm 0).2 (by omega)
  have hlast : ¬ (m - 1 + 1) * st.toNat < 255 := by rw [← hm]; omega
  rw [(h.fall hb ((hm (m - 1)).1 (by omega))).1, if_neg hlast]

end

end BreatheRun

/-- Settles O52: a hold, a rise, a fall and the next hold, one after the other. -/
theorem breatheCycle : Obligations.BreatheCycle := by
  unfold Obligations.BreatheCycle
  intro σ τ st N hexec hnext hop hnew hwait hend m
  have hτ : ∀ n, τ n = animBreathe .time (σ n) := fun n => Host.Outcome.next.inj (hexec n).symm
  simp only [hτ] at hnext ⊢
  have hrun : BreatheRun σ st := ⟨fun n => (hnext n).1, fun n => (hnext n).2, fun n => (hop n).1, fun n => (hop n).2⟩
  have hm : ∀ n, n < m ↔ n * st.toNat < 255 := lt_transition_iff hrun.step_pos
  have hm0 : 0 < m := (hm 0).2 (by omega)
  have hstart : (switchTo .breathe .time (σ 0)).breathe = ⟨0, .hold, (σ 0).now⟩ := by
    rw [switchTo_breathe, if_pos ⟨rfl, by simpa using hnew⟩]
  have hhold : ∀ n < N, (animBreathe .time (σ n)).breathe = ⟨0, .hold, (σ 0).now⟩ ∧
      (animBreathe .time (σ n)).result = 0 := fun n hn => by
    have := hrun.hold hstart (n := n) fun j hj => by rw [Nat.zero_add]; exact hwait j (by omega)
    rwa [Nat.zero_add] at this
  have hN : (switchTo .breathe .time (σ N)).breathe = ⟨0, .hold, (σ 0).now⟩ := by
    cases N with
    | zero => exact hstart
    | succ N => rw [hrun.next_record, (hhold N (by omega)).1]
  have htop := hrun.top hm hN hend
  have hbottom := hrun.bottom hm htop
  have hagain : (switchTo .breathe .time (σ (N + m + m))).breathe = ⟨0, .hold, (σ (N + m + (m - 1))).now⟩ := by
    rw [show N + m + m = N + m + (m - 1) + 1 by omega, hrun.next_record, hbottom]
  refine ⟨fun n hn => ?_, fun n hn => ?_, fun n hn => ?_, hbottom, fun n hw => ?_⟩
  · exact ⟨congrArg Breathe.level (hhold n hn).1, (hhold n hn).2⟩
  · obtain ⟨hbre, hres⟩ := hrun.rise hN hend ((hm n).1 hn)
    refine ⟨?_, hres⟩
    rw [hbre, BitVec.toNat_ofNat]
    omega
  · obtain ⟨hbre, hres⟩ := hrun.fall htop ((hm n).1 hn)
    rw [hbre, hres]
    by_cases hlt : (n + 1) * st.toNat < 255
    · have : n + 1 ≠ m := ((hm _).2 hlt).ne
      rw [if_pos hlt, if_pos hlt, if_neg this, BitVec.toNat_ofNat]
      exact ⟨by omega, rfl⟩
    · have : n + 1 = m := by
        rw [← hm] at hlt
        omega
      rw [if_neg hlt, if_neg hlt, if_pos this]
      exact ⟨(Nat.sub_eq_zero_of_le (not_lt.1 hlt)).symm, rfl⟩
  · obtain ⟨hbre, hres⟩ := hrun.hold hagain hw
    exact ⟨congrArg Breathe.level hbre, hres⟩

/-! ## Runs of ANIM_SWAP and ANIM_WIPE (R239) -/

theorem countP_range_succ (p : Nat → Bool) (n : Nat) :
    (List.range (n + 1)).countP p = (List.range n).countP p + if p n then 1 else 0 := by
  rw [List.range_succ, List.countP_append, List.countP_singleton]

/-- Counting on from a remainder, the count starts again at `P`. -/
theorem succ_mod (e P : Nat) : (e + 1) % P = if e % P + 1 = P then 0 else e % P + 1 := by
  rw [← Nat.mod_add_mod]
  split
  · rename_i h
    rw [h, Nat.mod_self]
  · rename_i h
    obtain rfl | hP := Nat.eq_zero_or_pos P
    · rw [Nat.mod_zero]
    · exact Nat.mod_eq_of_lt (lt_of_le_of_ne (Nat.mod_lt e hP) h)

/-- One call of a running swap with a usable palette (R234): the rotation moves by one, modulo N, on its event. -/
theorem animSwap_rot {t : Trig} {s : State} (ha : s.active = some ⟨.swap, t⟩) (hb : paletteBad s (opN s) = false) :
    (animSwap t s).swap.rot.toNat =
      if swapEvent t s then (s.swap.rot.toNat + 1) % opN s else s.swap.rot.toNat := by
  have hN : 0 < opN s := by
    have hgood := mt (paletteBad_iff s _).2 (by rw [hb]; exact Bool.false_ne_true)
    omega
  rw [animSwap_call (by simpa using ha) hb]
  split
  · have := Nat.mod_lt (s.swap.rot.toNat + 1) hN
    have := opN_lt s
    exact Nat.mod_eq_of_lt (by omega)
  · rfl

/-- One call of a running wipe (R236): after `e` events so far the count is `e` modulo P, and the event that brings it
back to 0 sets RESULT[0]. -/
theorem animWipe_count {t : Trig} {s : State} (hv : s.cfg.Valid) (ha : s.active = some ⟨.wipe, t⟩) {e e' : Nat}
    (hk : s.wipe.k.toNat = e % s.cfg.pixels) (he : e' = e + if wipeEvent t s then 1 else 0) :
    (animWipe t s).wipe.k.toNat = e' % s.cfg.pixels ∧
      (animWipe t s).result =
        if wipeEvent t s = true ∧ e' % s.cfg.pixels = 0 then setBitWord s.result 0 else s.result := by
  obtain ⟨⟨hpos, hP⟩, -⟩ := valid_sizes hv
  have hlt : s.wipe.k.toNat < s.cfg.pixels := hk ▸ Nat.mod_lt e hpos
  obtain ⟨hwipe, hres⟩ := animWipe_call (t := t) (s := s) (by simpa using ha)
  rw [hwipe, hres]
  by_cases hev : wipeEvent t s = true
  · have hcount : (wipeCount t s).toNat = e % s.cfg.pixels + 1 := by
      rw [wipeCount, if_pos hev, BitVec.toNat_add, ← hk]
      exact Nat.mod_eq_of_lt (by simp; omega)
    rw [if_pos hev] at he
    rw [he, succ_mod]
    by_cases hdone : e % s.cfg.pixels + 1 = s.cfg.pixels
    · simp [hcount, hdone, hev]
    · simp [hcount, hdone]
  · rw [if_neg hev, Nat.add_zero] at he
    have hcount : wipeCount t s = s.wipe.k := if_neg hev
    rw [hcount, if_neg hlt.ne, if_neg hlt.ne, if_neg hlt.ne, if_neg (mt And.left hev), he]
    exact ⟨hk, rfl⟩

/-- Settles O54, by induction on the number of calls: the rotation and the count follow the number of events. -/
theorem swapAndWipeCycles : Obligations.SwapAndWipeCycles := by
  unfold Obligations.SwapAndWipeCycles
  constructor
  · intro t σ τ N hexec hnext hcall h0 events
    have hstep : ∀ n, (τ n).swap.rot.toNat =
        if swapEvent t (σ n) then ((σ n).swap.rot.toNat + 1) % N else (σ n).swap.rot.toNat := fun n => by
      obtain ⟨hN, hgood, hactive⟩ := hcall n
      rw [← Host.Outcome.next.inj ((exec_animInstr .swap t (σ n)).symm.trans (hexec n))]
      rw [← hN] at hgood ⊢
      exact animSwap_rot hactive hgood
    have hrot : ∀ n, (σ n).swap.rot.toNat = ((σ 0).swap.rot.toNat + events n) % N := fun n => by
      induction n with
      | zero => exact (Nat.mod_eq_of_lt h0).symm
      | succ n ih =>
        have hsucc : events (n + 1) = events n + if swapEvent t (σ n) then 1 else 0 := countP_range_succ ..
        rw [hnext, hstep, hsucc, ih]
        split
        · rw [Nat.mod_add_mod, Nat.add_assoc]
        · rfl
    refine ⟨hrot, fun m n hmn => BitVec.eq_of_toNat_eq ?_, fun hN n => ?_⟩
    · rw [hrot, hrot m, hmn, ← Nat.add_assoc, Nat.add_mod_right]
    · have hlt : (σ n).swap.rot.toNat < 2 := by
        rw [hrot, hN]
        exact Nat.mod_lt _ (by omega)
      rw [hstep, hN]
      split <;> omega
  · intro t σ τ c hv hcfg hexec hnext hcall h0 events
    have hstep : ∀ n, (σ n).wipe.k.toNat = events n % c.pixels →
        (τ n).wipe.k.toNat = events (n + 1) % c.pixels ∧
          (τ n).result = if wipeEvent t (σ n) = true ∧ events (n + 1) % c.pixels = 0 then 1 else 0 := fun n hk => by
      obtain ⟨hresult, hactive⟩ := hcall n
      rw [← Host.Outcome.next.inj ((exec_animInstr .wipe t (σ n)).symm.trans (hexec n))]
      rw [← hcfg n] at hv hk ⊢
      have hcount := animWipe_count hv hactive hk (countP_range_succ (fun i => wipeEvent t (σ i)) n)
      rw [hresult] at hcount
      exact hcount
    have hcount : ∀ n, (σ n).wipe.k.toNat = events n % c.pixels := fun n => by
      induction n with
      | zero => rw [h0]; exact (Nat.zero_mod _).symm
      | succ n ih => rw [hnext]; exact (hstep n ih).1
    exact fun n => (hstep n (hcount n)).2

/-! ## One frame at most (R226, 40_encoder.md R128, R134) -/

/-- An animation command that runs hands one frame of P pixels to the encoder (R226). -/
theorem animCall_shows {a : Anim} (t : Trig) {s : State} (hgood : a = .swap → paletteBad s (opN s) = false) :
    ∃ px v, animCall a t s = showPixels px v ∧ px.length = s.cfg.pixels ∧ v.cfg = s.cfg ∧
      v.frameCount = s.frameCount := by
  cases a with
  | fade =>
    rw [animCall, animFade, animStep_eq, ready_fade, fadeUpdate_eq]
    exact ⟨_, _, rfl, List.length_replicate .., rfl, rfl⟩
  | breathe =>
    rw [animCall, animBreathe, animStep_eq, ready_breathe, breatheUpdate_eq]
    exact ⟨_, _, rfl, List.length_replicate .., rfl, rfl⟩
  | rainbow =>
    rw [animCall, animRainbow, animStep_eq, ready_rainbow, rainbowUpdate_eq]
    exact ⟨_, _, rfl, hueWalk_length .., rfl, rfl⟩
  | swap =>
    have hcheck : ¬ paletteBad s (opN s) = true := by simp [hgood rfl]
    have hn : 1 ≤ opN s := by
      rw [paletteBad_iff] at hcheck
      omega
    rw [animCall, animSwap, if_neg hcheck, animStep_eq, ready_swap, swapUpdate_eq]
    exact ⟨_, _, rfl, evenPixels_length hn _, rfl, rfl⟩
  | rain =>
    refine ⟨_, _, animRain_eq t s, sparsePixels_length .., rainSpawned_cfg t s, ?_⟩
    rw [rainSpawned, rainSpawn_closed, rainReady_eq]
  | wipe =>
    rw [animCall, animWipe, animStep_eq, ready_wipe, wipeUpdate_eq, wipeFinish_eq]
    exact ⟨_, _, rfl, by rw [wipePixels, List.length_map, List.length_range], rfl, rfl⟩

/-- The effect of a command on the encoder and FRAME_COUNT: none, or one frame of 3P bytes (40_encoder.md R128). -/
def EmitsAtMostOnce (s t : State) : Prop :=
  (t.enc = s.enc ∧ t.frameCount = s.frameCount) ∨
    ∃ F, F.length = 3 * s.cfg.pixels ∧ t.enc = startFrame s.cfg F ∧ t.frameCount = s.frameCount + 1

/-- A frame of P pixels has 3P bytes (41_pipeline.md R167). -/
theorem showPixels_emitsOnce {px : List RGB} {s v : State} (hl : px.length = s.cfg.pixels) (hcfg : v.cfg = s.cfg)
    (hcount : v.frameCount = s.frameCount) : EmitsAtMostOnce s (showPixels px v) := by
  refine .inr ⟨frameOf s.cfg (px.map fun c => applyBrightness c (opBr v)), ?_, ?_, ?_⟩
  · rw [(frameOf_spec _ _).1, List.length_map, hl]
  · rw [showPixels_enc, hcfg]
  · rw [showPixels_frameCount, hcount]
    rfl

/-- The render commands emit at most one frame, the other commands that are no animation none (R226). -/
theorem exec_plain_emits {i : Instr} (hi : i ∈ plainRows.map Prod.snd) (s : State) :
    ∃ t, exec i s = .next t ∧ EmitsAtMostOnce s t ∧
      (i ∈ [.nop, .scale, .segBuildEven, .spbClear, .spbPut, .spbDecay, .spbPurge, .animReset] →
        t.enc = s.enc ∧ t.frameCount = s.frameCount) := by
  cases i
  case nop | scale | spbClear | spbDecay | spbPurge | animReset =>
    exact ⟨_, rfl, .inl ⟨rfl, rfl⟩, fun _ => ⟨rfl, rfl⟩⟩
  case renderUniform =>
    exact ⟨_, rfl, showPixels_emitsOnce (List.length_replicate ..) rfl rfl, fun h => absurd h (by decide)⟩
  case renderSparse =>
    exact ⟨_, rfl, showPixels_emitsOnce (sparsePixels_length ..) rfl rfl, fun h => absurd h (by decide)⟩
  case renderSegments =>
    by_cases hc : s.segCount.toNat ≤ s.cfg.segCap
    · by_cases hs : segLenSum s.mem s.segCount.toNat = s.cfg.pixels
      · exact ⟨_, exec_renderSegments_show hc hs,
          showPixels_emitsOnce ((segPixels_segments_length ..).trans hs) rfl rfl, fun h => absurd h (by decide)⟩
      · exact ⟨_, exec_renderSegments_segsum hc hs, .inl ⟨rfl, rfl⟩, fun _ => ⟨rfl, rfl⟩⟩
    · exact ⟨_, exec_renderSegments_range (not_le.1 hc), .inl ⟨rfl, rfl⟩, fun _ => ⟨rfl, rfl⟩⟩
  case segBuildEven =>
    cases hbad : paletteBad s (opN s)
    · exact ⟨_, exec_segBuildEven_good hbad, .inl ⟨rfl, rfl⟩, fun _ => ⟨rfl, rfl⟩⟩
    · exact ⟨_, exec_segBuildEven_bad hbad, .inl ⟨rfl, rfl⟩, fun _ => ⟨rfl, rfl⟩⟩
  case spbPut =>
    obtain ⟨e, he⟩ | ⟨-, r, hr⟩ := exec_spbPut_cases s
    · exact ⟨_, he, .inl ⟨rfl, rfl⟩, fun _ => ⟨rfl, rfl⟩⟩
    · exact ⟨_, hr, .inl ⟨rfl, rfl⟩, fun _ => ⟨rfl, rfl⟩⟩
  all_goals exact absurd hi (by decide)

theorem animInstr_not_plain (a : Anim) (t : Trig) : animInstr a t ∉ plainRows.map Prod.snd := fun h => by
  cases (keyOf_animInstr a t).symm.trans (keyOf_plain h)

/-- The animation and the trigger mode of a command determine it (30_encoding.md R93). -/
theorem animInstr_inj {a a' : Anim} {t t' : Trig} (h : animInstr a t = animInstr a' t') : a = a' ∧ t = t' := by
  have hkey := congrArg keyOf h
  rw [keyOf_animInstr, keyOf_animInstr] at hkey
  cases hkey
  exact ⟨rfl, rfl⟩

/-- Settles O24: the animations by `animCall_shows`, a swap stopped by its palette check apart. -/
theorem everyCommandEmitsAtMostOneFrame : Obligations.EveryCommandEmitsAtMostOneFrame := by
  unfold Obligations.EveryCommandEmitsAtMostOneFrame
  intro i s _
  obtain ⟨a, tr, rfl⟩ | hi := instr_cases i
  · refine ⟨_, exec_animInstr a tr s, ?_, fun h => ?_, fun a' tr' h hgood => ?_⟩
    · by_cases hgood : a = .swap → paletteBad s (opN s) = false
      · obtain ⟨px, v, hcall, hl, hcfg, hcount⟩ := animCall_shows tr hgood
        rw [hcall]
        exact showPixels_emitsOnce hl hcfg hcount
      · obtain ⟨rfl, hbad⟩ : a = .swap ∧ paletteBad s (opN s) = true := by simpa using hgood
        have hcall : animCall .swap tr s = raiseErr .palette s := if_pos hbad
        rw [hcall]
        exact .inl ⟨rfl, rfl⟩
    · exact absurd ((by decide : _ ⊆ plainRows.map Prod.snd) h) (animInstr_not_plain a tr)
    · obtain ⟨rfl, rfl⟩ := animInstr_inj h
      obtain ⟨px, v, hcall, -, -, hcount⟩ := animCall_shows tr hgood
      rw [hcall, showPixels_frameCount, hcount]
      rfl
  · obtain ⟨t, ht, hemits, hnone⟩ := exec_plain_emits hi s
    exact ⟨t, ht, hemits, hnone, fun a tr h => absurd (h ▸ hi) (animInstr_not_plain a tr)⟩

/-! ## What an animation does not see (R220, R240) -/

theorem setGateBit_setGateBit (g : BitVec 6) (a : Anim) (b c : Bool) :
    setGateBit (setGateBit g (animIndex a) b) (animIndex a) c = setGateBit g (animIndex a) c := by
  apply BitVec.eq_of_getLsbD_eq
  intro i hi
  rw [setGateBit_get _ _ _ (animIndex_lt a) hi, setGateBit_get _ _ _ (animIndex_lt a) hi,
    setGateBit_get _ _ _ (animIndex_lt a) hi]
  split <;> rfl

theorem setGateBit_get_same (g : BitVec 6) (a : Anim) (b : Bool) :
    (setGateBit g (animIndex a) b).getLsbD (animIndex a) = b := by
  rw [setGateBit_get _ _ _ (animIndex_lt a) (animIndex_lt a), if_pos rfl]

theorem setGateBit_self (g : BitVec 6) (a : Anim) :
    setGateBit g (animIndex a) (g.getLsbD (animIndex a)) = g := by
  apply BitVec.eq_of_getLsbD_eq
  intro i hi
  rw [setGateBit_get _ _ _ (animIndex_lt a) hi]
  split
  · rename_i h
    rw [h]
  · rfl

/-- `f` neither reads nor writes what a command of animation `a` leaves to others (R220). -/
def OthersBlind (a : Anim) (f : State → State) : Prop := ∀ o s, f (othersFrom a o s) = othersFrom a o (f s)

theorem othersFrom_self (a : Anim) (s : State) : othersFrom a s s = s := by
  simp only [othersFrom, setGateBit_self, ite_self]

section
variable (a : Anim) (t : Trig)

theorem activate_othersBlind : OthersBlind a (activate a) := by
  intro o s
  cases a
  all_goals
    simp only [activate, othersFrom, drawRand, setGateBit_setGateBit, setGateBit_get_same]
    rfl

theorem switchTo_othersBlind : OthersBlind a (switchTo a t) := by
  intro o s
  by_cases h : s.active = some ⟨a, t⟩
  · simp only [switchTo, if_pos h]
    rw [if_pos (by exact h)]
    rfl
  · simp only [switchTo, if_neg h]
    rw [if_neg (by exact h), activate_othersBlind]
    rfl

theorem sampleGate_othersBlind : OthersBlind a (sampleGate a) := by
  intro o s
  simp only [sampleGate, othersFrom, setGateBit_setGateBit, setGateBit_get_same]
  rfl

theorem gateEdge_othersFrom (o s : State) : gateEdge a (othersFrom a o s) = gateEdge a s := by
  simp only [gateEdge, othersFrom, setGateBit_get_same]
  rfl

variable {a}

theorem animStep_othersBlind {f : Bool → State → State} (hf : ∀ b, OthersBlind a (f b)) :
    OthersBlind a (animStep a t f) := by
  intro o s
  rw [animStep, switchTo_othersBlind, gateEdge_othersFrom, sampleGate_othersBlind, hf, animStep]

theorem showPixels_othersBlind (px : List RGB) : OthersBlind a (showPixels px) := fun _ _ => rfl

theorem fadeUpdate_othersBlind (b : Bool) : OthersBlind .fade (fadeUpdate t b) := by
  intro o s
  rw [fadeUpdate_eq, fadeUpdate_eq]
  rfl

theorem breatheUpdate_othersBlind (b : Bool) : OthersBlind .breathe (breatheUpdate t b) := by
  intro o s
  rw [breatheUpdate_eq, breatheUpdate_eq]
  rfl

theorem rainbowUpdate_othersBlind (b : Bool) : OthersBlind .rainbow (rainbowUpdate t b) := by
  intro o s
  rw [rainbowUpdate_eq, rainbowUpdate_eq]
  rfl

theorem swapUpdate_othersBlind (b : Bool) : OthersBlind .swap (swapUpdate t b) := by
  intro o s
  rw [swapUpdate_eq, swapUpdate_eq]
  rfl

theorem wipeUpdate_othersBlind (b : Bool) : OthersBlind .wipe (wipeUpdate t b) := by
  intro o s
  rw [wipeUpdate_eq, wipeUpdate_eq]
  rfl

theorem wipeFinish_othersBlind : OthersBlind .wipe wipeFinish := by
  intro o s
  rw [wipeFinish_eq, wipeFinish_eq]
  rfl

theorem rainUpdate_othersBlind (b : Bool) : OthersBlind .rain (rainUpdate t b) := by
  intro o s
  have hready : rainDecay (rainPurge (othersFrom .rain o s)) = othersFrom .rain o (rainDecay (rainPurge s)) := by
    rw [rainDecay_rainPurge_eq, rainDecay_rainPurge_eq]
    rfl
  rw [rainUpdate, hready, rainSpawn_closed, rainUpdate, rainSpawn_closed]
  rfl

theorem animCall_othersBlind (a : Anim) : OthersBlind a (animCall a t) := by
  intro o s
  cases a with
  | fade =>
    simp only [animCall, animFade, animStep_othersBlind t (fadeUpdate_othersBlind t) o s]
    exact showPixels_othersBlind _ _ _
  | breathe =>
    simp only [animCall, animBreathe, animStep_othersBlind t (breatheUpdate_othersBlind t) o s]
    exact showPixels_othersBlind _ _ _
  | rainbow =>
    simp only [animCall, animRainbow, animStep_othersBlind t (rainbowUpdate_othersBlind t) o s]
    exact showPixels_othersBlind _ _ _
  | swap =>
    simp only [animCall, animSwap, animStep_othersBlind t (swapUpdate_othersBlind t) o s,
      apply_ite (othersFrom .swap o)]
    have herr : raiseErr .palette (othersFrom .swap o s) = othersFrom .swap o (raiseErr .palette s) := rfl
    rw [herr]
    rfl
  | rain =>
    simp only [animCall, animRain, animStep_othersBlind t (rainUpdate_othersBlind t) o s]
    exact showPixels_othersBlind _ _ _
  | wipe =>
    simp only [animCall, animWipe, animStep_othersBlind t (wipeUpdate_othersBlind t) o s, wipeFinish_othersBlind o _]
    exact showPixels_othersBlind _ _ _

end

/-- ANIM_SWAP reads the palette and writes none of it (R234). -/
theorem animSwap_palette (t : Trig) (s : State) : (animSwap t s).mem = s.mem ∧ (animSwap t s).palLen = s.palLen := by
  unfold animSwap
  split
  · exact ⟨rfl, rfl⟩
  · rw [animStep_eq, ready_swap, swapUpdate_eq]
    exact ⟨rfl, rfl⟩

/-- Settles O55: the command commutes with taking the other fields from elsewhere, and leaves its own there. -/
theorem animationsAreIndependent : Obligations.AnimationsAreIndependent := by
  unfold Obligations.AnimationsAreIndependent
  intro a t s o
  have hself : animCall a t s = othersFrom a s (animCall a t s) := by
    rw [← animCall_othersBlind, othersFrom_self]
  refine ⟨_, exec_animInstr a t s, (exec_animInstr a t _).trans (congrArg _ (animCall_othersBlind t a o s)), hself, ?_⟩
  cases a
  case swap => exact animSwap_palette t s
  all_goals
    rw [hself]
    exact ⟨rfl, rfl⟩

/-! A pattern switch forgets the record (R240). -/

/-- Activation writes the whole record of its animation, and its gate sample (R222). -/
theorem activate_recordFrom (a : Anim) (o s : State) : activate a (recordFrom a o s) = activate a s := by
  cases a
  all_goals
    simp only [activate, recordFrom, drawRand, setGateBit_setGateBit]
    rfl

/-- A command that runs sees only what activation leaves (R226). -/
theorem animCall_congr {a : Anim} {t : Trig} {s s' : State} (h : switchTo a t s = switchTo a t s')
    (hgood : a = .swap → paletteBad s (opN s) = false ∧ paletteBad s' (opN s') = false) :
    animCall a t s = animCall a t s' := by
  cases a with
  | swap =>
    obtain ⟨hs, hs'⟩ := hgood rfl
    simp only [animCall, animSwap, hs, hs', Bool.false_eq_true, if_false, animStep, h]
  | fade => simp only [animCall, animFade, animStep, h]
  | breathe => simp only [animCall, animBreathe, animStep, h]
  | rainbow => simp only [animCall, animRainbow, animStep, h]
  | rain => simp only [animCall, animRain, animStep, h]
  | wipe => simp only [animCall, animWipe, animStep, h]

/-- Settles O56: a switch activates the same state whatever the record held. -/
theorem patternSwitchForgetsTheRecord : Obligations.PatternSwitchForgetsTheRecord := by
  unfold Obligations.PatternSwitchForgetsTheRecord
  intro a t s o hnew hgood
  have hswitch : switchTo a t (recordFrom a o s) = switchTo a t s := by
    rw [switchTo_new a t s hnew, switchTo_new a t (recordFrom a o s) hnew, activate_recordFrom]
  refine ⟨_, exec_animInstr a t s, (exec_animInstr a t _).trans (congrArg _ (animCall_congr hswitch ?_))⟩
  exact fun ha => ⟨hgood ha, hgood ha⟩

end Sys2Proof.Machine

/-! # Errors are precise (60_exceptions.md R300, R301, R303) -/

namespace Sys2Proof.Machine

/-- A sticky bit of STATUS (10_state.md R26). -/
theorem statusWord_get_sticky (s : State) {i : Nat} (h : 8 ≤ i ∧ i < 14) :
    (statusWord s).getLsbD i = s.sticky.getLsbD (i - 8) := by
  rw [statusWord_get, if_neg (by omega), if_neg (by omega), if_neg (by omega), if_pos h]

/-- A bit of LAST_ERR in STATUS (10_state.md R26). -/
theorem statusWord_get_lastErr (s : State) {i : Nat} (h : 16 ≤ i ∧ i < 24) :
    (statusWord s).getLsbD i = s.lastErr.getLsbD (i - 16) := by
  rw [statusWord_get, if_neg (by omega), if_neg (by omega), if_neg (by omega), if_neg (by omega), if_pos h]

/-- Reporting an error sets its own STATUS bit, puts its code into LAST_ERR, and moves no other bit (R301). -/
theorem statusWord_raiseErr_get (e : ErrCode) (s : State) (i : Nat) : (statusWord (raiseErr e s)).getLsbD i =
    if 16 ≤ i ∧ i < 24 then (errCode e).testBit (i - 16)
    else if i = 7 + errCode e then true else (statusWord s).getLsbD i := by
  have hcode : 1 ≤ errCode e ∧ errCode e ≤ 6 := by cases e <;> decide
  by_cases hlast : 16 ≤ i ∧ i < 24
  · have hi : i - 16 < 8 := by omega
    rw [if_pos hlast, statusWord_get_lastErr _ hlast, raiseErr_lastErr, BitVec.getLsbD_ofNat, decide_eq_true hi,
      Bool.true_and]
  rw [if_neg hlast]
  by_cases hsticky : 8 ≤ i ∧ i < 14
  · have hown : (errBit e).getLsbD (i - 8) = decide (i = 7 + errCode e) := by
      rw [errBit_get]
      exact decide_eq_decide.2 (by omega)
    rw [statusWord_get_sticky _ hsticky, statusWord_get_sticky _ hsticky, raiseErr_sticky, BitVec.getLsbD_or, hown]
    by_cases h : i = 7 + errCode e <;> simp [h]
  · have hother : i ≠ 7 + errCode e := by omega
    rw [if_neg hother, statusWord_get, statusWord_get, raiseErr_enc]
    simp only [if_neg hsticky, if_neg hlast]

/-- A command that goes from `s` to `t` leaves the errors pending as they are, or reports one of the errors of its row
and does nothing else (R303). -/
def PreciseError (i : Instr) (s t : State) : Prop :=
  (t.sticky = s.sticky ∧ t.lastErr = s.lastErr) ∨ ∃ e ∈ mayRaise i, t = raiseErr e s

/-- An animation command that runs reports no error (R226). -/
theorem animCall_keeps_errors {a : Anim} (t : Trig) {s : State} (hgood : a = .swap → paletteBad s (opN s) = false) :
    (animCall a t s).sticky = s.sticky ∧ (animCall a t s).lastErr = s.lastErr := by
  cases a with
  | fade =>
    rw [animCall, animFade, animStep_eq, ready_fade, fadeUpdate_eq]
    exact ⟨rfl, rfl⟩
  | breathe =>
    rw [animCall, animBreathe, animStep_eq, ready_breathe, breatheUpdate_eq]
    exact ⟨rfl, rfl⟩
  | rainbow =>
    rw [animCall, animRainbow, animStep_eq, ready_rainbow, rainbowUpdate_eq]
    exact ⟨rfl, rfl⟩
  | swap =>
    rw [animCall, animSwap, if_neg (by simp [hgood rfl]), animStep_eq, ready_swap, swapUpdate_eq]
    exact ⟨rfl, rfl⟩
  | rain =>
    rw [animCall, animRain_eq, rainSpawned, rainSpawn_closed, rainReady_eq]
    exact ⟨rfl, rfl⟩
  | wipe =>
    rw [animCall, animWipe, animStep_eq, ready_wipe, wipeUpdate_eq, wipeFinish_eq]
    exact ⟨rfl, rfl⟩

/-- An animation command reports E_PALETTE if it is a swap whose palette check fails, and else nothing (R234, R300). -/
theorem animCall_precise (a : Anim) (t : Trig) (s : State) : PreciseError (animInstr a t) s (animCall a t s) := by
  by_cases hgood : a = .swap → paletteBad s (opN s) = false
  · exact .inl (animCall_keeps_errors t hgood)
  · obtain ⟨rfl, hbad⟩ : a = .swap ∧ paletteBad s (opN s) = true := by simpa using hgood
    have hrow : ErrCode.palette ∈ mayRaise (animInstr .swap t) := by cases t <;> decide
    exact .inr ⟨_, hrow, if_pos hbad⟩

/-- RENDER_SEGMENTS, SEG_BUILD_EVEN and SPB_PUT report the first of their checks that fails; the other commands that are
no animation report nothing (R300, R302). -/
theorem exec_plain_precise {i : Instr} (hi : i ∈ plainRows.map Prod.snd) (s : State) :
    ∃ t, exec i s = .next t ∧ PreciseError i s t := by
  cases i
  case nop | scale | renderUniform | renderSparse | spbClear | spbDecay | spbPurge | animReset =>
    exact ⟨_, rfl, .inl ⟨rfl, rfl⟩⟩
  case renderSegments =>
    by_cases hc : s.segCount.toNat ≤ s.cfg.segCap
    · by_cases hs : segLenSum s.mem s.segCount.toNat = s.cfg.pixels
      · exact ⟨_, exec_renderSegments_show hc hs, .inl ⟨rfl, rfl⟩⟩
      · exact ⟨_, exec_renderSegments_segsum hc hs, .inr ⟨_, by decide, rfl⟩⟩
    · exact ⟨_, exec_renderSegments_range (not_le.1 hc), .inr ⟨_, by decide, rfl⟩⟩
  case segBuildEven =>
    cases hbad : paletteBad s (opN s)
    · exact ⟨_, exec_segBuildEven_good hbad, .inl ⟨rfl, rfl⟩⟩
    · exact ⟨_, exec_segBuildEven_bad hbad, .inr ⟨_, by decide, rfl⟩⟩
  case spbPut =>
    by_cases hp : (opPos s).toNat < s.cfg.pixels
    · obtain ⟨ho, -⟩ | ⟨ho, hl, -⟩ | ⟨ho, hl, -⟩ := put_cases s.spb (opPos s) (opColour s) s.cfg.spbCap
      · exact ⟨_, exec_spbPut_updated hp ho, .inl ⟨rfl, rfl⟩⟩
      · exact ⟨_, exec_spbPut_inserted hp ho hl, .inl ⟨rfl, rfl⟩⟩
      · exact ⟨_, exec_spbPut_full hp ho hl, .inr ⟨_, by decide, rfl⟩⟩
    · exact ⟨_, exec_spbPut_range (not_lt.1 hp), .inr ⟨_, by decide, rfl⟩⟩
  all_goals exact absurd hi (by decide)

theorem exec_precise (i : Instr) (s : State) : ∃ t, exec i s = .next t ∧ PreciseError i s t := by
  obtain ⟨a, tr, rfl⟩ | hi := instr_cases i
  · exact ⟨_, exec_animInstr a tr s, animCall_precise a tr s⟩
  · exact exec_plain_precise hi s

/-- Settles O57: STATUS bit by bit, and the outcome of every command. -/
theorem errorsArePrecise : Obligations.ErrorsArePrecise := by
  unfold Obligations.ErrorsArePrecise
  refine ⟨statusWord_raiseErr_get, fun i s => ?_⟩
  obtain ⟨t, ht, hkeeps | ⟨e, he, hraise⟩⟩ := exec_precise i s
  · exact ⟨t, ht, .inl hkeeps⟩
  · exact ⟨t, ht, .inr ⟨e, he, hraise, hraise⟩⟩

end Sys2Proof.Machine

/-! # Reset (70_reset_and_hazards.md R340, R341) -/

namespace Sys2Proof.Machine

/-- The reset input puts the block, and nothing of the world around it, at its reset values in one step (R340). -/
theorem step_reset {s : State} (hv : s.cfg.Valid) {rest : List Event} (hp : s.env.pending = .reset :: rest) :
    step s = .next (State.resetIn s.cfg { s.env with pending := rest }) := by
  rw [step_event hv hp]
  rfl

/-! ## What is read after reset -/

theorem readReg_resetIn (c : Config) (e : Env) (r : Reg) : readReg (State.resetIn c e) r = resetWord c r := by
  cases r
  case status => exact statusWord_reset c e
  case fadeColor | rbwColor => exact (by decide : colourWord red = 0x00FF0000)
  case wipeBg => exact (by decide : colourWord black = 0)
  all_goals rfl

theorem Memory.read_nil (a n : Nat) : Memory.read [] a n = 0 := by
  induction n generalizing a with
  | zero => rfl
  | succ n ih =>
    rw [Memory.read, ih]
    rfl

/-- Every entry of SEG, PAL, SPB and the droplets reads 0 after reset, and so does what is unmapped. -/
theorem readTarget_resetIn (c : Config) (e : Env) {t : Target} (ht : ∀ r, t ≠ .reg r) :
    readTarget (State.resetIn c e) t = 0 := by
  cases t with
  | reg r => exact absurd rfl (ht r)
  | segLen k | segColor k | pal k => simp [readTarget, State.resetIn, segLen, segColor, pal, Memory.read_nil]
  | spbPos k | spbColor k | rainPos k | rainColor k | unmapped => rfl

/-- The windows begin above the registers (20_memory.md R64, R65). -/
theorem targetAt_ne_reg {c : Config} {a : Half} (ha : 0x1000 ≤ a.toNat) (r : Reg) : targetAt c a ≠ .reg r := by
  have hnone : regAt a.toNat = none := regAt_none (by omega)
  simp only [targetAt, hnone, windowAt, pairTarget]
  repeat' split
  all_goals simp

/-! ## The encoder after reset -/

/-- A latch that counts lasts as many steps as its count says, and then the encoder is idle (40_encoder.md R133). -/
theorem encRun_latch_cases {c : Config} {e : Encoder} (h : e.est = .latch) (hc : 1 ≤ e.cnt) (n : Nat) :
    (n < e.cnt ∧ (encRun c n e).est = .latch) ∨ (e.cnt ≤ n ∧ encRun c n e = encIdle) := by
  obtain ⟨hidle, -, hlatch⟩ := encRun_latch (c := c) h hc
  obtain hn | hn := Nat.lt_or_ge n e.cnt
  · exact .inl ⟨hn, hlatch n hn⟩
  · obtain ⟨m, rfl⟩ := Nat.exists_eq_add_of_le hn
    rw [encRun_add, hidle]
    exact .inr ⟨hn, encRun_idle rfl m⟩

/-- The encoder latches for NRESET steps from reset on, and is idle after them (10_state.md R38). -/
theorem encRun_encReset_cases {c : Config} (hv : c.Valid) (n : Nat) :
    (n < nreset c ∧ (encRun c n (encReset c)).est = .latch) ∨
      (nreset c ≤ n ∧ encRun c n (encReset c) = encIdle) := by
  obtain ⟨-, -, -, hr⟩ := valid_timing hv
  exact encRun_latch_cases (e := encReset c) rfl hr n

theorem busy_encReset {c : Config} (hv : c.Valid) (n : Nat) :
    busy (encRun c n (encReset c)) = decide (n < nreset c) := by
  obtain ⟨hn, hlatch⟩ | ⟨hn, hidle⟩ := encRun_encReset_cases hv n
  · rw [busy, hlatch, decide_eq_true hn]
    rfl
  · rw [hidle, decide_eq_false (Nat.not_lt.2 hn)]
    rfl

theorem dout_encReset {c : Config} (hv : c.Valid) (n : Nat) : dout (encRun c n (encReset c)) = false := by
  obtain ⟨-, hlatch⟩ | ⟨-, hidle⟩ := encRun_encReset_cases hv n
  · rw [dout, hlatch]
    rfl
  · rw [hidle]
    rfl

/-- Settles O58: `step_reset`, then what is read in the reset state and how its encoder runs. -/
theorem resetPutsEverythingAtItsValue : Obligations.ResetPutsEverythingAtItsValue := by
  unfold Obligations.ResetPutsEverythingAtItsValue
  intro s rest hv hp
  refine ⟨_, step_reset hv hp, rfl, rfl, readReg_resetIn _ _, fun a _ ha => ?_, rfl, rfl, rfl, rfl, rfl, rfl, rfl, rfl,
    busy_encReset hv, dout_encReset hv⟩
  exact readTarget_resetIn _ _ (targetAt_ne_reg ha)

/-- Settles O59: `inv_resetIn`. -/
theorem resetMeetsTheInvariant : Obligations.ResetMeetsTheInvariant := by
  unfold Obligations.ResetMeetsTheInvariant
  exact fun c e hv => inv_resetIn hv e

end Sys2Proof.Machine
